-- ==== Sys2Proof/Word.lean ====
section
/-! DEFINITION. The word types of the machine: op words, output bytes, and the values of the numeric
domain `NUM` with the record of functions the spec asks of a domain (00_scope.md R7). -/

namespace Sys2Proof

/-- A 16-bit op word (30_encoding.md R90). -/
abbrev Word := BitVec 16

/-- One byte of the output stream (20_memory.md R66). -/
abbrev Byte := BitVec 8

/-- A real number as plain data: how it is computed from rational numbers and pi by the functions of
00_scope.md R7.  What it stands for is `RealTerm.toReal`. -/
inductive RealTerm where
  | rat (q : Rat)
  | pi
  | add (a b : RealTerm)
  | neg (a : RealTerm)
  | abs (a : RealTerm)
  | mul (a b : RealTerm)
  /-- the reciprocal of `a`, which the approximation of `a` at level `k` shows not to be zero -/
  | inv (k : Nat) (a : RealTerm)
  | sin (a : RealTerm)
  | cos (a : RealTerm)
deriving DecidableEq, Repr, Inhabited

/-- One value of the numeric domain `NUM` (00_scope.md R7).  A finite value is written by a rational
number or, in the exact domain, by a term for a real number; a domain may also have values that are not
finite numbers (60_exceptions.md R301).  How each kind of domain uses these values is log entry 2. -/
inductive NumVal where
  /-- a finite number that is rational -/
  | fin (q : Rat)
  /-- a real number that is not written as a rational -/
  | real (t : RealTerm)
  /-- an infinity, negative when `neg` is true -/
  | inf (neg : Bool)
  /-- not a number -/
  | nan
deriving DecidableEq, Repr, Inhabited

/-- Is the value a finite number (60_exceptions.md R301)? -/
def NumVal.isFinite : NumVal → Bool
  | .fin _ | .real _ => true
  | _ => false

@[simp] theorem NumVal.isFinite_fin (q : Rat) : (NumVal.fin q).isFinite = true := rfl
@[simp] theorem NumVal.isFinite_real (t : RealTerm) : (NumVal.real t).isFinite = true := rfl
@[simp] theorem NumVal.isFinite_inf (b : Bool) : (NumVal.inf b).isFinite = false := rfl
@[simp] theorem NumVal.isFinite_nan : NumVal.nan.isFinite = false := rfl

/-- Which numeric domain a configuration chooses (00_scope.md R7, decision D6).  The functions of each
kind are `Sys2Proof.Machine.numOps`. -/
inductive NumDomain where
  /-- the reference instance, the real numbers (log entry 3) -/
  | exact
  /-- the recommended implementation instance, IEEE 754 binary64 (log entry 4) -/
  | binary64
  /-- any other domain: every function is uninterpreted (log entry 5) -/
  | other (k : Nat)
deriving DecidableEq, Repr, Inhabited

/-- The total functions of a numeric domain, exactly those 00_scope.md R7 lists. -/
structure NumOps where
  add : NumVal → NumVal → NumVal
  sub : NumVal → NumVal → NumVal
  mul : NumVal → NumVal → NumVal
  div : NumVal → NumVal → NumVal
  neg : NumVal → NumVal
  abs : NumVal → NumVal
  sin : NumVal → NumVal
  cos : NumVal → NumVal
  lt : NumVal → NumVal → Bool
  le : NumVal → NumVal → Bool
  eq : NumVal → NumVal → Bool
  /-- `of_nat` -/
  ofNat : Nat → NumVal
  /-- `of_dec` of a decimal literal -/
  ofDec : Rat → NumVal
  /-- `floor_nat`, given a meaning by the spec for values `>= 0` -/
  floorNat : NumVal → Nat
  /-- `trunc_int`, round toward zero -/
  truncInt : NumVal → Int
  /-- `PI` -/
  pi : NumVal
deriving Inhabited

end Sys2Proof
end

