-- ==== Sys2Proof/Syntax.lean ====
section
/-! DEFINITION. The instructions: one constructor for each of the 18 rows of the opcode map
(30_encoding.md R93), over signal registers, voices and channels (R92, R95). -/

namespace Sys2Proof

/-- A signal register `s0` .. `s7` (10_state.md R20). -/
abbrev Reg := Fin 8

/-- The instance of SAW and TGT: `inst = 0` bass, `inst = 1` melody (30_encoding.md R95). -/
inductive Voice where
  | bass
  | melody
deriving DecidableEq, Repr, Inhabited

/-- The instance of XOV and IMG: `inst = 0` left, `inst = 1` right (30_encoding.md R95). -/
inductive Channel where
  | left
  | right
deriving DecidableEq, Repr, Inhabited

/-- The 18 ops; `rd` comes before `rs` (30_encoding.md R92, R93). -/
inductive Instr where
  | nop
  | mov (rd rs : Reg)
  | acc (rd rs : Reg)
  | clamp (rd rs : Reg)
  | xov (c : Channel) (rd rs : Reg)
  | trig
  | drum (rd rs : Reg)
  /-- `rd` holds the tune, `rs` the target volume -/
  | tgt (v : Voice) (rd rs : Reg)
  | saw (v : Voice) (rd : Reg)
  | arm
  | hat (rd : Reg)
  | dly (rd rs : Reg)
  | seq
  | ends
  | noise (rd : Reg)
  | rpush (rs : Reg)
  | img (c : Channel) (rd : Reg)
  | enc (rs : Reg)
deriving DecidableEq, Repr, Inhabited

end Sys2Proof
end

