-- ==== Sys2Proof/WellFormed.lean ====
section
/-! DEFINITION. Well-formedness of an op before it is an `Instr`: the four fields of the format F16
(30_encoding.md R90), which of them each op uses (R92), and the checks R91 and R96 put on them.  Every
`Instr` is well-formed by its types; what these checks refuse never becomes one. -/

namespace Sys2Proof

/-- The 18 opcodes, as names of the rows of 30_encoding.md R93. -/
inductive Opcode where
  | nop | mov | acc | clamp | xov | trig | drum | tgt | saw | arm | hat | dly | seq | ends
  | noise | rpush | img | enc
deriving DecidableEq, Repr, Inhabited

/-- The fields of the format F16 (30_encoding.md R90). -/
structure Fields where
  opc : BitVec 8
  inst : BitVec 2
  rd : BitVec 3
  rs : BitVec 3
deriving DecidableEq, Repr, Inhabited

/-- Which operand fields an op uses (30_encoding.md R92). -/
structure Shape where
  inst : Bool
  rd : Bool
  rs : Bool
deriving DecidableEq, Repr, Inhabited

/-- The table of 30_encoding.md R92. -/
def Opcode.shape : Opcode → Shape
  | .nop | .trig | .arm | .seq | .ends => ⟨false, false, false⟩
  | .mov | .acc | .clamp | .drum | .dly => ⟨false, true, true⟩
  | .xov | .tgt => ⟨true, true, true⟩
  | .saw | .img => ⟨true, true, false⟩
  | .hat | .noise => ⟨false, true, false⟩
  | .rpush | .enc => ⟨false, false, true⟩

/-- Why a word is illegal (30_encoding.md R96). -/
inductive Reject where
  /-- the `opc` value is not in the table -/
  | unknownOpcode
  /-- an unused `inst` field is not zero -/
  | instNotZero
  /-- a used `inst` field has the value 2 or 3 -/
  | instReserved
  /-- an unused `rd` field is not zero -/
  | rdNotZero
  /-- an unused `rs` field is not zero -/
  | rsNotZero
deriving DecidableEq, Repr, Inhabited

/-- The first check that the operand fields of an op of shape `sh` fail (30_encoding.md R91, R96). -/
def Fields.check (sh : Shape) (f : Fields) : Option Reject :=
  if sh.inst = false ∧ f.inst ≠ 0 then some .instNotZero
  else if sh.inst = true ∧ 2 ≤ f.inst.toNat then some .instReserved
  else if sh.rd = false ∧ f.rd ≠ 0 then some .rdNotZero
  else if sh.rs = false ∧ f.rs ≠ 0 then some .rsNotZero
  else none

/-- The operand fields suit an op of shape `sh`. -/
abbrev Fields.wellFormed (sh : Shape) (f : Fields) : Prop := f.check sh = none

end Sys2Proof
end

