-- ==== Sys2Proof/Decode.lean ====
section
/-! DEFINITION. Decoding, total on all 65,536 words and rejecting by name (30_encoding.md R96), the byte
decoder over it (20_memory.md R68), the encoder (R93), and the opcode map itself with match and mask. -/

namespace Sys2Proof

/-! ## Fields of a word -/

/-- `opc = w[15:8]`, `inst = w[7:6]`, `rd = w[5:3]`, `rs = w[2:0]` (30_encoding.md R90). -/
def fieldsOf (w : Word) : Fields where
  opc := w.extractLsb' 8 8
  inst := w.extractLsb' 6 2
  rd := w.extractLsb' 3 3
  rs := w.extractLsb' 0 3

/-- The word of four fields, `w = opc*256 + inst*64 + rd*8 + rs` (30_encoding.md R93). -/
def wordOf (f : Fields) : Word := f.opc ++ f.inst ++ f.rd ++ f.rs

/-! ## Opcodes -/

/-- The `opc` value of an op (30_encoding.md R93). -/
def opcOf : Opcode → BitVec 8
  | .nop => 0x00
  | .mov => 0x01
  | .acc => 0x02
  | .clamp => 0x03
  | .xov => 0x10
  | .trig => 0x20
  | .drum => 0x21
  | .tgt => 0x30
  | .saw => 0x31
  | .arm => 0x40
  | .hat => 0x41
  | .dly => 0x50
  | .seq => 0x60
  | .ends => 0x61
  | .noise => 0x70
  | .rpush => 0x71
  | .img => 0x72
  | .enc => 0x73

/-- All opcodes, in the order of 30_encoding.md R93. -/
def allOpcodes : List Opcode :=
  [.nop, .mov, .acc, .clamp, .xov, .trig, .drum, .tgt, .saw, .arm, .hat, .dly, .seq, .ends,
   .noise, .rpush, .img, .enc]

/-- The op an `opc` value names, if any. -/
def opcodeOf (b : BitVec 8) : Option Opcode := allOpcodes.find? fun o => opcOf o == b

/-! ## Operand fields -/

/-- A register number, the unsigned value of its field (30_encoding.md R92). -/
def regOf (b : BitVec 3) : Reg := ⟨b.toNat, b.isLt⟩

/-- The field of a register. -/
def regBits (r : Reg) : BitVec 3 := BitVec.ofNat 3 r.val

/-- The voice an instance field selects (30_encoding.md R95). -/
def voiceOf (b : BitVec 2) : Voice := if b = 0 then .bass else .melody

/-- The instance field of a voice (30_encoding.md R95). -/
def voiceBits : Voice → BitVec 2
  | .bass => 0
  | .melody => 1

/-- The channel an instance field selects (30_encoding.md R95). -/
def channelOf (b : BitVec 2) : Channel := if b = 0 then .left else .right

/-- The instance field of a channel (30_encoding.md R95). -/
def channelBits : Channel → BitVec 2
  | .left => 0
  | .right => 1

/-! ## Decoding -/

/-- The instruction of an op with fields that suit it. -/
def build (o : Opcode) (f : Fields) : Instr :=
  match o with
  | .nop => .nop
  | .mov => .mov (regOf f.rd) (regOf f.rs)
  | .acc => .acc (regOf f.rd) (regOf f.rs)
  | .clamp => .clamp (regOf f.rd) (regOf f.rs)
  | .xov => .xov (channelOf f.inst) (regOf f.rd) (regOf f.rs)
  | .trig => .trig
  | .drum => .drum (regOf f.rd) (regOf f.rs)
  | .tgt => .tgt (voiceOf f.inst) (regOf f.rd) (regOf f.rs)
  | .saw => .saw (voiceOf f.inst) (regOf f.rd)
  | .arm => .arm
  | .hat => .hat (regOf f.rd)
  | .dly => .dly (regOf f.rd) (regOf f.rs)
  | .seq => .seq
  | .ends => .ends
  | .noise => .noise (regOf f.rd)
  | .rpush => .rpush (regOf f.rs)
  | .img => .img (channelOf f.inst) (regOf f.rd)
  | .enc => .enc (regOf f.rs)

/-- Decoding of fields: the opcode, then the checks on the operand fields (30_encoding.md R96). -/
def decodeFields (f : Fields) : Except Reject Instr :=
  match opcodeOf f.opc with
  | none => .error .unknownOpcode
  | some o =>
    match f.check o.shape with
    | some r => .error r
    | none => .ok (build o f)

/-- Decoding of a word, total, rejecting by name (30_encoding.md R96). -/
def decode (w : Word) : Except Reject Instr := decodeFields (fieldsOf w)

/-- Is the word one of the 18 ops (30_encoding.md R96)? -/
def legal (w : Word) : Bool := (decode w).isOk

/-- The word of two stored bytes, the low byte first (20_memory.md R68). -/
def wordOfBytes (lo hi : Byte) : Word := hi ++ lo

/-- Decoding of stored bytes: the instruction and the bytes after it; fewer than two bytes hold no op
(20_memory.md R68, 30_encoding.md R90). -/
def decodeBytes : List Byte → Option (Except Reject Instr × List Byte)
  | lo :: hi :: rest => some (decode (wordOfBytes lo hi), rest)
  | _ => none

/-- The host's question: the instruction of `nbits` bits `w`, the bits above them zero, laid out as
bytes low byte first and given to the byte decoder (log entry 19). -/
def decodeTableWord (nbits w : Nat) : Option Instr :=
  let v := w % 2 ^ nbits
  match decodeBytes [BitVec.ofNat 8 v, BitVec.ofNat 8 (v / 256)] with
  | some (.ok i, _) => some i
  | _ => none

/-! ## Encoding -/

/-- The opcode of an instruction. -/
def Instr.opcode : Instr → Opcode
  | .nop => .nop
  | .mov _ _ => .mov
  | .acc _ _ => .acc
  | .clamp _ _ => .clamp
  | .xov _ _ _ => .xov
  | .trig => .trig
  | .drum _ _ => .drum
  | .tgt _ _ _ => .tgt
  | .saw _ _ => .saw
  | .arm => .arm
  | .hat _ => .hat
  | .dly _ _ => .dly
  | .seq => .seq
  | .ends => .ends
  | .noise _ => .noise
  | .rpush _ => .rpush
  | .img _ _ => .img
  | .enc _ => .enc

/-- The fields of an instruction: an unused field is zero (30_encoding.md R91, R92). -/
def Instr.fields (i : Instr) : Fields :=
  let b := opcOf i.opcode
  match i with
  | .nop | .trig | .arm | .seq | .ends => ⟨b, 0, 0, 0⟩
  | .mov rd rs | .acc rd rs | .clamp rd rs | .drum rd rs | .dly rd rs =>
    ⟨b, 0, regBits rd, regBits rs⟩
  | .xov c rd rs => ⟨b, channelBits c, regBits rd, regBits rs⟩
  | .tgt v rd rs => ⟨b, voiceBits v, regBits rd, regBits rs⟩
  | .saw v rd => ⟨b, voiceBits v, regBits rd, 0⟩
  | .img c rd => ⟨b, channelBits c, regBits rd, 0⟩
  | .hat rd | .noise rd => ⟨b, 0, regBits rd, 0⟩
  | .rpush rs | .enc rs => ⟨b, 0, 0, regBits rs⟩

/-- The word of an instruction (30_encoding.md R93). -/
def encode (i : Instr) : Word := wordOf i.fields

/-! ## The opcode map, as the spec writes it -/

/-- One row of 30_encoding.md R93: its `match` and its `mask`. -/
structure OpcodeRow where
  opcode : Opcode
  pattern : Word
  mask : Word
deriving DecidableEq, Repr

/-- The opcode map, transcribed from the columns `match` and `mask` of 30_encoding.md R93.  The decoder
does not use it; statements compare the two. -/
def opcodeMap : List OpcodeRow :=
  [⟨.nop, 0x0000, 0xFFFF⟩, ⟨.mov, 0x0100, 0xFFC0⟩, ⟨.acc, 0x0200, 0xFFC0⟩,
   ⟨.clamp, 0x0300, 0xFFC0⟩, ⟨.xov, 0x1000, 0xFF80⟩, ⟨.trig, 0x2000, 0xFFFF⟩,
   ⟨.drum, 0x2100, 0xFFC0⟩, ⟨.tgt, 0x3000, 0xFF80⟩, ⟨.saw, 0x3100, 0xFF87⟩,
   ⟨.arm, 0x4000, 0xFFFF⟩, ⟨.hat, 0x4100, 0xFFC7⟩, ⟨.dly, 0x5000, 0xFFC0⟩,
   ⟨.seq, 0x6000, 0xFFFF⟩, ⟨.ends, 0x6100, 0xFFFF⟩, ⟨.noise, 0x7000, 0xFFC7⟩,
   ⟨.rpush, 0x7100, 0xFFF8⟩, ⟨.img, 0x7200, 0xFF87⟩, ⟨.enc, 0x7300, 0xFFF8⟩]

/-- `w` is the op of the row exactly when `(w AND mask) = match` (30_encoding.md R93). -/
def OpcodeRow.covers (r : OpcodeRow) (w : Word) : Bool := w &&& r.mask == r.pattern

end Sys2Proof
end

