-- ==== Sys2Proof/Config.lean ====
section
/-! DEFINITION. What is fixed for a run: the free values (opaque, no proof can see them), the
configuration record `CFG` (00_scope.md R6), the random stream (R9), and the reference configuration REF
of the test vectors. -/

namespace Sys2Proof

/-! ## Free values -/

/-- Draw `k` of the random stream where nothing listed fixes it (00_scope.md R9; log entry 7). -/
opaque Config.rngFree : Nat → Nat

/-- A quotient by zero in the exact domain (log entry 6). -/
opaque Config.exactDivZero : RealTerm → Rat
/-- What a value that is not a number of the exact domain stands for in it (log entry 6). -/
opaque Config.exactOutside : NumVal → Rat
/-- `floor_nat` of a negative number of the exact domain (log entry 6). -/
opaque Config.exactFloorNegative : RealTerm → Nat
/-- `floor_nat` of a negative number of binary64 (log entry 6). -/
opaque Config.floorNegative : Rat → Nat
/-- `floor_nat` of a value that is not a finite number of binary64 (log entry 6). -/
opaque Config.floorNonFinite : NumVal → Nat
/-- `trunc_int` of a value that is not a finite number of binary64 (log entry 6). -/
opaque Config.truncNonFinite : NumVal → Int
/-- The functions of the domain `other k`, of which nothing is assumed (log entry 5). -/
opaque Config.otherOps (k : Nat) : NumOps

/-! ## The random stream -/

/-- The stream `RNG` as 95_test_vectors.md writes it, `[a, b, c, ..; d]`: the listed integers are the
first draws, `d` is every later one; with no `d` every later draw is a free value. -/
structure RngStream where
  listed : List Nat
  rest : Option Nat
deriving DecidableEq, Repr, Inhabited

/-! ## The configuration record -/

/-- One value for each band of a crossover: sub, mid, high (10_state.md R36). -/
structure Bands (α : Type) where
  sub : α
  mid : α
  high : α
deriving DecidableEq, Repr, Inhabited

/-- One window of the stereo image, `ST_OFF[c]` and `ST_LEN[c]`. -/
structure Window where
  off : Nat
  len : Nat
deriving DecidableEq, Repr, Inhabited

/-- The parameters of one chorus-saw voice. -/
structure SawCfg where
  fund : NumVal
  lfoTicks : NumVal
  cutMid : NumVal
  cutDepth : NumVal
deriving DecidableEq, Repr, Inhabited

/-- The `HAT_*` parameters. -/
structure HatCfg where
  baseInc : NumVal
  semi : NumVal
  incDecay : NumVal
  incFloor : NumVal
  combFb : NumVal
  hpC : NumVal
  vol0 : NumVal
deriving DecidableEq, Repr, Inhabited

/-- The `DRUM_*` parameters. -/
structure DrumCfg where
  f0 : NumVal
  floor : NumVal
  len : Nat
  fmul : NumVal
  fm0 : NumVal
  fmNorm : NumVal
  fdecK : NumVal
deriving DecidableEq, Repr, Inhabited

/-- The `NOISE_*` parameters. -/
structure NoiseCfg where
  modulus : Nat
  amp : NumVal
  burstAmp : NumVal
  gateMod : Nat
deriving DecidableEq, Repr, Inhabited

/-- A pattern table: its period `P` and its entries (46_sequencer.md R243). -/
structure Pattern (α : Type) where
  period : Nat
  table : List α
deriving DecidableEq, Repr, Inhabited

/-- `some(tune, vol)` of a bass or melody pattern entry. -/
structure Target where
  tune : NumVal
  vol : NumVal
deriving DecidableEq, Repr, Inhabited

/-- The configuration record `CFG`: every parameter of 00_scope.md R6 (log entry 1). -/
structure Cfg where
  num : NumDomain
  nSamples : Nat
  srA : NumVal
  srB : NumVal
  tickInterval : NumVal
  dlLen : Nat
  ringLen : Nat
  stL : Window
  stR : Window
  bpDecay : NumVal
  xoCl : Bands NumVal
  xoCh : Bands NumVal
  sawBass : SawCfg
  sawMel : SawCfg
  hat : HatCfg
  drum : DrumCfg
  noise : NoiseCfg
  patDrum : Pattern Bool
  patHat : Pattern Bool
  patBass : Pattern (Option Target)
  patMel : Pattern (Option Target)
  program : List Word
deriving DecidableEq, Repr, Inhabited

/-! ## The reference configuration -/

/-- The render schedule, 21 ops (47_mixer_output.md R275): the default content of the program store. -/
def Config.renderSchedule : List Word :=
  [0x6000, 0x7000, 0x4108, 0x0201, 0x3148, 0x0201, 0x3108, 0x0201, 0x5008, 0x0201, 0x2100,
   0x7100, 0x7210, 0x7258, 0x1012, 0x105B, 0x0312, 0x031B, 0x7302, 0x7303, 0x6100]

/-- A table of `n` entries that are all `d` but at the listed indices. -/
def Config.table {α : Type} (d : α) (n : Nat) (at' : List (Nat × α)) : List α :=
  at'.foldl (fun t p => t.set p.1 p.2) (List.replicate n d)

/-- REF (95_test_vectors.md section 1), its numbers written by `c`: `NumVal.fin` in the exact domain,
the domain's `of_dec` in another. -/
def Config.refWith (d : NumDomain) (c : Rat → NumVal) : Cfg where
  num := d
  nSamples := 10
  srA := c 100
  srB := c 100
  tickInterval := c (5/2)
  dlLen := 4
  ringLen := 8
  stL := ⟨1, 2⟩
  stR := ⟨2, 3⟩
  bpDecay := c (99/100)
  xoCl := ⟨c (5/100), c (3/10), c (9/10)⟩
  xoCh := ⟨c (5/1000), c (5/100), c (3/10)⟩
  sawBass := ⟨c (1/100), c 64, c (2/10), c (1/10)⟩
  sawMel := ⟨c (4/100), c 32, c (3/10), c (2/10)⟩
  hat := ⟨c 1, c (943874/1000000), c (999/1000), c (1/10), c (1/2), c (1/10), c (1/2)⟩
  drum := ⟨c (1/2), c (5/100), 8, c (99/100), c 4, c 64, c (1/10)⟩
  noise := ⟨1000, c (1/1000), c (1/10), 1000⟩
  patDrum := ⟨8, Config.table false 8 [(0, true), (4, true)]⟩
  patHat := ⟨8, Config.table false 8 [(2, true), (6, true)]⟩
  patBass := ⟨32, Config.table none 32 [(0, some ⟨c 1, c (1/2)⟩), (16, some ⟨c (3/2), c (1/2)⟩)]⟩
  patMel := ⟨256, Config.table none 256 [(0, some ⟨c 1, c (3/10)⟩), (8, some ⟨c (5/4), c (3/10)⟩)]⟩
  program := Config.renderSchedule

/-- REF over the exact domain, as 00_scope.md R6 gives it (log entry 11). -/
def Config.ref : Cfg := Config.refWith .exact NumVal.fin

end Sys2Proof
end

