-- ==== Sys2Proof/Machine/RealNum.lean ====
section
/-! DEFINITION. The real numbers of the exact domain (00_scope.md R7): what a term stands for, its rational
approximations, and the order, the floor and the reciprocal of reals decided through them (log entry 3). -/

namespace Sys2Proof

/-! ## Rational approximations -/

/-- All the numbers at most `rad` away from `mid`. -/
structure Ball where
  mid : Rat
  rad : Rat
deriving DecidableEq, Repr, Inhabited

/-- A ball around `b` whose numbers are multiples of `2^-n`. -/
def roundBall (n : Nat) (b : Ball) : Ball :=
  ⟨(b.mid * 2 ^ n).floor / 2 ^ n, ((b.rad * 2 ^ n).floor + 2) / 2 ^ n⟩

def addBall (a b : Ball) : Ball := ⟨a.mid + b.mid, a.rad + b.rad⟩

def mulBall (a b : Ball) : Ball :=
  ⟨a.mid * b.mid, |a.mid| * b.rad + |b.mid| * a.rad + a.rad * b.rad⟩

/-- Zero is not in the ball. -/
def apartBall (b : Ball) : Bool := decide (b.rad < |b.mid|)

/-- The reciprocals of a ball that zero is not in. -/
def invBall (b : Ball) : Ball := ⟨b.mid⁻¹, b.rad / (|b.mid| * (|b.mid| - b.rad))⟩

/-- The first `n` terms of the series of `arctan (1 / d)`. -/
def arctanSum (d : Nat) : Nat → Rat
  | 0 => 0
  | k + 1 => arctanSum d k + (-1) ^ k / ((2 * k + 1 : Nat) * (d : Rat) ^ (2 * k + 1))

/-- `pi = 16 arctan (1/5) - 4 arctan (1/239)`. -/
def piBall (n : Nat) : Ball :=
  let k := 2 * (n / 8 + 2)
  ⟨16 * arctanSum 5 k - 4 * arctanSum 239 k, 16 / 5 ^ (2 * k + 1) + 4 / 239 ^ (2 * k + 1)⟩

/-- The `k`-th term of the exponential series at a number of magnitude `x`. -/
def expTerm (x : Rat) (k : Nat) : Rat := x ^ k / (Nat.factorial k : Rat)

/-- The first `k` terms of the series of the sine. -/
def sinSum (x : Rat) : Nat → Rat
  | 0 => 0
  | k + 1 => sinSum x k + (-1) ^ k * expTerm x (2 * k + 1)

/-- The first `k` terms of the series of the cosine. -/
def cosSum (x : Rat) : Nat → Rat
  | 0 => 0
  | k + 1 => cosSum x k + (-1) ^ k * expTerm x (2 * k)

/-- The ball moved by the number of full turns nearest to its middle, rounded. -/
def turnBall (n : Nat) (b : Ball) : Ball :=
  let k := (b.mid * (7/44) + 1/2).floor
  roundBall n (addBall b (mulBall ⟨-2 * k, 0⟩ (piBall n)))

/-- A series summed to `2 * k` terms of the exponential one, at the middle of a ball. -/
def seriesBall (sum : Rat → Nat → Rat) (k : Nat) (b : Ball) : Ball :=
  if 2 * |b.mid| ≤ 2 * k + 1 then ⟨sum b.mid k, b.rad + 2 * expTerm |b.mid| (2 * k)⟩ else ⟨0, 1⟩

def sinBall (n : Nat) (b : Ball) : Ball := roundBall n (seriesBall sinSum (n / 4 + 8) (turnBall n b))

def cosBall (n : Nat) (b : Ball) : Ball := roundBall n (seriesBall cosSum (n / 4 + 8) (turnBall n b))

/-- The approximation of a term at level `n`; its radius goes to 0. -/
def RealTerm.ball : RealTerm → Nat → Ball
  | .rat q, _ => ⟨q, 0⟩
  | .pi, n => piBall n
  | .add a b, n => roundBall n (addBall (a.ball n) (b.ball n))
  | .neg a, n => let b := a.ball n; ⟨-b.mid, b.rad⟩
  | .abs a, n => let b := a.ball n; ⟨|b.mid|, b.rad⟩
  | .mul a b, n => roundBall n (mulBall (a.ball n) (b.ball n))
  | .inv k a, n =>
    if apartBall (a.ball k) then
      roundBall n (invBall (if apartBall (a.ball n) then a.ball n else a.ball k))
    else ⟨Config.exactOutside (.real (.inv k a)), 0⟩
  | .sin a, n => sinBall n (a.ball n)
  | .cos a, n => cosBall n (a.ball n)

/-- The real number a term stands for. -/
noncomputable def RealTerm.toReal : RealTerm → ℝ
  | .rat q => q
  | .pi => Real.pi
  | .add a b => a.toReal + b.toReal
  | .neg a => -a.toReal
  | .abs a => |a.toReal|
  | .mul a b => a.toReal * b.toReal
  | .inv k a =>
    if apartBall (a.ball k) then a.toReal⁻¹ else (Config.exactOutside (.real (.inv k a)) : Rat)
  | .sin a => Real.sin a.toReal
  | .cos a => Real.cos a.toReal

/-! ## Decisions about real numbers -/

/-- The first level from `n` on, in steps of 64, at which `p` holds.  Where there is none the value is
`none`, as logic has it; a program would search for ever. -/
def levelFrom (p : Nat → Bool) (n : Nat) : Option Nat := if p n then some n else levelFrom p (n + 64)
partial_fixpoint

/-- The first level at which `p` holds; the usual one is tried first. -/
def firstLevel (p : Nat → Bool) : Option Nat := if p 64 then some 64 else levelFrom p 128

/-- The approximations of level `n` show `a < b`. -/
def apartLt (a b : RealTerm) (n : Nat) : Bool :=
  decide ((a.ball n).mid + (a.ball n).rad < (b.ball n).mid - (b.ball n).rad)

/-- `a < b` for real numbers: shown at the first level that tells them apart; equal numbers are told apart
at none. -/
def realLt : RealTerm → RealTerm → Bool
  | .rat p, .rat q => decide (p < q)
  | a, b =>
    match firstLevel fun n => apartLt a b n || apartLt b a n with
    | some n => apartLt a b n
    | none => false

/-- The floor of a real number: the greatest integer of a narrow approximation, or the one before. -/
def realFloor : RealTerm → Int
  | .rat q => q.floor
  | a =>
    match firstLevel fun n => decide ((a.ball n).rad < 1/4) with
    | some n =>
      let k := ((a.ball n).mid + (a.ball n).rad).floor
      if realLt a (.rat k) then k - 1 else k
    | none => 0

/-- The reciprocal of a real number, if it is not zero. -/
def realInv : RealTerm → Option RealTerm
  | .rat q => if q = 0 then none else some (.rat q⁻¹)
  | a => (firstLevel fun n => apartBall (a.ball n)).map fun n => .inv n a

/-! ## Arithmetic: rational numbers are computed, the rest is written down -/

def realAdd : RealTerm → RealTerm → RealTerm
  | .rat p, .rat q => .rat (p + q)
  | .rat p, b => if p = 0 then b else .add (.rat p) b
  | a, .rat q => if q = 0 then a else .add a (.rat q)
  | a, b => .add a b

def realMul : RealTerm → RealTerm → RealTerm
  | .rat p, .rat q => .rat (p * q)
  | .rat p, b => if p = 0 then .rat 0 else .mul (.rat p) b
  | a, .rat q => if q = 0 then .rat 0 else .mul a (.rat q)
  | a, b => .mul a b

def realNeg : RealTerm → RealTerm
  | .rat q => .rat (-q)
  | a => .neg a

def realAbs : RealTerm → RealTerm
  | .rat q => .rat |q|
  | a => .abs a

def realSin : RealTerm → RealTerm
  | .rat q => if q = 0 then .rat 0 else .sin (.rat q)
  | a => .sin a

def realCos : RealTerm → RealTerm
  | .rat q => if q = 0 then .rat 1 else .cos (.rat q)
  | a => .cos a

end Sys2Proof
end

