-- ==== Sys2Proof/Machine/Num.lean ====
section
/-! DEFINITION. The functions of the numeric domain `NUM` for each kind of domain a configuration may
choose (00_scope.md R7): the real numbers, IEEE binary64, and any other. -/

namespace Sys2Proof.Machine

/-! ## The exact domain: the real numbers (log entry 3) -/

/-- The real number, as a term, that a value is; one that is not a number stands for a free value
(log entry 6). -/
def termOf : NumVal → RealTerm
  | .fin q => .rat q
  | .real t => t
  | x => .rat (Config.exactOutside x)

/-- A term as a value; a rational number is written as one. -/
def valOf : RealTerm → NumVal
  | .rat q => .fin q
  | t => .real t

/-- The real number a value of the exact domain stands for. -/
noncomputable def toReal (v : NumVal) : ℝ := (termOf v).toReal

/-- Round toward zero. -/
def truncRat (q : Rat) : Int := q.num.tdiv q.den

/-- `floor_nat` of a rational: the floor of a value `>= 0`; of a negative one a free value (log entry 6). -/
def floorRat (q : Rat) : Nat := if 0 ≤ q then q.floor.toNat else Config.floorNegative q

/-- Round a real number toward zero. -/
def realTrunc (t : RealTerm) : Int :=
  if realLt t (.rat 0) then -realFloor (realNeg t) else realFloor t

/-- `floor_nat` of a real number: the floor of one `>= 0`; of a negative one a free value (log entry 6). -/
def realFloorNat (t : RealTerm) : Nat :=
  if realLt t (.rat 0) then Config.exactFloorNegative t else (realFloor t).toNat

/-- `a / b` for real numbers; by zero a free value (log entry 6). -/
def realDiv (a b : RealTerm) : RealTerm :=
  match realInv b with
  | some i => realMul a i
  | none => .rat (Config.exactDivZero a)

/-- The functions of the real numbers (00_scope.md R7, log entry 3). -/
def exactOps : NumOps where
  add a b := valOf (realAdd (termOf a) (termOf b))
  sub a b := valOf (realAdd (termOf a) (realNeg (termOf b)))
  mul a b := valOf (realMul (termOf a) (termOf b))
  div a b := valOf (realDiv (termOf a) (termOf b))
  neg a := valOf (realNeg (termOf a))
  abs a := valOf (realAbs (termOf a))
  sin a := valOf (realSin (termOf a))
  cos a := valOf (realCos (termOf a))
  lt a b := realLt (termOf a) (termOf b)
  le a b := !realLt (termOf b) (termOf a)
  eq a b := !realLt (termOf a) (termOf b) && !realLt (termOf b) (termOf a)
  ofNat n := .fin n
  ofDec q := .fin q
  floorNat a := realFloorNat (termOf a)
  truncInt a := realTrunc (termOf a)
  pi := .real .pi

/-! ## IEEE 754 binary64 (log entry 4) -/

/-- `2 ^ e` for an integer `e`. -/
def pow2 (e : Int) : Rat := if 0 ≤ e then (2 ^ e.toNat : Nat) else 1 / ((2 ^ (-e).toNat : Nat) : Rat)

/-- The natural number nearest to `q >= 0`, a tie going to the even one. -/
def roundEven (q : Rat) : Nat :=
  let n := q.floor.toNat
  let r := q - n
  if r < 1/2 then n else if 1/2 < r then n + 1 else if n % 2 = 0 then n else n + 1

/-- The exponent of the last place of a binary64 number of magnitude `q > 0`: 53 bits of precision,
never below `-1074`. -/
def ulpExponent (q : Rat) : Int :=
  let e : Int := (Nat.log2 q.num.natAbs : Int) - (Nat.log2 q.den : Int) - 52
  let e := if q < pow2 (e + 52) then e - 1 else e
  if e < -1074 then -1074 else e

/-- Round to nearest even into binary64, an overflow giving an infinity. -/
def round64 (q : Rat) : NumVal :=
  if q = 0 then .fin 0
  else
    let a := if q < 0 then -q else q
    let e := ulpExponent a
    let r := (roundEven (a / pow2 e) : Rat) * pow2 e
    if pow2 1024 ≤ r then .inf (decide (q < 0)) else .fin (if q < 0 then -r else r)

/-- `pi` times `2 ^ 1280`, to the nearest integer, by groups of 95 decimal digits: enough places to reduce
every argument of binary64. -/
def piScaled : Nat :=
  [65394966643636739982454006658084879917285523435267660358666221791612798833451100782669133881566,
   36405722885191429701652045441215460758503786401104386436339250528007063689846092016551806180917,
   45183636242550313995760322182316470034689348033228382164508218080899982936994067082689607066435,
   53590652488301825712669650823925862109289197957902356954429799206721770349377815778137150994907].foldl (fun n d => n * 10 ^ 95 + d) 0 * 10 ^ 6 +
    814326

/-- `pi` to 1280 binary places, for the reduction of an argument. -/
def piRat : Rat := piScaled / (2 ^ 1280 : Nat)

/-- The fixed-point scale of the series below. -/
def seriesScale : Nat := 2 ^ 160

/-- The tail of the series of `sin` (`k = 1`) or `cos` (`k = 0`) from its `j`-th factor on:
`1 - x2 / ((2j-1+k)(2j+k)) * (the next tail)`, in fixed point. -/
def seriesTail (k x2 : Nat) : Nat → Nat → Nat
  | 0, _ => seriesScale
  | n + 1, j =>
    seriesScale - x2 * seriesTail k x2 n (j + 1) / seriesScale / ((2 * j - 1 + k) * (2 * j + k))

/-- The square of a rational, in fixed point. -/
def fixedSquare (r : Rat) : Nat := (r * r * seriesScale).floor.toNat

/-- `sin r` for `|r|` at most about 0.8. -/
def sinSmall (r : Rat) : Rat := r * (seriesTail 1 (fixedSquare r) 24 1 : Rat) / seriesScale

/-- `cos r` for `|r|` at most about 0.8. -/
def cosSmall (r : Rat) : Rat := (seriesTail 0 (fixedSquare r) 24 1 : Rat) / seriesScale

/-- The quarter turn nearest to `x` and what is left of `x` after it. -/
def reduceTurn (x : Rat) : Int × Rat :=
  let k := (x * 2 / piRat + 1/2).floor
  (k, x - k * piRat / 2)

/-- `sin x` to about 150 bits. -/
def sinRat (x : Rat) : Rat :=
  let (k, r) := reduceTurn x
  match (k % 4).toNat with
  | 0 => sinSmall r
  | 1 => cosSmall r
  | 2 => -sinSmall r
  | _ => -cosSmall r

/-- `cos x` to about 150 bits. -/
def cosRat (x : Rat) : Rat :=
  let (k, r) := reduceTurn x
  match (k % 4).toNat with
  | 0 => cosSmall r
  | 1 => -sinSmall r
  | 2 => -cosSmall r
  | _ => sinSmall r

/-- Addition with the infinities. -/
def add64 : NumVal → NumVal → NumVal
  | .fin a, .fin b => round64 (a + b)
  | .inf s, .inf t => if s = t then .inf s else .nan
  | .inf s, .fin _ => .inf s
  | .fin _, .inf t => .inf t
  | _, _ => .nan

/-- Change of sign. -/
def neg64 : NumVal → NumVal
  | .fin a => .fin (-a)
  | .inf s => .inf (!s)
  | _ => .nan

/-- Multiplication with the infinities. -/
def mul64 : NumVal → NumVal → NumVal
  | .fin a, .fin b => round64 (a * b)
  | .inf s, .inf t => .inf (xor s t)
  | .inf s, .fin b => if b = 0 then .nan else .inf (xor s (decide (b < 0)))
  | .fin a, .inf t => if a = 0 then .nan else .inf (xor t (decide (a < 0)))
  | _, _ => .nan

/-- Division with the infinities; the one zero counts as positive (log entry 4). -/
def div64 : NumVal → NumVal → NumVal
  | .fin a, .fin b =>
    if b = 0 then (if a = 0 then .nan else .inf (decide (a < 0))) else round64 (a / b)
  | .inf s, .fin b => .inf (xor s (decide (b < 0)))
  | .fin _, .inf _ => .fin 0
  | _, _ => .nan

/-- Less-than with the infinities; nothing compares with a NaN. -/
def lt64 : NumVal → NumVal → Bool
  | .fin a, .fin b => decide (a < b)
  | .inf s, .inf t => s && !t
  | .inf s, .fin _ => s
  | .fin _, .inf t => !t
  | _, _ => false

/-- Equality; a NaN equals nothing. -/
def eq64 : NumVal → NumVal → Bool
  | .fin a, .fin b => decide (a = b)
  | .inf s, .inf t => s == t
  | _, _ => false

/-- IEEE 754 binary64 with round to nearest even (00_scope.md R7, log entry 4). -/
def binary64Ops : NumOps where
  add := add64
  sub a b := add64 a (neg64 b)
  mul := mul64
  div := div64
  neg := neg64
  abs
    | .fin a => .fin (if a < 0 then -a else a)
    | .inf _ => .inf false
    | _ => .nan
  sin
    | .fin a => round64 (sinRat a)
    | _ => .nan
  cos
    | .fin a => round64 (cosRat a)
    | _ => .nan
  lt := lt64
  le a b := lt64 a b || eq64 a b
  eq := eq64
  ofNat n := round64 n
  ofDec q := round64 q
  floorNat
    | .fin a => floorRat a
    | x => Config.floorNonFinite x
  truncInt
    | .fin a => truncRat a
    | x => Config.truncNonFinite x
  pi := .fin (884279719003555 / 281474976710656)

/-- The functions of the domain a configuration chooses (00_scope.md R7). -/
def numOps : NumDomain → NumOps
  | .exact => exactOps
  | .binary64 => binary64Ops
  | .other k => Config.otherOps k

end Sys2Proof.Machine
end

