-- ==== Sys2Proof/Machine/State.lean ====
section
/-! DEFINITION. The state of the machine as plain data (10_state.md), the reasons a step does not exist,
and the state after reset (70_reset_and_hazards.md R321). -/

namespace Sys2Proof.Machine

/-! ## Run control -/

/-- The run state, register `RUN` (10_state.md R27). -/
inductive RunState where
  | idle
  | run
  | done
  | fault
deriving DecidableEq, Repr, Inhabited

/-- The faults of 60_exceptions.md R290. -/
inductive FaultCode where
  | cfgInvalid
  | resource
  | illegalOp
  | fetchEnd
  | numInvalid
  | encRange
deriving DecidableEq, Repr, Inhabited

/-- A value of the port `cmd` (00_scope.md R12). -/
inductive HostCmd where
  | none
  | reset
  | start
deriving DecidableEq, Repr, Inhabited

/-! ## Buffers -/

/-- A buffer of `NUM` elements: its elements by index, in one canonical form, indices strictly rising
and no element equal to what an unlisted index reads as, the reset value `of_nat(0)` (20_memory.md R60,
log entry 14). -/
abbrev Memory := List (Nat × NumVal)

/-- The canonical form of a buffer whose unlisted elements read as `z`. -/
abbrev Memory.wf (z : NumVal) (m : Memory) : Prop :=
  m.Pairwise (fun p q => p.1 < q.1) ∧ ∀ p ∈ m, p.2 ≠ z

/-! ## Unit state -/

/-- Drum voice (10_state.md R31). -/
structure Drum where
  on : Bool
  i : Nat
  phase : NumVal
  freq : NumVal
  vol : NumVal
  vdec : NumVal
  fdec : NumVal
  fm : NumVal
deriving DecidableEq, Repr, Inhabited

/-- Chorus-saw voice (10_state.md R32). -/
structure Saw where
  phase : Vector NumVal 5
  inc : Vector NumVal 5
  tinc : Vector NumVal 5
  vol : NumVal
  tvol : NumVal
  lo : NumVal
  xlo : NumVal
deriving DecidableEq, Repr, Inhabited

/-- Hi-hat voice (10_state.md R33). -/
structure Hat where
  phase : Vector NumVal 4
  inc : Vector NumVal 4
  comb : Memory
  cw : Nat
  hp : NumVal
  vol : NumVal
deriving DecidableEq, Repr, Inhabited

/-- Delay line (10_state.md R34). -/
structure Dly where
  buf : Memory
  dw : Nat
deriving DecidableEq, Repr, Inhabited

/-- Stereo ring (10_state.md R35). -/
structure StereoRing where
  buf : Memory
  rw : Nat
deriving DecidableEq, Repr, Inhabited

/-- One bandpass `bp[c][b]` (10_state.md R36). -/
structure Bandpass where
  lo : NumVal
  hi : NumVal
  max : NumVal
  mul : NumVal
deriving DecidableEq, Repr, Inhabited

/-! ## The state -/

/-- The whole state (10_state.md).  The last four fields are inputs of the machine, written by no op:
the configuration, the random stream, `sink_ready`, and the host commands still to come (log entries 1,
7, 8, 10). -/
structure State where
  /-- `s0` .. `s7` (R20) -/
  regs : Vector NumVal 8
  /-- `n`, the sample position (R22) -/
  n : Nat
  /-- `tick` (R23) -/
  tick : Nat
  /-- `tpos` (R23) -/
  tpos : NumVal
  /-- `next` (R23) -/
  nextTick : Nat
  /-- the flag `tk` (R25) -/
  tk : Bool
  /-- `pc`, the slot counter (R24) -/
  pc : Nat
  /-- the register `RUN` (R27) -/
  run : RunState
  /-- the register `FAULT` (R26, R28) -/
  fault : BitVec 8
  /-- the register `FINFO` (R26, R28) -/
  finfo : BitVec 16
  /-- `rng_idx` (R29) -/
  rngIdx : Nat
  /-- `OUT`, the bytes emitted so far (20_memory.md R66, log entry 15) -/
  out : List Byte
  /-- `out_cnt` (R30) -/
  outCnt : Nat
  /-- the drum voice (R31) -/
  drum : Drum
  /-- `saw[0]` (R32) -/
  sawBass : Saw
  /-- `saw[1]` (R32) -/
  sawMel : Saw
  /-- the hi-hat (R33) -/
  hat : Hat
  /-- the delay line (R34) -/
  dly : Dly
  /-- the stereo ring (R35) -/
  ring : StereoRing
  /-- `bp[0][0..2]` (R36) -/
  xovL : Bands Bandpass
  /-- `bp[1][0..2]` (R36) -/
  xovR : Bands Bandpass
  /-- the port `cfg` -/
  cfg : Cfg
  /-- the port `rng` -/
  rng : RngStream
  /-- the port `sink_ready` -/
  sinkReady : Bool
  /-- the values the port `cmd` takes at the steps to come; none is `NONE` for ever -/
  cmd : List HostCmd
deriving DecidableEq, Repr, Inhabited

/-! ## Why there is no step -/

/-- The machine has no step: nothing executes in this run state and no host command is still to come
(10_state.md R27, 60_exceptions.md R307).  These are not the faults of 60_exceptions.md R290, which are
next states with `RUN = FAULT`. -/
inductive Fault where
  /-- `RUN = IDLE` and no START will come.  Raised by `step`.  Safe: nothing could happen. -/
  | idle
  /-- `RUN = DONE`, the final state of a run.  Raised by `step`.  Safe: nothing executes there. -/
  | done
  /-- `RUN = FAULT`; only RESET leaves it.  Raised by `step`.  Safe: nothing executes there. -/
  | faulted
deriving DecidableEq, Repr, Inhabited

/-- Why an instruction has no meaning. -/
inductive Refusal where
  /-- The instruction is not modelled.  Raised by nobody: every op has its meaning.  Safe. -/
  | notModelled (mnemonic : String)
deriving DecidableEq, Repr

/-! ## Reset -/

/-- The drum after reset (10_state.md R31), `z` being `of_nat(0)`. -/
def Drum.reset (z : NumVal) : Drum := ⟨false, 0, z, z, z, z, z, z⟩

/-- A chorus-saw voice after reset (10_state.md R32). -/
def Saw.reset (z : NumVal) : Saw :=
  ⟨Vector.replicate 5 z, Vector.replicate 5 z, Vector.replicate 5 z, z, z, z, z⟩

/-- The hi-hat after reset (10_state.md R33); every comb element reads as `z`. -/
def Hat.reset (z : NumVal) : Hat := ⟨Vector.replicate 4 z, Vector.replicate 4 z, [], 0, z, z⟩

/-- A bandpass after reset (10_state.md R36): `max` is `of_dec(0.3)`. -/
def Bandpass.reset (z floor : NumVal) : Bandpass := ⟨z, z, floor, z⟩

/-- The three bandpasses of one channel after reset (10_state.md R36). -/
def crossoverReset (z floor : NumVal) : Bands Bandpass :=
  ⟨Bandpass.reset z floor, Bandpass.reset z floor, Bandpass.reset z floor⟩

/-- The state after reset under given inputs (70_reset_and_hazards.md R320, R321): every state element
at its reset value, the inputs as they are. -/
def resetUnder (c : Cfg) (rng : RngStream) (sinkReady : Bool) (cmd : List HostCmd) : State :=
  let z := (numOps c.num).ofNat 0
  let floor := (numOps c.num).ofDec (3/10)
  { regs := Vector.replicate 8 z
    n := 0
    tick := 0
    tpos := z
    nextTick := 0
    tk := false
    pc := 0
    run := .idle
    fault := 0
    finfo := 0
    rngIdx := 0
    out := []
    outCnt := 0
    drum := Drum.reset z
    sawBass := Saw.reset z
    sawMel := Saw.reset z
    hat := Hat.reset z
    dly := ⟨[], 0⟩
    ring := ⟨[], 0⟩
    xovL := crossoverReset z floor
    xovR := crossoverReset z floor
    cfg := c
    rng := rng
    sinkReady := sinkReady
    cmd := cmd }

/-- The machine right after reset (70_reset_and_hazards.md R321), its inputs being REF, a stream of free
values, a ready sink, and no host command to come (log entries 8 and 11). -/
def State.reset : State := resetUnder Config.ref ⟨[], none⟩ true []

end Sys2Proof.Machine
end

