-- ==== Sys2Proof/Machine/Ops.lean ====
section
/-! DEFINITION. The shared operations over registers, buffers, the random stream and the output, and the
one operation that raises a fault (60_exceptions.md R291).  There is no return from a fault: only RESET
leaves `RUN = FAULT` (`Sys2Proof.Machine.State.reset` and `Sys2Proof.Machine.hostReset`). -/

namespace Sys2Proof.Machine

/-- What one step answers. -/
abbrev Result := Host.Outcome State Fault Refusal

/-! ## The numeric domain of a state -/

/-- The functions of the numeric domain the configuration chooses (00_scope.md R7). -/
def State.num (s : State) : NumOps := numOps s.cfg.num

/-- `of_nat(0)`, what an unlisted buffer element reads as (20_memory.md R60). -/
def State.zero (s : State) : NumVal := s.num.ofNat 0

/-! ## Signal registers -/

/-- Read `s[r]`; no register is hardwired (10_state.md R20). -/
def State.reg (s : State) (r : Reg) : NumVal := s.regs[r]

/-- Write `s[r]`. -/
def State.setReg (s : State) (r : Reg) (v : NumVal) : State := { s with regs := s.regs.set r v }

/-- `pc <- pc + 1` (10_state.md R24). -/
def State.advance (s : State) : State := { s with pc := s.pc + 1 }

/-! ## Units with two instances -/

/-- `saw[v]` (10_state.md R32). -/
def State.saw (s : State) : Voice → Saw
  | .bass => s.sawBass
  | .melody => s.sawMel

/-- Replace `saw[v]`. -/
def State.setSaw (s : State) (v : Voice) (x : Saw) : State :=
  match v with
  | .bass => { s with sawBass := x }
  | .melody => { s with sawMel := x }

/-- `bp[c][0..2]` (10_state.md R36). -/
def State.xov (s : State) : Channel → Bands Bandpass
  | .left => s.xovL
  | .right => s.xovR

/-- Replace `bp[c][0..2]`. -/
def State.setXov (s : State) (c : Channel) (x : Bands Bandpass) : State :=
  match c with
  | .left => { s with xovL := x }
  | .right => { s with xovR := x }

/-- The parameters of voice `v` (00_scope.md R6). -/
def sawCfg (c : Cfg) : Voice → SawCfg
  | .bass => c.sawBass
  | .melody => c.sawMel

/-- The window of channel `c` (00_scope.md R6). -/
def windowCfg (c : Cfg) : Channel → Window
  | .left => c.stL
  | .right => c.stR

/-! ## Buffers -/

/-- `MemRead(space, a)` (20_memory.md R60); an unlisted element reads as `z`. -/
def memRead (z : NumVal) : Memory → Nat → NumVal
  | [], _ => z
  | (b, v) :: m, a => if a = b then v else memRead z m a

/-- `MemWrite(space, a, v)` (20_memory.md R60), keeping the canonical form. -/
def memWrite (z : NumVal) : Memory → Nat → NumVal → Memory
  | [], a, v => if v = z then [] else [(a, v)]
  | (b, w) :: m, a, v =>
    if a < b then (if v = z then (b, w) :: m else (a, v) :: (b, w) :: m)
    else if a = b then (if v = z then m else (a, v) :: m)
    else (b, w) :: memWrite z m a v

/-- The next value of a ring index: `(w + 1) mod L` (20_memory.md R62 to R64). -/
def nextIndex (w len : Nat) : Nat := (w + 1) % len

/-- The ring's history function `h(j)` (20_memory.md R64). -/
def ringHist (z : NumVal) (len : Nat) (r : StereoRing) (j : Nat) : NumVal :=
  memRead z r.buf ((r.rw + len - 1 - j) % len)

/-! ## The random stream -/

/-- `RNG(k)` (00_scope.md R9; log entry 7). -/
def rngAt (r : RngStream) (k : Nat) : Nat :=
  match r.listed[k]? with
  | some v => v
  | none =>
    match r.rest with
    | some v => v
    | none => Config.rngFree k

/-! ## The output -/

/-- `emit(b)` (20_memory.md R66). -/
def State.emit (s : State) (b : Byte) : State :=
  { s with out := s.out ++ [b], outCnt := s.outCnt + 1 }

/-! ## Faults -/

/-- The code of a fault, the value of the register `FAULT` (60_exceptions.md R290). -/
def FaultCode.code : FaultCode → BitVec 8
  | .cfgInvalid => 1
  | .resource => 2
  | .illegalOp => 3
  | .fetchEnd => 4
  | .numInvalid => 5
  | .encRange => 6

/-- `raise F(info)` on the state before the op (60_exceptions.md R291): nothing the op would have written
is written, `pc` keeps its index, and `FAULT`, `FINFO` and `RUN` are written. -/
def State.raise (s : State) (f : FaultCode) (info : Nat) : State :=
  { s with fault := f.code, finfo := BitVec.ofNat 16 info, run := .fault }

/-- The end of every op that writes `NUM` values: if one of the values it writes is not a finite number
the op raises `NumInvalid` with its own word and writes nothing; otherwise its effects stand
(60_exceptions.md R301, 40_primitives.md R135; log entries 12 and 25). -/
def State.commit (s : State) (i : Instr) (written : List NumVal) (t : State) : State :=
  if written.all NumVal.isFinite then t else s.raise .numInvalid (encode i).toNat

end Sys2Proof.Machine
end

