-- ==== Sys2Proof/Machine/Operands.lean ====
section
/-! DEFINITION. The operand forms and the literals of the pseudocode.  An operand is a signal register, read
by `State.reg` and written by `State.setReg`, or an instance (30_encoding.md R92, R95); there are no
immediates, so every constant is a configuration parameter or a literal (00_scope.md section 5). -/

namespace Sys2Proof.Machine

/-- `a > b` on `NUM` (00_scope.md section 5). -/
def gt (o : NumOps) (a b : NumVal) : Bool := o.lt b a

/-- `of_nat(-1)`, which stands for `neg(of_nat(1))` (40_primitives.md R133). -/
def natMinusOne (o : NumOps) : NumVal := o.neg (o.ofNat 1)

/-- The literal `-1`: the negation of the literal `1` (log entry 18). -/
def minusOne (o : NumOps) : NumVal := o.neg (o.ofDec 1)

/-- `TWO_PI = 2*PI` (00_scope.md R7). -/
def twoPi (o : NumOps) : NumVal := o.mul (o.ofDec 2) o.pi

/-- The end of an op with a `NUM` result: `s[rd] <- v` and `pc <- pc + 1`, under the rule of
non-finite values. -/
def State.finish (s : State) (i : Instr) (written : List NumVal) (t : State) (rd : Reg) (v : NumVal) : Result :=
  .next (s.commit i (v :: written) (t.setReg rd v).advance)

end Sys2Proof.Machine
end

