-- ==== Sys2Proof/Machine/Prim.lean ====
section
/-! DEFINITION. The primitive blocks as pure functions (40_primitives.md R121 to R128, 46_sequencer.md R241),
one domain function per operator in the order the spec writes them (00_scope.md R8). -/

namespace Sys2Proof.Machine

/-- `ema(c, t) = (c * 31 + t) / 32` (40_primitives.md R121). -/
def ema (o : NumOps) (c t : NumVal) : NumVal :=
  o.div (o.add (o.mul c (o.ofDec 31)) t) (o.ofDec 32)

/-- `lpf(y, x, k) = y + (x - y) * k` (40_primitives.md R123). -/
def lpf (o : NumOps) (y x k : NumVal) : NumVal := o.add y (o.mul (o.sub x y) k)

/-- `hpf(h, x, k) = (h', x - h')` with `h' = h + (x - h) * k` (40_primitives.md R124). -/
def hpf (o : NumOps) (h x k : NumVal) : NumVal × NumVal :=
  let h' := lpf o h x k
  (h', o.sub x h')

/-- `clamp(x, lo, hi)`, the two tests in this order (40_primitives.md R128). -/
def clamp (o : NumOps) (x lo hi : NumVal) : NumVal :=
  if o.lt x lo then lo else if gt o x hi then hi else x

/-- What one oscillator step returns. -/
structure OscOut where
  y : NumVal
  phase : NumVal
  wrapped : Bool
deriving DecidableEq, Repr, Inhabited

/-- `osc_step(phase, inc)` (40_primitives.md R126). -/
def oscStep (o : NumOps) (phase inc : NumVal) : OscOut :=
  let p := o.add phase inc
  let w := gt o p o.pi
  ⟨o.cos phase, if w then o.sub p o.pi else p, w⟩

/-- The sum of `osc_bank_step`: the outputs in ascending lane order, starting from zero
(40_primitives.md R127). -/
def oscBankSum (o : NumOps) {k : Nat} (phase inc : Vector NumVal k) : NumVal :=
  (List.finRange k).foldl (fun acc j => o.add acc (oscStep o phase[j] inc[j]).y) (o.ofNat 0)

/-- The phases after `osc_bank_step`; the lanes are independent (40_primitives.md R127). -/
def oscBankPhases (o : NumOps) {k : Nat} (phase inc : Vector NumVal k) : Vector NumVal k :=
  Vector.ofFn fun j : Fin k => (oscStep o phase[j] inc[j]).phase

/-- `round_half_up(x) = floor_nat(x + 0.5)` (46_sequencer.md R241). -/
def roundHalfUp (o : NumOps) (x : NumVal) : Nat := o.floorNat (o.add x (o.ofDec (1/2)))

end Sys2Proof.Machine
end

