-- ==== Sys2Proof/Machine/Crossover.lean ====
section
/-! DEFINITION. The adaptive-gain bandpass, the three-band crossover and XOV
(41_bandpass_crossover.md). -/

namespace Sys2Proof.Machine

/-- The peak tracker: jump up when the magnitude is strictly above the peak, else decay when the peak is
strictly above 0.3, else keep (41_bandpass_crossover.md R152). -/
def peakStep (o : NumOps) (decay a max : NumVal) : NumVal :=
  if gt o a max then a
  else if gt o max (o.ofDec (3/10)) then o.mul max decay
  else max

/-- `bp_step(st, x, cl, ch)`: the new state and the output (41_bandpass_crossover.md R155). -/
def bpStep (o : NumOps) (decay cl ch : NumVal) (st : Bandpass) (x : NumVal) : Bandpass × NumVal :=
  let lo := lpf o st.lo x cl
  let (hi, f) := hpf o st.hi lo ch
  let max := peakStep o decay (o.abs f) st.max
  let mul := ema o st.mul (o.div (o.ofDec (7/10)) max)
  (⟨lo, hi, max, mul⟩, o.mul f mul)

/-- `xover_step(c, x)` on the three bandpasses of one channel: sub, mid, high, all fed `x`, summed in
that order and clamped (41_bandpass_crossover.md R156). -/
def xoverStep (o : NumOps) (c : Cfg) (b : Bands Bandpass) (x : NumVal) : Bands Bandpass × NumVal :=
  let (sub, y0) := bpStep o c.bpDecay c.xoCl.sub c.xoCh.sub b.sub x
  let (mid, y1) := bpStep o c.bpDecay c.xoCl.mid c.xoCh.mid b.mid x
  let (high, y2) := bpStep o c.bpDecay c.xoCl.high c.xoCh.high b.high x
  (⟨sub, mid, high⟩, clamp o (o.add (o.add y0 y1) y2) (minusOne o) (o.ofDec 1))

/-- The `NUM` elements of a bandpass. -/
def Bandpass.nums (b : Bandpass) : List NumVal := [b.lo, b.hi, b.max, b.mul]

/-- The `NUM` elements of a channel's bandpasses. -/
def bandNums (b : Bands Bandpass) : List NumVal := b.sub.nums ++ b.mid.nums ++ b.high.nums

/-- XOV.c sD, sS (41_bandpass_crossover.md R157): it writes `s[rd]` and all twelve elements of
`bp[c][0..2]`. -/
def execXov (c : Channel) (rd rs : Reg) (s : State) : Result :=
  let (b, y) := xoverStep s.num s.cfg (s.xov c) (s.reg rs)
  s.finish (.xov c rd rs) (bandNums b) (s.setXov c b) rd y

end Sys2Proof.Machine
end

