-- ==== Sys2Proof/Machine/DataMove.lean ====
section
/-! DEFINITION. NOP, MOV, ACC, CLAMP (40_primitives.md R130 to R133). -/

namespace Sys2Proof.Machine

/-- NOP (40_primitives.md R130). -/
def execNop (s : State) : Result := .next s.advance

/-- MOV sD, sS (40_primitives.md R131). -/
def execMov (rd rs : Reg) (s : State) : Result :=
  s.finish (.mov rd rs) [] s rd (s.reg rs)

/-- ACC sD, sS (40_primitives.md R132). -/
def execAcc (rd rs : Reg) (s : State) : Result :=
  s.finish (.acc rd rs) [] s rd (s.num.add (s.reg rd) (s.reg rs))

/-- CLAMP sD, sS (40_primitives.md R133). -/
def execClamp (rd rs : Reg) (s : State) : Result :=
  s.finish (.clamp rd rs) [] s rd
    (clamp s.num (s.reg rs) (natMinusOne s.num) (s.num.ofNat 1))

end Sys2Proof.Machine
end

