-- ==== Sys2Proof/Machine/DelayLine.lean ====
section
/-! DEFINITION. The feedback delay line: DLY (45_delay_line.md). -/

namespace Sys2Proof.Machine

/-- `out_new = x * 0.4 + oldest * 0.7` (45_delay_line.md R231). -/
def dlyOut (o : NumOps) (d : Dly) (x : NumVal) : NumVal :=
  o.add (o.mul x (o.ofDec (4/10))) (o.mul (memRead (o.ofNat 0) d.buf d.dw) (o.ofDec (7/10)))

/-- The delay line after it took the new element `v` (20_memory.md R62). -/
def dlyPush (o : NumOps) (len : Nat) (d : Dly) (v : NumVal) : Dly :=
  ⟨memWrite (o.ofNat 0) d.buf d.dw v, nextIndex d.dw len⟩

/-- DLY sD, sS (45_delay_line.md R231). -/
def execDly (rd rs : Reg) (s : State) : Result :=
  let v := dlyOut s.num s.dly (s.reg rs)
  s.finish (.dly rd rs) [] { s with dly := dlyPush s.num s.cfg.dlLen s.dly v } rd v

end Sys2Proof.Machine
end

