-- ==== Sys2Proof/Machine/Flags.lean ====
section
/-! DEFINITION. The two flags of the machine, `tk` and `drum.on` (10_state.md R25): what decides each.
There are no arithmetic condition codes. -/

namespace Sys2Proof.Machine

/-- Does a tick fire: `n >= next` (46_sequencer.md R242)?  SEQ sets `tk` to this. -/
def tickDue (s : State) : Bool := decide (s.nextTick ≤ s.n)

/-- `drum.on` after an Active DRUM op has counted up to `i`: cleared at `DRUM_LEN`
(42_drum_voice.md R177). -/
def drumOnAfter (len i : Nat) (on : Bool) : Bool := if i = len then false else on

end Sys2Proof.Machine
end

