-- ==== Sys2Proof/Machine/DrumVoice.lean ====
section
/-! DEFINITION. The drum voice: TRIG and DRUM (42_drum_voice.md). -/

namespace Sys2Proof.Machine

/-- The drum after a trigger (42_drum_voice.md R171). -/
def drumTriggered (o : NumOps) (c : DrumCfg) : Drum where
  on := true
  i := 0
  phase := o.ofNat 0
  freq := c.f0
  vol := o.ofDec (8/10)
  vdec := o.div (o.ofDec (8/10)) (o.ofNat c.len)
  fdec := o.mul c.f0 c.fdecK
  fm := c.fm0

/-- The `NUM` elements of the drum. -/
def Drum.nums (d : Drum) : List NumVal := [d.phase, d.freq, d.vol, d.vdec, d.fdec, d.fm]

/-- `drum_trigger()`, which TRIG and SEQ call (42_drum_voice.md R171). -/
def drumTrigger (s : State) : State := { s with drum := drumTriggered s.num s.cfg.drum }

/-- The values a trigger writes. -/
def drumTriggerWrites (s : State) : List NumVal := (drumTriggered s.num s.cfg.drum).nums

/-- TRIG (42_drum_voice.md R171). -/
def execTrig (s : State) : Result :=
  .next (s.commit .trig (drumTriggerWrites s) (drumTrigger s).advance)

/-- `x * (1 - vol) + sin(phase) * vol` with the old volume and phase (42_drum_voice.md R178). -/
def drumBlend (o : NumOps) (d : Drum) (x : NumVal) : NumVal :=
  o.add (o.mul x (o.sub (o.ofDec 1) d.vol)) (o.mul (o.sin d.phase) d.vol)

/-- Is the sample in the second half of the duration, `2 * i >= DRUM_LEN` (42_drum_voice.md R178)? -/
def drumReleasing (c : DrumCfg) (d : Drum) : Bool := decide (c.len ≤ 2 * d.i)

/-- `v < 0 ? 0 : v` (42_drum_voice.md R173). -/
def floorZero (o : NumOps) (v : NumVal) : NumVal := if o.lt v (o.ofDec 0) then o.ofNat 0 else v

/-- The volume after this sample (42_drum_voice.md R178). -/
def drumVol (o : NumOps) (c : DrumCfg) (d : Drum) : NumVal :=
  if drumReleasing c d then floorZero o (o.sub d.vol (o.mul (o.ofDec 2) d.vdec)) else d.vol

/-- The FM intensity `fm * (16 / (i + 1)) / DRUM_FM_NORM` (42_drum_voice.md R174). -/
def drumIntensity (o : NumOps) (c : DrumCfg) (d : Drum) : NumVal :=
  o.div (o.mul d.fm (o.div (o.ofDec 16) (o.ofNat (d.i + 1)))) c.fmNorm

/-- The phase before the wrap test: `phase + freq * (1 + g * cos(phase))` (42_drum_voice.md R173). -/
def drumPhase (o : NumOps) (c : DrumCfg) (d : Drum) : NumVal :=
  o.add d.phase
    (o.mul d.freq (o.add (o.ofDec 1) (o.mul (drumIntensity o c d) (o.cos d.phase))))

/-- The frequency sweep: linear above the floor, else multiplicative (42_drum_voice.md R175). -/
def drumFreq (o : NumOps) (c : DrumCfg) (d : Drum) : NumVal :=
  if gt o d.freq c.floor then o.sub d.freq d.fdec else o.mul d.freq c.fmul

/-- Does the phase wrap, strictly above `TWO_PI` (42_drum_voice.md R176)? -/
def drumWraps (o : NumOps) (c : DrumCfg) (d : Drum) : Bool := gt o (drumPhase o c d) (twoPi o)

/-- The drum after one Active sample (42_drum_voice.md R173, in its order). -/
def drumNext (o : NumOps) (c : DrumCfg) (d : Drum) : Drum :=
  let wraps := drumWraps o c d
  { on := drumOnAfter c.len (d.i + 1) d.on
    i := d.i + 1
    phase := if wraps then o.sub (drumPhase o c d) (twoPi o) else drumPhase o c d
    freq := drumFreq o c d
    vol := drumVol o c d
    vdec := d.vdec
    fdec := if wraps then o.mul (drumFreq o c d) c.fdecK else d.fdec
    fm := if wraps then floorZero o (o.sub d.fm (o.ofDec 1)) else d.fm }

/-- The values one Active sample writes into drum elements, in the order of its writes: the volume in the
second half; the phase before the wrap test and the frequency always; at a wrap the phase a second time, `fm`
and `fdec` (42_drum_voice.md R173). -/
def drumWrites (o : NumOps) (c : DrumCfg) (d : Drum) : List NumVal :=
  let d' := drumNext o c d
  (if drumReleasing c d then [d'.vol] else []) ++ [drumPhase o c d, d'.freq] ++
    (if drumWraps o c d then [d'.phase, d'.fm, d'.fdec] else [])

/-- DRUM sD, sS (42_drum_voice.md R172, R173): a pure pass-through while Idle. -/
def execDrum (rd rs : Reg) (s : State) : Result :=
  let x := s.reg rs
  if s.drum.on then
    s.finish (.drum rd rs) (drumWrites s.num s.cfg.drum s.drum)
      { s with drum := drumNext s.num s.cfg.drum s.drum } rd (drumBlend s.num s.drum x)
  else
    s.finish (.drum rd rs) [] s rd x

end Sys2Proof.Machine
end

