-- ==== Sys2Proof/Machine/HatVoice.lean ====
section
/-! DEFINITION. The hi-hat: ARM and HAT (44_hihat_voice.md). -/

namespace Sys2Proof.Machine

/-- `hat_arm()`, which ARM and SEQ call (44_hihat_voice.md R211). -/
def hatArm (s : State) : State := { s with hat := { s.hat with vol := s.cfg.hat.vol0 } }

/-- The value arming writes. -/
def hatArmWrites (s : State) : List NumVal := [s.cfg.hat.vol0]

/-- ARM (44_hihat_voice.md R211). -/
def execArm (s : State) : Result := .next (s.commit .arm (hatArmWrites s) (hatArm s).advance)

/-- `f` divided `k` times in succession by `d` (44_hihat_voice.md R215). -/
def divTimes (o : NumOps) (d : NumVal) : Nat → NumVal → NumVal
  | 0, f => f
  | k + 1, f => divTimes o d k (o.div f d)

/-- What one lane of a HAT op leaves: its output, its oscillator, and the next draw's index. -/
structure HatLane where
  y : NumVal
  phase : NumVal
  inc : NumVal
  idx : Nat
deriving DecidableEq, Repr, Inhabited

/-- A lane's increment after its decay, written before a hit may write it again (44_hihat_voice.md R213,
R214). -/
def hatDecayed (o : NumOps) (c : HatCfg) (inc : NumVal) : NumVal := o.mul inc c.incDecay

/-- Does a lane ask for a retrigger draw: it wrapped, or its decayed increment is below the floor
(44_hihat_voice.md R214)? -/
def hatAsks (o : NumOps) (c : HatCfg) (phase inc : NumVal) : Bool :=
  (oscStep o phase inc).wrapped || o.lt (hatDecayed o c inc) c.incFloor

/-- The increment a hit with second draw `r2` chooses: `3 * (r2 mod 4)` semitones
(44_hihat_voice.md R215). -/
def hatPitch (o : NumOps) (c : HatCfg) (r2 : Nat) : NumVal := divTimes o c.semi (3 * (r2 % 4)) c.baseInc

/-- One lane of the HAT op, its draws starting at index `idx` (44_hihat_voice.md R213 to R215). -/
def hatLane (o : NumOps) (c : HatCfg) (rng : RngStream) (phase inc : NumVal) (idx : Nat) : HatLane :=
  let u := oscStep o phase inc
  let dec := hatDecayed o c inc
  if hatAsks o c phase inc then
    if rngAt rng idx % 10 = 0 then
      ⟨u.y, u.phase, hatPitch o c (rngAt rng (idx + 1)), idx + 2⟩
    else ⟨u.y, u.phase, dec, idx + 1⟩
  else ⟨u.y, u.phase, dec, idx⟩

/-- The four lanes in order, each drawing where the one before stopped (44_hihat_voice.md R213). -/
def hatLanes (o : NumOps) (c : HatCfg) (rng : RngStream) (h : Hat) (idx : Nat) : Vector HatLane 4 :=
  let l0 := hatLane o c rng h.phase[0] h.inc[0] idx
  let l1 := hatLane o c rng h.phase[1] h.inc[1] l0.idx
  let l2 := hatLane o c rng h.phase[2] h.inc[2] l1.idx
  let l3 := hatLane o c rng h.phase[3] h.inc[3] l2.idx
  #v[l0, l1, l2, l3]

/-- The sum of the four outputs from zero, in lane order (44_hihat_voice.md R213). -/
def hatSum (o : NumOps) (l : Vector HatLane 4) : NumVal :=
  o.add (o.add (o.add (o.add (o.ofNat 0) l[0].y) l[1].y) l[2].y) l[3].y

/-- The comb's output `acc + oldest * HAT_COMB_FB` (44_hihat_voice.md R216). -/
def hatComb (o : NumOps) (c : HatCfg) (h : Hat) (acc : NumVal) : NumVal :=
  o.add acc (o.mul (memRead (o.ofNat 0) h.comb h.cw) c.combFb)

/-- What one HAT op computes. -/
structure HatOut where
  lanes : Vector HatLane 4
  /-- the comb's output, stored in the buffer -/
  y : NumVal
  /-- the high-pass state and output -/
  hp : NumVal
  z : NumVal
deriving Repr

/-- The parts of one HAT op (44_hihat_voice.md R213 to R217). -/
def hatCompute (o : NumOps) (c : HatCfg) (rng : RngStream) (h : Hat) (idx : Nat) : HatOut :=
  let lanes := hatLanes o c rng h idx
  let y := hatComb o c h (hatSum o lanes)
  let (hp, z) := hpf o h.hp y c.hpC
  ⟨lanes, y, hp, z⟩

/-- The hi-hat after one op (44_hihat_voice.md R213, R216 to R218). -/
def hatNext (o : NumOps) (h : Hat) (r : HatOut) : Hat where
  phase := Vector.ofFn fun k : Fin 4 => r.lanes[k].phase
  inc := Vector.ofFn fun k : Fin 4 => r.lanes[k].inc
  comb := memWrite (o.ofNat 0) h.comb h.cw r.y
  cw := nextIndex h.cw 128
  hp := r.hp
  vol := o.mul h.vol (o.ofDec (9995/10000))

/-- The values one HAT op that takes `h` to `h'` writes into hi-hat elements: the phases, the decayed
increments, the increments (a lane without a hit leaves its decayed one), the comb element `y`, the high-pass
state and the volume (44_hihat_voice.md R213). -/
def hatWrites (o : NumOps) (c : HatCfg) (h h' : Hat) (y : NumVal) : List NumVal :=
  h'.phase.toList ++ h.inc.toList.map (hatDecayed o c) ++ h'.inc.toList ++ [y, h'.hp, h'.vol]

/-- HAT sD (44_hihat_voice.md R213): the whole voice runs on every op, armed or not (R212); the output uses
the volume before its decay (R218). -/
def execHat (rd : Reg) (s : State) : Result :=
  let r := hatCompute s.num s.cfg.hat s.rng s.hat s.rngIdx
  let h' := hatNext s.num s.hat r
  s.finish (.hat rd) (hatWrites s.num s.cfg.hat s.hat h' r.y) { s with hat := h', rngIdx := r.lanes[3].idx } rd
    (s.num.mul r.z s.hat.vol)

end Sys2Proof.Machine
end

