-- ==== Sys2Proof/Machine/Mixer.lean ====
section
/-! DEFINITION. The seed signal, the stereo image and the output encoder: NOISE, RPUSH, IMG, ENC
(47_mixer_output.md). -/

namespace Sys2Proof.Machine

/-- The noise sample of a gate draw `g` and a value draw `r` (47_mixer_output.md R261). -/
def noiseSample (o : NumOps) (c : NoiseCfg) (g r : Nat) : NumVal :=
  o.mul (o.sub (o.div (o.ofNat (r % c.modulus)) (o.ofNat c.modulus)) (o.ofDec (1/2)))
    (if g % c.gateMod = 0 then c.burstAmp else c.amp)

/-- NOISE sD: two draws, the gate first (47_mixer_output.md R261). -/
def execNoise (rd : Reg) (s : State) : Result :=
  s.finish (.noise rd) [] { s with rngIdx := s.rngIdx + 2 } rd
    (noiseSample s.num s.cfg.noise (rngAt s.rng s.rngIdx) (rngAt s.rng (s.rngIdx + 1)))

/-- The ring after a push (20_memory.md R64). -/
def ringPush (o : NumOps) (len : Nat) (r : StereoRing) (v : NumVal) : StereoRing :=
  ⟨memWrite (o.ofNat 0) r.buf r.rw v, nextIndex r.rw len⟩

/-- RPUSH sS (47_mixer_output.md R265). -/
def execRpush (rs : Reg) (s : State) : Result :=
  .next (s.commit (.rpush rs) [s.reg rs]
    { s with ring := ringPush s.num s.cfg.ringLen s.ring (s.reg rs) }.advance)

/-- The sum of `h(j)` over a window, in ascending `j` (47_mixer_output.md R266). -/
def windowSum (o : NumOps) (len : Nat) (r : StereoRing) (w : Window) : NumVal :=
  (List.range' w.off w.len).foldl (fun a j => o.add a (ringHist (o.ofNat 0) len r j)) (o.ofNat 0)

/-- `h(0) - a / of_nat(ST_LEN[c])` (47_mixer_output.md R266). -/
def imageSample (o : NumOps) (len : Nat) (r : StereoRing) (w : Window) : NumVal :=
  o.sub (ringHist (o.ofNat 0) len r 0) (o.div (windowSum o len r w) (o.ofNat w.len))

/-- IMG.c sD (47_mixer_output.md R266). -/
def execImg (c : Channel) (rd : Reg) (s : State) : Result :=
  s.finish (.img c rd) [] s rd (imageSample s.num s.cfg.ringLen s.ring (windowCfg s.cfg c))

/-- Is `x` outside `[-1, 1]` (47_mixer_output.md R272)? -/
def encOutside (o : NumOps) (x : NumVal) : Bool := o.lt x (minusOne o) || gt o x (o.ofDec 1)

/-- `q mod 2^24` for `q = trunc_int(x * 5000000)`, in two's complement (47_mixer_output.md R272). -/
def encQuantum (o : NumOps) (x : NumVal) : BitVec 24 :=
  BitVec.ofInt 24 (o.truncInt (o.mul x (o.ofDec 5000000)))

/-- The three bytes of a sample, least significant first (47_mixer_output.md R272). -/
def encBytes (u : BitVec 24) : List Byte :=
  [u.extractLsb' 0 8, u.extractLsb' 8 8, u.extractLsb' 16 8]

/-- ENC sS (47_mixer_output.md R272). -/
def execEnc (rs : Reg) (s : State) : Result :=
  if encOutside s.num (s.reg rs) then .next (s.raise .encRange rs.val)
  else .next ((encBytes (encQuantum s.num (s.reg rs))).foldl State.emit s).advance

end Sys2Proof.Machine
end

