-- ==== Sys2Proof/Machine/SawVoice.lean ====
section
/-! DEFINITION. The chorus-saw voice: TGT and SAW (43_chorus_saw_voice.md). -/

namespace Sys2Proof.Machine

/-- The partial multipliers `m_0 = 1`, `m_(k+1) = m_k + 0.505`, by that accumulation
(43_chorus_saw_voice.md R191). -/
def partialMul (o : NumOps) : Nat → NumVal
  | 0 => o.ofNat 1
  | k + 1 => o.add (partialMul o k) (o.ofDec (505/1000))

/-- The five target increments `f * m_k` (43_chorus_saw_voice.md R191, R192). -/
def partialTargets (o : NumOps) (f : NumVal) : Vector NumVal 5 :=
  Vector.ofFn fun k : Fin 5 => o.mul f (partialMul o k.val)

/-- `saw_retarget(v, tune, volume)`, which TGT and SEQ call (43_chorus_saw_voice.md R192). -/
def sawRetarget (v : Voice) (tune volume : NumVal) (s : State) : State :=
  s.setSaw v { s.saw v with
    tinc := partialTargets s.num (s.num.mul (sawCfg s.cfg v).fund tune)
    tvol := volume }

/-- The values a retarget writes. -/
def sawRetargetWrites (v : Voice) (tune volume : NumVal) (s : State) : List NumVal :=
  volume :: (partialTargets s.num (s.num.mul (sawCfg s.cfg v).fund tune)).toList

/-- TGT.v sA, sB: `rd` holds the tune, `rs` the volume (43_chorus_saw_voice.md R192). -/
def execTgt (v : Voice) (rd rs : Reg) (s : State) : Result :=
  .next (s.commit (.tgt v rd rs) (sawRetargetWrites v (s.reg rd) (s.reg rs) s)
    (sawRetarget v (s.reg rd) (s.reg rs) s).advance)

/-- `saw_cutoff(v, n)`, the LFO-modulated coefficient (43_chorus_saw_voice.md R196). -/
def sawCutoff (o : NumOps) (c : Cfg) (v : Voice) (n : Nat) : NumVal :=
  o.add (sawCfg c v).cutMid
    (o.mul (sawCfg c v).cutDepth
      (o.sin (o.div (o.mul (twoPi o) (o.ofNat n)) (o.mul c.tickInterval (sawCfg c v).lfoTicks))))

/-- The voice's waveshaper `sum * abs(sum) * vol` (43_chorus_saw_voice.md R195). -/
def sawShape (o : NumOps) (sum vol : NumVal) : NumVal := o.mul (o.mul sum (o.abs sum)) vol

/-- The voice after one sample at cutoff `k`: smooth, step the bank, shape, filter twice
(43_chorus_saw_voice.md R193). -/
def sawNext (o : NumOps) (k : NumVal) (w : Saw) : Saw :=
  let inc := Vector.ofFn fun j : Fin 5 => ema o w.inc[j] w.tinc[j]
  let vol := ema o w.vol w.tvol
  let lo := lpf o w.lo (sawShape o (oscBankSum o w.phase inc) vol) k
  { phase := oscBankPhases o w.phase inc
    inc := inc
    tinc := w.tinc
    vol := vol
    tvol := w.tvol
    lo := lo
    xlo := lpf o w.xlo lo k }

/-- The elements one sample writes: all but `tinc` and `tvol` (43_chorus_saw_voice.md R193). -/
def sawWrites (w : Saw) : List NumVal := w.inc.toList ++ w.phase.toList ++ [w.vol, w.lo, w.xlo]

/-- SAW.v sD (43_chorus_saw_voice.md R193). -/
def execSaw (v : Voice) (rd : Reg) (s : State) : Result :=
  let w := sawNext s.num (sawCutoff s.num s.cfg v s.n) (s.saw v)
  s.finish (.saw v rd) (sawWrites w) (s.setSaw v w) rd w.xlo

end Sys2Proof.Machine
end

