-- ==== Sys2Proof/Machine/Sequencer.lean ====
section
/-! DEFINITION. The step sequencer and the end of a sample: SEQ and ENDS (46_sequencer.md). -/

namespace Sys2Proof.Machine

/-- A pattern table's entry at tick ordinal `k`: index `k mod P` (46_sequencer.md R243). -/
def patternAt {α : Type} (p : Pattern α) (k : Nat) : Option α := p.table[k % p.period]?

/-- Does a boolean pattern fire at tick ordinal `k` (46_sequencer.md R243)? -/
def patternFires (p : Pattern Bool) (k : Nat) : Bool := (patternAt p k).getD false

/-- The target a voice pattern pushes at tick ordinal `k`, if any (46_sequencer.md R243). -/
def patternTarget (p : Pattern (Option Target)) (k : Nat) : Option Target :=
  (patternAt p k).getD none

/-- Retarget voice `v` if the pattern says so (46_sequencer.md R244). -/
def retargetIf (v : Voice) (t : Option Target) (s : State) : State :=
  match t with
  | some t => sawRetarget v t.tune t.vol s
  | none => s

/-- The values `retargetIf` writes. -/
def retargetIfWrites (v : Voice) (t : Option Target) (s : State) : List NumVal :=
  match t with
  | some t => sawRetargetWrites v t.tune t.vol s
  | none => []

/-- `pattern_actions(N)`: drum, hi-hat, bass, melody (46_sequencer.md R244). -/
def patternActions (k : Nat) (s : State) : State :=
  let s := if patternFires s.cfg.patDrum k then drumTrigger s else s
  let s := if patternFires s.cfg.patHat k then hatArm s else s
  let s := retargetIf .bass (patternTarget s.cfg.patBass k) s
  retargetIf .melody (patternTarget s.cfg.patMel k) s

/-- The values `pattern_actions(N)` writes. -/
def patternWrites (k : Nat) (s : State) : List NumVal :=
  (if patternFires s.cfg.patDrum k then drumTriggerWrites s else []) ++
  (if patternFires s.cfg.patHat k then hatArmWrites s else []) ++
  retargetIfWrites .bass (patternTarget s.cfg.patBass k) s ++
  retargetIfWrites .melody (patternTarget s.cfg.patMel k) s

/-- The clock after a tick (46_sequencer.md R242). -/
def tickClock (s : State) : State :=
  let tpos := s.num.add s.tpos s.cfg.tickInterval
  { s with tk := true, tick := s.tick + 1, tpos := tpos, nextTick := roundHalfUp s.num tpos }

/-- SEQ (46_sequencer.md R242). -/
def execSeq (s : State) : Result :=
  if tickDue s then
    .next (s.commit .seq ((tickClock s).tpos :: patternWrites s.tick s)
      (patternActions s.tick (tickClock s)).advance)
  else .next { s with tk := false }.advance

/-- ENDS (46_sequencer.md R247). -/
def execEnds (s : State) : Result :=
  if s.n + 1 = s.cfg.nSamples then .next { s with n := s.n + 1, run := .done }
  else .next { s with n := s.n + 1, pc := 0 }

end Sys2Proof.Machine
end

