-- ==== Sys2Proof/Machine/Dispatch.lean ====
section
/-! DEFINITION. One arm per instruction. -/

namespace Sys2Proof.Machine

def exec (i : Instr) (s : State) : Host.Outcome State Fault Refusal :=
  match i with
  | .nop => Sys2Proof.Machine.execNop s
  | .mov rd rs => Sys2Proof.Machine.execMov rd rs s
  | .acc rd rs => Sys2Proof.Machine.execAcc rd rs s
  | .clamp rd rs => Sys2Proof.Machine.execClamp rd rs s
  | .xov c rd rs => Sys2Proof.Machine.execXov c rd rs s
  | .trig => Sys2Proof.Machine.execTrig s
  | .drum rd rs => Sys2Proof.Machine.execDrum rd rs s
  | .tgt v rd rs => Sys2Proof.Machine.execTgt v rd rs s
  | .saw v rd => Sys2Proof.Machine.execSaw v rd s
  | .arm => Sys2Proof.Machine.execArm s
  | .hat rd => Sys2Proof.Machine.execHat rd s
  | .dly rd rs => Sys2Proof.Machine.execDly rd rs s
  | .seq => Sys2Proof.Machine.execSeq s
  | .ends => Sys2Proof.Machine.execEnds s
  | .noise rd => Sys2Proof.Machine.execNoise rd s
  | .rpush rs => Sys2Proof.Machine.execRpush rs s
  | .img c rd => Sys2Proof.Machine.execImg c rd s
  | .enc rs => Sys2Proof.Machine.execEnc rs s

end Sys2Proof.Machine
end

