-- ==== Sys2Proof/Machine/Control.lean ====
section
/-! DEFINITION. The host's side of the machine: the configuration checks and START
(60_exceptions.md R295 to R297), RESET (70_reset_and_hazards.md R320), and the status port
(10_state.md R26). -/

namespace Sys2Proof.Machine

/-! ## Comparisons of parameters: one that is not a finite number fails its check (R296) -/

/-- `a < b` for parameters. -/
def parLt (o : NumOps) (a b : NumVal) : Bool := a.isFinite && b.isFinite && o.lt a b

/-- `a <= b` for parameters. -/
def parLe (o : NumOps) (a b : NumVal) : Bool := a.isFinite && b.isFinite && o.le a b

/-- `v > 0`. -/
def parPos (o : NumOps) (v : NumVal) : Bool := parLt o (o.ofDec 0) v

/-- `v >= 0`. -/
def parNonneg (o : NumOps) (v : NumVal) : Bool := parLe o (o.ofDec 0) v

/-- `0 < v < 1`. -/
def parUnit (o : NumOps) (v : NumVal) : Bool := parPos o v && parLt o v (o.ofDec 1)

/-- A check over the three bands. -/
def allBands (p : NumVal → Bool) (b : Bands NumVal) : Bool := p b.sub && p b.mid && p b.high

/-- Check 5 for one channel. -/
def windowOk (ringLen : Nat) (w : Window) : Bool :=
  decide (1 ≤ w.len) && decide (w.off + w.len ≤ ringLen)

/-- Check 8 for one voice. -/
def sawCfgOk (o : NumOps) (c : SawCfg) : Bool :=
  parNonneg o c.fund && parPos o c.lfoTicks && parNonneg o c.cutDepth &&
    c.cutMid.isFinite && parPos o (o.sub c.cutMid c.cutDepth) &&
    parLt o (o.add c.cutMid c.cutDepth) (o.ofDec 1)

/-- Check 9. -/
def hatCfgOk (o : NumOps) (c : HatCfg) : Bool :=
  parPos o c.baseInc && parPos o c.semi && parPos o c.incDecay &&
    parLe o c.incDecay (o.ofDec 1) && parNonneg o c.incFloor &&
    parLt o (minusOne o) c.combFb && parLt o c.combFb (o.ofDec 1) &&
    parUnit o c.hpC && parNonneg o c.vol0

/-- Check 10. -/
def drumCfgOk (o : NumOps) (c : DrumCfg) : Bool :=
  parPos o c.f0 && parPos o c.floor && decide (1 ≤ c.len) && parPos o c.fmul &&
    parLe o c.fmul (o.ofDec 1) && parNonneg o c.fm0 && parPos o c.fmNorm && parNonneg o c.fdecK

/-- Check 11. -/
def noiseCfgOk (o : NumOps) (c : NoiseCfg) : Bool :=
  decide (1 ≤ c.modulus) && decide (1 ≤ c.gateMod) && parNonneg o c.amp && parNonneg o c.burstAmp

/-- A pattern table has a period in `{8, 32, 256}` and exactly that many entries (check 12). -/
def patternShapeOk {α : Type} (p : Pattern α) : Bool :=
  (p.period == 8 || p.period == 32 || p.period == 256) && p.table.length == p.period

/-- An entry `some(tune, vol)` has `tune >= 0` and `vol >= 0` (check 12). -/
def targetOk (o : NumOps) : Option Target → Bool
  | some t => parNonneg o t.tune && parNonneg o t.vol
  | none => true

/-- Check `k` of 60_exceptions.md R296, `1 <= k <= 14`. -/
def cfgCheck (c : Cfg) (k : Nat) : Bool :=
  let o := numOps c.num
  match k with
  | 1 => decide (1 ≤ c.nSamples)
  | 2 => parLe o (o.ofDec 1) c.tickInterval
  | 3 => decide (1 ≤ c.dlLen)
  | 4 => decide (1 ≤ c.ringLen)
  | 5 => windowOk c.ringLen c.stL && windowOk c.ringLen c.stR
  | 6 => parUnit o c.bpDecay
  | 7 => allBands (parUnit o) c.xoCl && allBands (parUnit o) c.xoCh
  | 8 => sawCfgOk o c.sawBass && sawCfgOk o c.sawMel
  | 9 => hatCfgOk o c.hat
  | 10 => drumCfgOk o c.drum
  | 11 => noiseCfgOk o c.noise
  | 12 => patternShapeOk c.patDrum && patternShapeOk c.patHat && patternShapeOk c.patBass &&
      patternShapeOk c.patMel && c.patBass.table.all (targetOk o) && c.patMel.table.all (targetOk o)
  | 13 => decide (c.program.length ≤ 256) && c.program.all legal
  | 14 => parPos o c.srA && parPos o c.srB
  | _ => true

/-- The numbers of the checks, in the order they run (60_exceptions.md R293). -/
def checkNumbers : List Nat := [1, 2, 3, 4, 5, 6, 7, 8, 9, 10, 11, 12, 13, 14]

/-- The number of the first check that fails, if any (60_exceptions.md R293, R295). -/
def firstFailing (c : Cfg) : Option Nat := checkNumbers.find? fun k => !cfgCheck c k

/-- START (60_exceptions.md R295): ignored unless `RUN = IDLE`; the configuration checks, then the
resource check, then `RUN` becomes RUN. -/
def hostStart (s : State) : State :=
  if s.run = .idle then
    match firstFailing s.cfg with
    | some k => s.raise .cfgInvalid k
    | none => if s.sinkReady then { s with run := .run } else s.raise .resource 0
  else s

/-- RESET, in any run state (70_reset_and_hazards.md R320): every state element to its reset value; the
inputs are not state and stay. -/
def hostReset (s : State) : State := resetUnder s.cfg s.rng s.sinkReady s.cmd

/-- The value of `RUN` as the status port shows it (10_state.md R26). -/
def runCode : RunState → Nat
  | .idle => 0
  | .run => 1
  | .done => 2
  | .fault => 3

/-- Reading register `k` of the status port (10_state.md R26); there are ten (log entry 23). -/
def readStatus (s : State) (k : Nat) : Option Nat :=
  match k with
  | 0 => some (runCode s.run)
  | 1 => some s.fault.toNat
  | 2 => some s.finfo.toNat
  | 3 => some s.n
  | 4 => some s.tick
  | 5 => some s.nextTick
  | 6 => some s.tk.toNat
  | 7 => some s.pc
  | 8 => some s.outCnt
  | 9 => some s.rngIdx
  | _ => none

end Sys2Proof.Machine
end

