-- ==== Sys2Proof/Machine/Fetch.lean ====
section
/-! DEFINITION. Fetching an op word from the program store, storing one where the next fetch reads it, and
taking a value of the port `cmd`. -/

namespace Sys2Proof.Machine

/-- `MemRead(PROG, pc)`; nothing at and past `PROG_LEN` (20_memory.md R61, 46_sequencer.md R246). -/
def fetchWord (s : State) : Option Word := s.cfg.program[s.pc]?

/-- A program with the word `w` in slot `k`: its other slots stay, and missing slots before `k` are NOPs. -/
def setSlot (w : Word) : Nat → List Word → List Word
  | 0, p => w :: p.tail
  | k + 1, p => p.headD 0x0000 :: setSlot w k p.tail

/-- `s` about to fetch the op word `w` at its slot counter: `w` in the program store, `RUN = RUN`, and no
host command pending (log entry 20). -/
def withNextWord (s : State) (w : Word) : State :=
  { s with cfg := { s.cfg with program := setSlot w s.pc s.cfg.program }, run := .run, cmd := [] }

/-- What stands for "no step": the run state in which nothing executes (10_state.md R27). -/
def noStep : RunState → Fault
  | .done => .done
  | .fault => .faulted
  | _ => .idle

/-- A step that takes RESET or START from the port `cmd`, or waits at NONE with nothing executing
(60_exceptions.md R310); `s` has that value already taken from the port. -/
def hostStep (c : HostCmd) (s : State) : State :=
  match c with
  | .none => s
  | .reset => hostReset s
  | .start => hostStart s

end Sys2Proof.Machine
end

