-- ==== Sys2Proof/Machine/Step.lean ====
section
/-! DEFINITION. One step of the machine (46_sequencer.md R246, 60_exceptions.md R310). -/

namespace Sys2Proof.Machine

/-- The fetch-execute cycle while `RUN = RUN` (46_sequencer.md R246): `FetchEnd` past the program,
`IllegalOp` for a word that is none of the 18 ops, else the op. -/
def opStep (s : State) : Host.Outcome State Fault Refusal :=
  match fetchWord s with
  | none => .next (s.raise .fetchEnd s.pc)
  | some w =>
    match decode w with
    | .error _ => .next (s.raise .illegalOp w.toNat)
    | .ok i => exec i s

/-- One step: a value of the port `cmd` is taken if one is still to come (log entry 8); RESET and START are
a step of their own; at NONE an op executes if `RUN = RUN`.  With no value to come and nothing executing there
is no step (log entry 9). -/
def step (s : State) : Host.Outcome State Fault Refusal :=
  match s.cmd with
  | [] => if s.run = .run then opStep s else .fault (noStep s.run)
  | c :: rest =>
    let s' := { s with cmd := rest }
    if c = .none ∧ s.run = .run then opStep s' else .next (hostStep c s')

/-- `s` with the instruction of `nbits` bits `w` stored where `step` fetches its next one (log entry 20). -/
def State.withFetchWord (s : State) (nbits w : Nat) : State :=
  withNextWord s (BitVec.ofNat 16 (w % 2 ^ nbits))

end Sys2Proof.Machine
end

