-- ==== Sys2Proof/Safety.lean ====
section
/-! DEFINITION. What a good state is, in the terms the statements use: every number finite, every buffer
canonical, every index in range, the control registers consistent, the peak trackers above their bound; and
the run of a list of ops. -/

namespace Sys2Proof.Machine

/-! ## Runs of ops -/

/-- The ops of a list executed one after another, stopping where one has no next state. -/
def execList : List Instr → State → Host.Outcome State Fault Refusal
  | [], s => .next s
  | i :: l, s =>
    match exec i s with
    | .next t => execList l t
    | r => r

/-! ## Every number finite (60_exceptions.md R301) -/

/-- The `NUM` elements of a chorus-saw voice. -/
def Saw.nums (w : Saw) : List NumVal :=
  w.phase.toList ++ w.inc.toList ++ w.tinc.toList ++ [w.vol, w.tvol, w.lo, w.xlo]

/-- The listed elements of a buffer; every other one is `of_nat(0)`. -/
def memNums (m : Memory) : List NumVal := m.map Prod.snd

/-- The `NUM` elements of the hi-hat. -/
def Hat.nums (h : Hat) : List NumVal :=
  h.phase.toList ++ h.inc.toList ++ memNums h.comb ++ [h.hp, h.vol]

/-- Every `NUM` element of the state (10_state.md R20 to R36). -/
def State.nums (s : State) : List NumVal :=
  s.regs.toList ++ [s.tpos] ++ s.drum.nums ++ s.sawBass.nums ++ s.sawMel.nums ++ s.hat.nums ++
    memNums s.dly.buf ++ memNums s.ring.buf ++ bandNums s.xovL ++ bandNums s.xovR

/-- Every `NUM` element of the state is a finite number, and so are the two numbers of the domain that RESET
and every unlisted buffer element take: `of_nat(0)` and `of_dec(0.3)`. -/
def State.allFinite (s : State) : Prop :=
  (∀ v ∈ s.nums, v.isFinite = true) ∧ s.zero.isFinite = true ∧ (s.num.ofDec (3/10)).isFinite = true

/-! ## Buffers canonical (20_memory.md R60, log entry 14) -/

/-- The three buffers are in canonical form. -/
def State.buffersWf (s : State) : Prop :=
  Memory.wf s.zero s.hat.comb ∧ Memory.wf s.zero s.dly.buf ∧ Memory.wf s.zero s.ring.buf

/-! ## Indices in range (20_memory.md R60, 10_state.md R31 to R35) -/

/-- Every buffer index is inside its buffer and the drum's counter inside its duration, each length being
one that START accepts. -/
def State.indicesInRange (s : State) : Prop :=
  s.hat.cw < 128 ∧ (∀ p ∈ s.hat.comb, p.1 < 128) ∧
  (0 < s.cfg.dlLen → s.dly.dw < s.cfg.dlLen ∧ ∀ p ∈ s.dly.buf, p.1 < s.cfg.dlLen) ∧
  (0 < s.cfg.ringLen → s.ring.rw < s.cfg.ringLen ∧ ∀ p ∈ s.ring.buf, p.1 < s.cfg.ringLen) ∧
  (0 < s.cfg.drum.len → s.drum.i ≤ s.cfg.drum.len ∧ (s.drum.on = true → s.drum.i < s.cfg.drum.len))

/-! ## Control registers consistent (10_state.md R22, R24, R27, R28, R30) -/

/-- The control registers as the rules leave them: no fault code outside FAULT; a run that executes has a
checked configuration and `n` below `N_SAMPLES`; DONE has `n = N_SAMPLES`; `pc` is at most `PROG_LEN`;
`out_cnt` counts the bytes of `OUT`; the fault is never `IllegalOp`. -/
def State.controlOk (s : State) : Prop :=
  (s.run ≠ .fault → s.fault = 0 ∧ s.finfo = 0) ∧
  (s.run = .idle → s.n = 0 ∧ s.pc = 0) ∧
  (s.run = .run → firstFailing s.cfg = none ∧ s.n < s.cfg.nSamples) ∧
  (s.run = .done → s.n = s.cfg.nSamples) ∧
  (s.run = .fault → s.n ≤ s.cfg.nSamples ∧ s.fault ≠ 0) ∧
  s.pc ≤ s.cfg.program.length ∧
  s.outCnt = s.out.length ∧
  s.fault ≠ FaultCode.illegalOp.code

/-! ## Peak trackers above their bound (41_bandpass_crossover.md R154) -/

/-- `max >= 0.3 * decay` and `0 <= mul <= 0.7 / (0.3 * decay)`, for the real numbers they are. -/
def Bandpass.tracked (decay : ℝ) (b : Bandpass) : Prop :=
  3/10 * decay ≤ toReal b.max ∧ 0 ≤ toReal b.mul ∧ toReal b.mul ≤ 7/10 / (3/10 * decay)

/-- In the exact domain, with a decay factor in `(0, 1)`: all six bandpasses are tracked. -/
def State.peaksOk (s : State) : Prop :=
  s.cfg.num = .exact ∧ 0 < toReal s.cfg.bpDecay ∧ toReal s.cfg.bpDecay < 1 ∧
  ∀ c : Channel,
    (s.xov c).sub.tracked (toReal s.cfg.bpDecay) ∧ (s.xov c).mid.tracked (toReal s.cfg.bpDecay) ∧
    (s.xov c).high.tracked (toReal s.cfg.bpDecay)

/-! ## Good states and the end of a run -/

/-- The invariants that hold in every numeric domain. -/
def State.good (s : State) : Prop :=
  s.allFinite ∧ s.buffersWf ∧ s.indicesInRange ∧ s.controlOk

/-- A run that has ended as it should: only DONE is a final state (10_state.md R27). -/
def State.finished (s : State) : Prop := s.run = .done

/-- A run that has gone wrong (10_state.md R27). -/
def State.wentWrong (s : State) : Prop := s.run = .fault

/-- A number of the exact domain inside `[0, PI]` (40_primitives.md R126). -/
def inHalfTurn (v : NumVal) : Prop := 0 ≤ toReal v ∧ toReal v ≤ Real.pi

/-- What a ring buffer of `len` elements holds, the oldest first: the element a shifting buffer has at its
read end, then the next, up to the newest (20_memory.md R78). -/
def ringContents (z : NumVal) (len : Nat) (buf : Memory) (w : Nat) : List NumVal :=
  (List.range len).map fun j => memRead z buf ((w + j) % len)

end Sys2Proof.Machine
end

