-- ==== Sys2Proof/Certificates/Slice0/Obligations.lean ====
section
/-! DEFINITION. The statements for the provers. -/

open Sys2Proof Sys2Proof.Machine

/-! ## Encoding -/

/-- Decoding the word of any instruction gives the instruction back. -/
def Obligations.DecodeOfEncode : Prop := ∀ i : Instr, decode (encode i) = .ok i

/-- A word that decodes is the word of the instruction it decodes to: no two words mean one op. -/
def Obligations.EncodeOfDecode : Prop := ∀ (w : Word) (i : Instr), decode w = .ok i → encode i = w

/-- R93: a word is the op of a row exactly when `(w AND mask) = match`; the rows are all there is and none
overlaps another; the word is `opc * 256 + inst * 64 + rd * 8 + rs`. -/
def Obligations.OpcodeMapDecides : Prop :=
  (∀ (w : Word), ∀ r ∈ opcodeMap,
    (w &&& r.mask = r.pattern ↔ ∃ i, decode w = .ok i ∧ i.opcode = r.opcode)) ∧
  (∀ (w : Word), legal w = true ↔ ∃ r ∈ opcodeMap, w &&& r.mask = r.pattern) ∧
  (∀ (w : Word), ∀ r ∈ opcodeMap, ∀ q ∈ opcodeMap,
    w &&& r.mask = r.pattern → w &&& q.mask = q.pattern → r = q) ∧
  ∀ i : Instr, (encode i).toNat =
    (opcOf i.opcode).toNat * 256 + i.fields.inst.toNat * 64 + i.fields.rd.toNat * 8 + i.fields.rs.toNat

/-- R91: with an opcode of the table, a word is legal exactly when every unused field is zero and a used
instance field is 0 or 1; every value of a used register field is legal, and the op it decodes to has
those fields, so a register field names the register of its number. -/
def Obligations.UnusedFieldsMustBeZero : Prop :=
  ∀ (op : Opcode) (f : Fields), f.opc = opcOf op →
    (legal (wordOf f) = true ↔
      (op.shape.inst = false → f.inst = 0) ∧ (op.shape.inst = true → f.inst.toNat ≤ 1) ∧
      (op.shape.rd = false → f.rd = 0) ∧ (op.shape.rs = false → f.rs = 0)) ∧
    ∀ i, decode (wordOf f) = .ok i → i.opcode = op ∧ i.fields = f ∧
      ∀ r : Reg, (regBits r).toNat = r.val

/-- Words written out in the spec (R99, R157, R192) decode to the ops they stand for. -/
def Obligations.SampleWordsDecode : Prop :=
  decode 0x0201 = .ok (.acc 0 1) ∧ decode 0x3148 = .ok (.saw .melody 1) ∧
  decode 0x105B = .ok (.xov .right 3 3) ∧ decode 0x7303 = .ok (.enc 3) ∧
  decode 0x6100 = .ok .ends ∧ decode 0x3025 = .ok (.tgt .bass 4 5) ∧
  decode 0x7258 = .ok (.img .right 3) ∧ decode 0x4108 = .ok (.hat 1) ∧
  decode 0x0800 = .error .unknownOpcode ∧ decode 0x1080 = .error .instReserved

/-- R275: the 21 words of the render schedule decode to the ops the table lists. -/
def Obligations.RenderScheduleDecodes : Prop :=
  Config.renderSchedule.map decode = ([.seq, .noise 0, .hat 1, .acc 0 1, .saw .melody 1, .acc 0 1,
    .saw .bass 1, .acc 0 1, .dly 1 0, .acc 0 1, .drum 0 0, .rpush 0, .img .left 2, .img .right 3,
    .xov .left 2 2, .xov .right 3 3, .clamp 2 2, .clamp 3 3, .enc 2, .enc 3, .ends].map Except.ok)

/-! ## The step -/

/-- A step runs the op that the word at `pc` decodes to; a `NONE` on the command port is taken first (the
port is log entry 8). -/
def Obligations.StepRunsDecodedOp : Prop :=
  ∀ (s : State) (w : Word) (i : Instr), s.run = .run → s.cfg.program[s.pc]? = some w → decode w = .ok i →
    (s.cmd = [] → step s = exec i s) ∧
    (∀ rest, s.cmd = .none :: rest → step s = exec i { s with cmd := rest })

/-- R298, R299: fetching at or past `PROG_LEN` raises `FetchEnd` with `pc`, fetching an illegal word
raises `IllegalOp` with the word; nothing else changes. -/
def Obligations.FetchFaults : Prop :=
  ∀ s : State, s.run = .run → s.cmd = [] →
    (s.cfg.program.length ≤ s.pc →
      step s = .next { s with fault := 4, finfo := BitVec.ofNat 16 s.pc, run := .fault }) ∧
    (∀ w, s.cfg.program[s.pc]? = some w → legal w = false →
      step s = .next { s with fault := 3, finfo := w, run := .fault })

/-- Nothing executes outside RUN: with no command to come there is no step, and a `NONE` changes nothing
(the model's choices, log entries 8 and 9). -/
def Obligations.NothingExecutesOutsideRun : Prop :=
  ∀ s : State, s.run ≠ .run →
    (s.cmd = [] → step s = .fault (noStep s.run)) ∧
    (∀ rest, s.cmd = .none :: rest → step s = .next { s with cmd := rest })

/-- R295: START runs the checks in ascending number, then the resource check, and is ignored unless `RUN =
IDLE`. -/
def Obligations.StartChecksThenRuns : Prop :=
  ∀ (s : State) (rest : List HostCmd), s.cmd = .start :: rest →
    (s.run ≠ .idle → step s = .next { s with cmd := rest }) ∧
    (∀ k, s.run = .idle → 1 ≤ k → k ≤ 14 → (∀ j, 1 ≤ j → j < k → cfgCheck s.cfg j = true) →
      cfgCheck s.cfg k = false →
      step s = .next { s with cmd := rest, fault := 1, finfo := BitVec.ofNat 16 k, run := .fault }) ∧
    (s.run = .idle → (∀ j, 1 ≤ j → j ≤ 14 → cfgCheck s.cfg j = true) → s.sinkReady = false →
      step s = .next { s with cmd := rest, fault := 2, finfo := 0, run := .fault }) ∧
    (s.run = .idle → (∀ j, 1 ≤ j → j ≤ 14 → cfgCheck s.cfg j = true) → s.sinkReady = true →
      step s = .next { s with cmd := rest, run := .run })

/-- R296: the condition of each of the 14 checks, and that a `NUM` parameter that is not a finite number
fails its check.  `lt` and `le` compare finite numbers only; for a sum or a difference of parameters this is
the model's reading (log entry 21). -/
def Obligations.ConfigurationChecks : Prop :=
  ∀ c : Cfg,
    let o := numOps c.num
    let lt := fun a b : NumVal => a.isFinite = true ∧ b.isFinite = true ∧ o.lt a b = true
    let le := fun a b : NumVal => a.isFinite = true ∧ b.isFinite = true ∧ o.le a b = true
    let zero := o.ofDec 0
    let one := o.ofDec 1
    let bad := fun v : NumVal => v.isFinite = false
    let h := c.hat
    let d := c.drum
    let targets := c.patBass.table ++ c.patMel.table
    (cfgCheck c 1 = true ↔ 1 ≤ c.nSamples) ∧
    (cfgCheck c 2 = true ↔ le one c.tickInterval) ∧
    (cfgCheck c 3 = true ↔ 1 ≤ c.dlLen) ∧
    (cfgCheck c 4 = true ↔ 1 ≤ c.ringLen) ∧
    (cfgCheck c 5 = true ↔ ∀ w ∈ [c.stL, c.stR], 1 ≤ w.len ∧ w.off + w.len ≤ c.ringLen) ∧
    (cfgCheck c 6 = true ↔ lt zero c.bpDecay ∧ lt c.bpDecay one) ∧
    (cfgCheck c 7 = true ↔ ∀ v ∈ [c.xoCl.sub, c.xoCl.mid, c.xoCl.high, c.xoCh.sub, c.xoCh.mid, c.xoCh.high],
      lt zero v ∧ lt v one) ∧
    (cfgCheck c 8 = true ↔ ∀ w ∈ [c.sawBass, c.sawMel], le zero w.fund ∧ lt zero w.lfoTicks ∧
      le zero w.cutDepth ∧ w.cutMid.isFinite = true ∧ lt zero (o.sub w.cutMid w.cutDepth) ∧
      lt (o.add w.cutMid w.cutDepth) one) ∧
    (cfgCheck c 9 = true ↔ lt zero h.baseInc ∧ lt zero h.semi ∧ (lt zero h.incDecay ∧ le h.incDecay one) ∧
      le zero h.incFloor ∧ (lt (o.neg one) h.combFb ∧ lt h.combFb one) ∧ (lt zero h.hpC ∧ lt h.hpC one) ∧
      le zero h.vol0) ∧
    (cfgCheck c 10 = true ↔ lt zero d.f0 ∧ lt zero d.floor ∧ 1 ≤ d.len ∧ (lt zero d.fmul ∧ le d.fmul one) ∧
      le zero d.fm0 ∧ lt zero d.fmNorm ∧ le zero d.fdecK) ∧
    (cfgCheck c 11 = true ↔ 1 ≤ c.noise.modulus ∧ 1 ≤ c.noise.gateMod ∧ le zero c.noise.amp ∧
      le zero c.noise.burstAmp) ∧
    (cfgCheck c 12 = true ↔
      (∀ q ∈ [(c.patDrum.period, c.patDrum.table.length), (c.patHat.period, c.patHat.table.length),
        (c.patBass.period, c.patBass.table.length), (c.patMel.period, c.patMel.table.length)],
        (q.1 = 8 ∨ q.1 = 32 ∨ q.1 = 256) ∧ q.2 = q.1) ∧
      ∀ t : Target, some t ∈ targets → le zero t.tune ∧ le zero t.vol) ∧
    (cfgCheck c 13 = true ↔ c.program.length ≤ 256 ∧ ∀ w ∈ c.program, legal w = true) ∧
    (cfgCheck c 14 = true ↔ lt zero c.srA ∧ lt zero c.srB) ∧
    (bad c.tickInterval → cfgCheck c 2 = false) ∧
    (bad c.bpDecay → cfgCheck c 6 = false) ∧
    (∀ v ∈ [c.xoCl.sub, c.xoCl.mid, c.xoCl.high, c.xoCh.sub, c.xoCh.mid, c.xoCh.high],
      bad v → cfgCheck c 7 = false) ∧
    (∀ w ∈ [c.sawBass, c.sawMel], ∀ v ∈ [w.fund, w.lfoTicks, w.cutMid, w.cutDepth],
      bad v → cfgCheck c 8 = false) ∧
    (∀ v ∈ [h.baseInc, h.semi, h.incDecay, h.incFloor, h.combFb, h.hpC, h.vol0],
      bad v → cfgCheck c 9 = false) ∧
    (∀ v ∈ [d.f0, d.floor, d.fmul, d.fm0, d.fmNorm, d.fdecK], bad v → cfgCheck c 10 = false) ∧
    (∀ v ∈ [c.noise.amp, c.noise.burstAmp], bad v → cfgCheck c 11 = false) ∧
    (∀ t : Target, some t ∈ targets → ∀ v ∈ [t.tune, t.vol], bad v → cfgCheck c 12 = false) ∧
    (∀ v ∈ [c.srA, c.srB], bad v → cfgCheck c 14 = false)

/-- R321: RESET, in any run state, leaves every element at its reset value; the configuration and the
stream are not touched. -/
def Obligations.ResetValues : Prop :=
  ∀ (s : State) (rest : List HostCmd), s.cmd = .reset :: rest →
    ∃ t, step s = .next t ∧
      (∀ r, t.reg r = s.num.ofNat 0) ∧ t.pc = 0 ∧ t.n = 0 ∧ t.tick = 0 ∧ t.nextTick = 0 ∧
      t.tpos = s.num.ofNat 0 ∧ t.tk = false ∧ t.run = .idle ∧ t.fault = 0 ∧ t.finfo = 0 ∧
      t.rngIdx = 0 ∧ t.outCnt = 0 ∧ t.out = [] ∧
      t.drum.on = false ∧ t.drum.i = 0 ∧ (∀ v ∈ t.drum.nums, v = s.num.ofNat 0) ∧
      (∀ u, ∀ v ∈ (t.saw u).nums, v = s.num.ofNat 0) ∧
      (∀ v ∈ t.hat.phase.toList ++ t.hat.inc.toList ++ [t.hat.hp, t.hat.vol], v = s.num.ofNat 0) ∧
      t.hat.cw = 0 ∧ t.dly.dw = 0 ∧ t.ring.rw = 0 ∧
      (∀ a, memRead t.zero t.hat.comb a = s.num.ofNat 0 ∧ memRead t.zero t.dly.buf a = s.num.ofNat 0 ∧
        memRead t.zero t.ring.buf a = s.num.ofNat 0) ∧
      (∀ c, ∀ b ∈ [(t.xov c).sub, (t.xov c).mid, (t.xov c).high],
        b.lo = s.num.ofNat 0 ∧ b.hi = s.num.ofNat 0 ∧ b.max = s.num.ofDec (3/10) ∧
        b.mul = s.num.ofNat 0) ∧
      t.cfg = s.cfg ∧ t.rng = s.rng

/-- The state after reset has every invariant (in the model's own choice of inputs, log entry 11). -/
def Obligations.ResetStateIsGood : Prop := State.reset.good ∧ State.reset.peaksOk

/-! ## Data movement -/

/-- R130: NOP (0x0000) changes only `pc`. -/
def Obligations.NopOnlyAdvances : Prop :=
  encode .nop = 0x0000 ∧ ∀ s : State, exec .nop s = .next { s with pc := s.pc + 1 }

/-- R131: MOV copies a register; `rd = rs` changes nothing but `pc`. -/
def Obligations.MovCopiesRegister : Prop :=
  ∀ (s : State) (rd rs : Reg), (encode (.mov rd rs)).extractLsb' 8 8 = 0x01 ∧
    ((s.reg rs).isFinite = true →
      exec (.mov rd rs) s = .next { s with regs := s.regs.set rd (s.reg rs), pc := s.pc + 1 } ∧
      (rd = rs → exec (.mov rd rs) s = .next { s with pc := s.pc + 1 }))

/-- R132: ACC adds `s[rs]` to `s[rd]`, the old `s[rd]` on the left, with no saturation; a sum that is not
finite raises `NumInvalid` with the op's word. -/
def Obligations.AccAddsOrFaults : Prop :=
  ∀ (s : State) (rd rs : Reg), (encode (.acc rd rs)).extractLsb' 8 8 = 0x02 ∧
    ((s.num.add (s.reg rd) (s.reg rs)).isFinite = true →
      exec (.acc rd rs) s = .next { s with
        regs := s.regs.set rd (s.num.add (s.reg rd) (s.reg rs)), pc := s.pc + 1 }) ∧
    ((s.num.add (s.reg rd) (s.reg rs)).isFinite = false →
      exec (.acc rd rs) s = .next { s with fault := 5, finfo := encode (.acc rd rs), run := .fault })

/-- R133, R128: CLAMP writes -1 below -1, 1 above 1, and the register itself between; the value written
has to be finite (log entry 12). -/
def Obligations.ClampLimitsRegister : Prop :=
  ∀ (s : State) (rd rs : Reg),
    let one := s.num.ofNat 1
    let minusOne := s.num.neg one
    let x := s.reg rs
    let wrote := fun v : NumVal => { s with regs := s.regs.set rd v, pc := s.pc + 1 }
    (s.num.lt x minusOne = true → minusOne.isFinite = true →
      exec (.clamp rd rs) s = .next (wrote minusOne)) ∧
    (s.num.lt x minusOne = false → s.num.lt one x = true → one.isFinite = true →
      exec (.clamp rd rs) s = .next (wrote one)) ∧
    (s.num.lt x minusOne = false → s.num.lt one x = false → x.isFinite = true →
      exec (.clamp rd rs) s = .next (wrote x))

/-! ## Crossover -/

/-- R155: the bandpass step, formula by formula. -/
def Obligations.BandpassStepFormulas : Prop :=
  ∀ (o : NumOps) (decay cl ch x : NumVal) (b : Bandpass),
    let lo := o.add b.lo (o.mul (o.sub x b.lo) cl)
    let hi := o.add b.hi (o.mul (o.sub lo b.hi) ch)
    let f := o.sub lo hi
    let a := o.abs f
    let max := if o.lt b.max a = true then a
      else if o.lt (o.ofDec (3/10)) b.max = true then o.mul b.max decay else b.max
    let t := o.div (o.ofDec (7/10)) max
    let mul := o.div (o.add (o.mul b.mul (o.ofDec 31)) t) (o.ofDec 32)
    bpStep o decay cl ch b x = (⟨lo, hi, max, mul⟩, o.mul f mul)

/-- XOV.c steps the three bandpasses of its own channel with the same input, writes the clamped sum, and
leaves the other channel and everything else alone; a value that is not finite raises `NumInvalid`. -/
def Obligations.XovStepsItsChannel : Prop :=
  ∀ (s : State) (c : Channel) (rd rs : Reg),
    let o := s.num
    let x := s.reg rs
    let b := s.xov c
    let p0 := bpStep o s.cfg.bpDecay s.cfg.xoCl.sub s.cfg.xoCh.sub b.sub x
    let p1 := bpStep o s.cfg.bpDecay s.cfg.xoCl.mid s.cfg.xoCh.mid b.mid x
    let p2 := bpStep o s.cfg.bpDecay s.cfg.xoCl.high s.cfg.xoCh.high b.high x
    let y := clamp o (o.add (o.add p0.2 p1.2) p2.2) (o.neg (o.ofDec 1)) (o.ofDec 1)
    let after : Bands Bandpass := ⟨p0.1, p1.1, p2.1⟩
    ((∀ v ∈ y :: bandNums after, v.isFinite = true) →
      (c = .left → exec (.xov c rd rs) s = .next { s with
        xovL := after, regs := s.regs.set rd y, pc := s.pc + 1 }) ∧
      (c = .right → exec (.xov c rd rs) s = .next { s with
        xovR := after, regs := s.regs.set rd y, pc := s.pc + 1 })) ∧
    ((∃ v ∈ y :: bandNums after, v.isFinite = false) →
      exec (.xov c rd rs) s =
        .next { s with fault := 5, finfo := encode (.xov c rd rs), run := .fault })

/-- R156, R270: in the exact domain and in binary64 (log entries 3 and 4), an XOV that completes leaves
its result in `[-1, 1]`, and a CLAMP of it changes nothing but `pc`. -/
def Obligations.XovResultInRange : Prop :=
  ∀ (s t : State) (c : Channel) (rd rs : Reg), s.cfg.num = .exact ∨ s.cfg.num = .binary64 →
    s.run = .run → exec (.xov c rd rs) s = .next t → t.run = .run →
    s.num.lt (t.reg rd) (s.num.neg (s.num.ofDec 1)) = false ∧
    s.num.lt (s.num.ofDec 1) (t.reg rd) = false ∧
    (s.cfg.num = .exact → -1 ≤ toReal (t.reg rd) ∧ toReal (t.reg rd) ≤ 1) ∧
    exec (.clamp rd rd) t = .next { t with pc := t.pc + 1 }

/-- R154: the bounds of the peak tracker and of the gain are kept by every step (exact domain, the real
numbers, log entry 3). -/
def Obligations.PeakBoundsKept : Prop :=
  ∀ s t : State, s.peaksOk → step s = .next t → t.peaksOk

/-! ## Drum -/

/-- R171: TRIG sets every drum element, whatever the drum was doing, and nothing else.  That a value that is
not finite raises `NumInvalid` is the model's choice (log entry 12): R301 says so of every op, R171 lists no
exception. -/
def Obligations.TrigStartsDrum : Prop :=
  ∀ s : State,
    let o := s.num
    let c := s.cfg.drum
    let d : Drum := ⟨true, 0, o.ofNat 0, c.f0, o.ofDec (8/10), o.div (o.ofDec (8/10)) (o.ofNat c.len),
      o.mul c.f0 c.fdecK, c.fm0⟩
    ((∀ v ∈ d.nums, v.isFinite = true) →
      exec .trig s = .next { s with drum := d, pc := s.pc + 1 }) ∧
    ((∃ v ∈ d.nums, v.isFinite = false) →
      exec .trig s = .next { s with fault := 5, finfo := 0x2000, run := .fault })

/-- R172: while Idle a DRUM op copies its input to its output and changes no drum state. -/
def Obligations.DrumIdlePassesThrough : Prop :=
  ∀ (s : State) (rd rs : Reg), s.drum.on = false → (s.reg rs).isFinite = true →
    exec (.drum rd rs) s = .next { s with regs := s.regs.set rd (s.reg rs), pc := s.pc + 1 }

/-- R173: the Active update, formula by formula; a value written that is not finite raises `NumInvalid`
(R301).  Every write of R173 counts, also the phase `p` that a wrap writes again, and no value of a
computation that is not written (read so from R301 and R73, log entry 25). -/
def Obligations.DrumActiveSample : Prop :=
  ∀ (s : State) (rd rs : Reg), s.drum.on = true →
    let o := s.num
    let c := s.cfg.drum
    let d := s.drum
    let x := s.reg rs
    let out := o.add (o.mul x (o.sub (o.ofDec 1) d.vol)) (o.mul (o.sin d.phase) d.vol)
    let v := o.sub d.vol (o.mul (o.ofDec 2) d.vdec)
    let vol := if c.len ≤ 2 * d.i then (if o.lt v (o.ofDec 0) = true then o.ofNat 0 else v) else d.vol
    let g := o.div (o.mul d.fm (o.div (o.ofDec 16) (o.ofNat (d.i + 1)))) c.fmNorm
    let p := o.add d.phase (o.mul d.freq (o.add (o.ofDec 1) (o.mul g (o.cos d.phase))))
    let freq := if o.lt c.floor d.freq = true then o.sub d.freq d.fdec else o.mul d.freq c.fmul
    let tau := o.mul (o.ofDec 2) o.pi
    let m := o.sub d.fm (o.ofDec 1)
    let d' : Drum :=
      if o.lt tau p = true then
        ⟨decide (d.i + 1 ≠ c.len), d.i + 1, o.sub p tau, freq, vol, d.vdec, o.mul freq c.fdecK,
          if o.lt m (o.ofDec 0) = true then o.ofNat 0 else m⟩
      else ⟨decide (d.i + 1 ≠ c.len), d.i + 1, p, freq, vol, d.vdec, d.fdec, d.fm⟩
    let writes := (if c.len ≤ 2 * d.i then [d'.vol] else []) ++ [p, d'.freq] ++
      (if o.lt tau p = true then [d'.phase, d'.fm, d'.fdec] else []) ++ [out]
    ((∀ v ∈ writes, v.isFinite = true) →
      exec (.drum rd rs) s = .next { s with
        drum := d', regs := s.regs.set rd out, pc := s.pc + 1 }) ∧
    ((∃ v ∈ writes, v.isFinite = false) →
      exec (.drum rd rs) s = .next { s with fault := 5, finfo := encode (.drum rd rs), run := .fault })

/-- R177: in the exact domain (the real numbers, log entry 3), after a trigger exactly `DRUM_LEN` DRUM ops are
Active, and from then on the voice is Idle. -/
def Obligations.DrumLastsItsLength : Prop :=
  ∀ (s : State) (rd rs : Reg) (k : Nat), s.cfg.num = .exact → s.drum.on = true → s.drum.i = 0 →
    0 < s.cfg.drum.len → (s.reg rs).isFinite = true →
    ∃ t, execList (List.replicate k (.drum rd rs)) s = .next t ∧
      (t.drum.on = true ↔ k < s.cfg.drum.len) ∧ t.drum.i = min k s.cfg.drum.len

/-! ## Chorus-saw -/

/-- R192, R191: TGT writes the five target increments `f * m_k` and the target volume of its own voice,
and nothing else.  That a value that is not finite raises `NumInvalid` is the model's choice (log entry 12):
R301 says so of every op, R192 lists no exception. -/
def Obligations.TgtSetsTargets : Prop :=
  ∀ (s : State) (v : Voice) (rd rs : Reg),
    let o := s.num
    let f := o.mul (match v with | .bass => s.cfg.sawBass.fund | .melody => s.cfg.sawMel.fund) (s.reg rd)
    let m0 := o.ofNat 1
    let m1 := o.add m0 (o.ofDec (505/1000))
    let m2 := o.add m1 (o.ofDec (505/1000))
    let m3 := o.add m2 (o.ofDec (505/1000))
    let m4 := o.add m3 (o.ofDec (505/1000))
    let tinc : Vector NumVal 5 := #v[o.mul f m0, o.mul f m1, o.mul f m2, o.mul f m3, o.mul f m4]
    ((∀ x ∈ s.reg rs :: tinc.toList, x.isFinite = true) →
      (v = .bass → exec (.tgt v rd rs) s = .next { s with
        sawBass := { s.sawBass with tinc := tinc, tvol := s.reg rs }, pc := s.pc + 1 }) ∧
      (v = .melody → exec (.tgt v rd rs) s = .next { s with
        sawMel := { s.sawMel with tinc := tinc, tvol := s.reg rs }, pc := s.pc + 1 })) ∧
    ((∃ x ∈ s.reg rs :: tinc.toList, x.isFinite = false) →
      exec (.tgt v rd rs) s = .next { s with fault := 5, finfo := encode (.tgt v rd rs), run := .fault })

/-- R193: SAW smooths, steps the bank, shapes and filters, formula by formula; it writes all of its own
voice but the targets; a value written that is not finite raises `NumInvalid` (R301). -/
def Obligations.SawSample : Prop :=
  ∀ (s : State) (v : Voice) (rd : Reg),
    let o := s.num
    let w := s.saw v
    let k : SawCfg := match v with | .bass => s.cfg.sawBass | .melody => s.cfg.sawMel
    let inc := Vector.ofFn fun j : Fin 5 => ema o w.inc[j] w.tinc[j]
    let vol := ema o w.vol w.tvol
    let sum := o.add (o.add (o.add (o.add (o.add (o.ofNat 0) (o.cos w.phase[0])) (o.cos w.phase[1]))
      (o.cos w.phase[2])) (o.cos w.phase[3])) (o.cos w.phase[4])
    let phase := Vector.ofFn fun j : Fin 5 =>
      if o.lt o.pi (o.add w.phase[j] inc[j]) = true then o.sub (o.add w.phase[j] inc[j]) o.pi
      else o.add w.phase[j] inc[j]
    let shaped := o.mul (o.mul sum (o.abs sum)) vol
    let c := o.add k.cutMid (o.mul k.cutDepth (o.sin (o.div
      (o.mul (o.mul (o.ofDec 2) o.pi) (o.ofNat s.n)) (o.mul s.cfg.tickInterval k.lfoTicks))))
    let lo := o.add w.lo (o.mul (o.sub shaped w.lo) c)
    let xlo := o.add w.xlo (o.mul (o.sub lo w.xlo) c)
    let w' : Saw := ⟨phase, inc, w.tinc, vol, w.tvol, lo, xlo⟩
    let writes := inc.toList ++ phase.toList ++ [vol, lo, xlo]
    ((∀ x ∈ writes, x.isFinite = true) →
      (v = .bass → exec (.saw v rd) s = .next { s with
        sawBass := w', regs := s.regs.set rd xlo, pc := s.pc + 1 }) ∧
      (v = .melody → exec (.saw v rd) s = .next { s with
        sawMel := w', regs := s.regs.set rd xlo, pc := s.pc + 1 })) ∧
    ((∃ x ∈ writes, x.isFinite = false) →
      exec (.saw v rd) s = .next { s with fault := 5, finfo := encode (.saw v rd), run := .fault })

/-- R198: in the exact domain (the real numbers, log entry 3) a voice with zero volume, target volume and
filters is silent and stays so, whatever its phases and increments are. -/
def Obligations.SawSilentUntilTargeted : Prop :=
  ∀ (s : State) (v : Voice) (rd : Reg), s.cfg.num = .exact →
    toReal (s.saw v).vol = 0 → toReal (s.saw v).tvol = 0 → toReal (s.saw v).lo = 0 →
    toReal (s.saw v).xlo = 0 →
    ∃ t, exec (.saw v rd) s = .next t ∧ toReal (t.reg rd) = 0 ∧ toReal (t.saw v).vol = 0 ∧
      (t.saw v).tvol = (s.saw v).tvol ∧ toReal (t.saw v).lo = 0 ∧ toReal (t.saw v).xlo = 0 ∧
      (∀ r, r ≠ rd → t.reg r = s.reg r) ∧ (∀ u, u ≠ v → t.saw u = s.saw u)

/-- R126, R127, R39: in the exact domain (the real numbers, log entry 3), with phases, increments and targets
in `[0, PI]`, a SAW op keeps the phases and the increments there; each new phase is the old one plus the new
increment, less PI where that is strictly above PI; and the sum of any bank is the sum of the cosines of its
phases, so it lies in `[-N, N]`. -/
def Obligations.SawPhasesStayInHalfTurn : Prop :=
  (∀ (s t : State) (v : Voice) (rd : Reg), s.cfg.num = .exact →
    (∀ j : Fin 5, inHalfTurn (s.saw v).phase[j] ∧ inHalfTurn (s.saw v).inc[j] ∧
      inHalfTurn (s.saw v).tinc[j]) →
    exec (.saw v rd) s = .next t →
    ∀ j : Fin 5, inHalfTurn (t.saw v).phase[j] ∧ inHalfTurn (t.saw v).inc[j] ∧
      let p := toReal (s.saw v).phase[j] + toReal (t.saw v).inc[j]
      toReal (t.saw v).phase[j] = if Real.pi < p then p - Real.pi else p) ∧
  ∀ (k : Nat) (phase inc : Vector NumVal k),
    toReal (oscBankSum exactOps phase inc) =
      ((List.finRange k).map fun j => Real.cos (toReal phase[j])).sum ∧
    -(k : ℝ) ≤ toReal (oscBankSum exactOps phase inc) ∧ toReal (oscBankSum exactOps phase inc) ≤ k

/-- R122: over the real numbers (log entry 3), with the target held, the gap of the smoother shrinks by 31/32
a sample and never closes. -/
def Obligations.SmootherConvergesGeometrically : Prop :=
  ∀ (c t : NumVal) (n : Nat), let q := toReal ((fun x => ema exactOps x t)^[n] c)
    q - toReal t = (31/32) ^ n * (toReal c - toReal t) ∧ (toReal c ≠ toReal t → q ≠ toReal t)

/-! ## Hi-hat -/

/-- R211: ARM sets the volume and nothing else. -/
def Obligations.ArmSetsVolume : Prop :=
  ∀ s : State, s.cfg.hat.vol0.isFinite = true →
    exec .arm s = .next { s with hat := { s.hat with vol := s.cfg.hat.vol0 }, pc := s.pc + 1 }

/-- R214, R215: one lane of the hi-hat: it asks for a draw when it wrapped or its decayed increment is
below the floor; a draw that is a multiple of 10 takes a second draw, which chooses `3 * (r2 mod 4)`
divisions. -/
def Obligations.HatLaneDraws : Prop :=
  ∀ (o : NumOps) (c : HatCfg) (rng : RngStream) (phase inc : NumVal) (idx : Nat),
    let p := o.add phase inc
    let wrapped := o.lt o.pi p
    let dec := o.mul inc c.incDecay
    let l := hatLane o c rng phase inc idx
    l.y = o.cos phase ∧ l.phase = (if wrapped = true then o.sub p o.pi else p) ∧
    (wrapped = false ∧ o.lt dec c.incFloor = false → l.inc = dec ∧ l.idx = idx) ∧
    (wrapped = true ∨ o.lt dec c.incFloor = true →
      (rngAt rng idx % 10 ≠ 0 → l.inc = dec ∧ l.idx = idx + 1) ∧
      (rngAt rng idx % 10 = 0 →
        l.inc = (fun f => o.div f c.semi)^[3 * (rngAt rng (idx + 1) % 4)] c.baseInc ∧ l.idx = idx + 2))

/-- R213: HAT steps the four lanes in order, each drawing where the one before stopped, then comb,
high-pass and volume; it writes the hi-hat, its destination and the draw counter only; a value written that
is not finite raises `NumInvalid` (R301).  Every write of R213 counts, also the decayed increment that a hit
writes again, and no value of a computation that is not written (read so from R301 and R73, log entry 25). -/
def Obligations.HatSample : Prop :=
  ∀ (s : State) (rd : Reg),
    let o := s.num
    let c := s.cfg.hat
    let h := s.hat
    let l0 := hatLane o c s.rng h.phase[0] h.inc[0] s.rngIdx
    let l1 := hatLane o c s.rng h.phase[1] h.inc[1] l0.idx
    let l2 := hatLane o c s.rng h.phase[2] h.inc[2] l1.idx
    let l3 := hatLane o c s.rng h.phase[3] h.inc[3] l2.idx
    let acc := o.add (o.add (o.add (o.add (o.ofNat 0) l0.y) l1.y) l2.y) l3.y
    let y := o.add acc (o.mul (memRead s.zero h.comb h.cw) c.combFb)
    let hp := o.add h.hp (o.mul (o.sub y h.hp) c.hpC)
    let out := o.mul (o.sub y hp) h.vol
    let phase : Vector NumVal 4 := #v[l0.phase, l1.phase, l2.phase, l3.phase]
    let decayed := h.inc.toList.map fun f => o.mul f c.incDecay
    let inc : Vector NumVal 4 := #v[l0.inc, l1.inc, l2.inc, l3.inc]
    let vol := o.mul h.vol (o.ofDec (9995/10000))
    let writes := phase.toList ++ decayed ++ inc.toList ++ [y, hp, out, vol]
    ((∀ x ∈ writes, x.isFinite = true) →
      exec (.hat rd) s = .next { s with
        hat := ⟨phase, inc, memWrite s.zero h.comb h.cw y, (h.cw + 1) % 128, hp, vol⟩,
        rngIdx := l3.idx, regs := s.regs.set rd out, pc := s.pc + 1 }) ∧
    ((∃ x ∈ writes, x.isFinite = false) →
      exec (.hat rd) s = .next { s with fault := 5, finfo := encode (.hat rd), run := .fault })

/-- R218: in the exact domain (the real numbers, log entry 3) a hi-hat of volume 0 gives 0 and stays at volume
0. -/
def Obligations.HatSilentUnarmed : Prop :=
  ∀ (s : State) (rd : Reg), s.cfg.num = .exact → s.cfg.hat.baseInc.isFinite = true →
    toReal s.hat.vol = 0 →
    ∃ t, exec (.hat rd) s = .next t ∧ toReal (t.reg rd) = 0 ∧ toReal t.hat.vol = 0

/-- R29: only NOISE and HAT draw; a NOISE that completes takes 2 draws, a HAT between 0 and 8. -/
def Obligations.DrawsOfEachOp : Prop :=
  ∀ (i : Instr) (s t : State), s.run = .run → exec i s = .next t →
    s.rngIdx ≤ t.rngIdx ∧ t.rngIdx ≤ s.rngIdx + 8 ∧
    ((∀ rd, i ≠ .hat rd) → (∀ rd, i ≠ .noise rd) → t.rngIdx = s.rngIdx) ∧
    (∀ rd, i = .noise rd → t.run = .run → t.rngIdx = s.rngIdx + 2)

/-! ## Delay line -/

/-- R231: DLY, with what every element of the buffer reads as afterwards. -/
def Obligations.DlyEchoes : Prop :=
  ∀ (s : State) (rd rs : Reg),
    let o := s.num
    let v := o.add (o.mul (s.reg rs) (o.ofDec (4/10)))
      (o.mul (memRead s.zero s.dly.buf s.dly.dw) (o.ofDec (7/10)))
    (encode (.dly rd rs)).extractLsb' 8 8 = 0x50 ∧
    (v.isFinite = true → ∃ m : Memory,
      exec (.dly rd rs) s = .next { s with
        dly := ⟨m, (s.dly.dw + 1) % s.cfg.dlLen⟩, regs := s.regs.set rd v, pc := s.pc + 1 } ∧
      (Memory.wf s.zero s.dly.buf → Memory.wf s.zero m ∧
        ∀ a, memRead s.zero m a = if a = s.dly.dw then v else memRead s.zero s.dly.buf a)) ∧
    (v.isFinite = false →
      exec (.dly rd rs) s = .next { s with fault := 5, finfo := encode (.dly rd rs), run := .fault })

/-- R78: the ring form is the shifting form: pushing an element drops the oldest and puts the new one at
the newest end, in the delay line, the comb and the stereo ring. -/
def Obligations.RingFormShifts : Prop :=
  ∀ (z v : NumVal) (m : Memory) (len w : Nat), 0 < len → w < len → Memory.wf z m →
    ringContents z len (memWrite z m w v) ((w + 1) % len) = (ringContents z len m w).tail ++ [v] ∧
    (ringContents z len m w).head? = some (memRead z m w)

/-- R232: over the real numbers (log entry 3), from an empty line, an impulse returns as `0.4 * 0.7^m` at op
`m * DL_LEN` and is 0 at every other op: the element the next DLY op would produce for input 0 after `k`
of them. -/
def Obligations.EchoImpulseResponse : Prop :=
  ∀ (len k : Nat), 0 < len →
    let push := fun (d : Dly) (x : Rat) => dlyPush exactOps len d (dlyOut exactOps d (.fin x))
    let d1 := push ⟨[], 0⟩ 1
    toReal (dlyOut exactOps ⟨[], 0⟩ (.fin 1)) = 4/10 ∧
    toReal (dlyOut exactOps ((fun d => push d 0)^[k] d1) (.fin 0)) =
      if len ∣ (k + 1) then 4/10 * (7/10) ^ ((k + 1) / len) else 0

/-! ## Sequencer -/

/-- R242: SEQ with no tick due clears `tk` and does nothing else; with one due it advances the clock by
the tick interval and performs the pattern actions of the ordinal before the increment. -/
def Obligations.SeqFiresDueTick : Prop :=
  ∀ s : State,
    (s.n < s.nextTick → exec .seq s = .next { s with tk := false, pc := s.pc + 1 }) ∧
    (s.nextTick ≤ s.n →
      let tpos := s.num.add s.tpos s.cfg.tickInterval
      let clocked := { s with
        tk := true, tick := s.tick + 1, tpos := tpos,
        nextTick := s.num.floorNat (s.num.add tpos (s.num.ofDec (1/2))) }
      (∀ x ∈ tpos :: patternWrites s.tick s, x.isFinite = true) →
        exec .seq s = .next { patternActions s.tick clocked with pc := s.pc + 1 })

/-- R244: the pattern actions by their tables: each unit is changed by its own table's entry and by
nothing else, and nothing but the four units changes. -/
def Obligations.PatternActionsByTable : Prop :=
  ∀ (s : State) (k : Nat),
    let hit := fun (p : Pattern Bool) => (p.table[k % p.period]?) = some true
    let aim := fun (v : Voice) (p : Pattern (Option Target)) (w : Saw) =>
      match p.table[k % p.period]? with
      | some (some t) => { w with
          tinc := partialTargets s.num (s.num.mul (sawCfg s.cfg v).fund t.tune), tvol := t.vol }
      | _ => w
    patternActions k s = { s with
      drum := if hit s.cfg.patDrum then drumTriggered s.num s.cfg.drum else s.drum
      hat := if hit s.cfg.patHat then { s.hat with vol := s.cfg.hat.vol0 } else s.hat
      sawBass := aim .bass s.cfg.patBass s.sawBass
      sawMel := aim .melody s.cfg.patMel s.sawMel }

/-- R245: in the exact domain (the real numbers, log entry 3), with a tick interval `I >= 1`, after `N` ticks
from reset the next boundary is `floor(N * I + 1/2)`, and boundaries strictly increase: no tick is skipped or
doubled. -/
def Obligations.TickBoundariesRoundMultiples : Prop :=
  ∀ (s : State) (N : Nat), s.cfg.num = .exact → 1 ≤ toReal s.cfg.tickInterval →
    s.tick = 0 → toReal s.tpos = 0 → s.nextTick = 0 →
    let t := tickClock^[N] s
    let I := toReal s.cfg.tickInterval
    t.tick = N ∧ toReal t.tpos = N * I ∧ (t.nextTick : Int) = ⌊(N : ℝ) * I + 1/2⌋ ∧
      t.nextTick < (tickClock t).nextTick

/-- R247: ENDS counts the sample and goes to slot 0, or to DONE with `pc` kept. -/
def Obligations.EndsCountsSample : Prop :=
  encode .ends = 0x6100 ∧ ∀ s : State,
    (s.n + 1 = s.cfg.nSamples → exec .ends s = .next { s with n := s.n + 1, run := .done }) ∧
    (s.n + 1 ≠ s.cfg.nSamples → exec .ends s = .next { s with n := s.n + 1, pc := 0 })

/-! ## Mixer and output -/

/-- R261: NOISE takes the gate draw, then the value draw, and overwrites its destination. -/
def Obligations.NoiseDrawsGateThenValue : Prop :=
  ∀ (s : State) (rd : Reg),
    let o := s.num
    let c := s.cfg.noise
    let g := rngAt s.rng s.rngIdx
    let r := rngAt s.rng (s.rngIdx + 1)
    let u := o.sub (o.div (o.ofNat (r % c.modulus)) (o.ofNat c.modulus)) (o.ofDec (1/2))
    let v := o.mul u (if g % c.gateMod = 0 then c.burstAmp else c.amp)
    v.isFinite = true →
      exec (.noise rd) s = .next { s with
        rngIdx := s.rngIdx + 2, regs := s.regs.set rd v, pc := s.pc + 1 }

/-- R265: RPUSH writes the ring at `ring.rw`, advances it, and changes no register; every other element
reads as before. -/
def Obligations.RpushWritesRing : Prop :=
  ∀ (s : State) (rs : Reg), (s.reg rs).isFinite = true → ∃ m : Memory,
    exec (.rpush rs) s = .next { s with
      ring := ⟨m, (s.ring.rw + 1) % s.cfg.ringLen⟩, pc := s.pc + 1 } ∧
    (Memory.wf s.zero s.ring.buf → Memory.wf s.zero m ∧
      ∀ a, memRead s.zero m a = if a = s.ring.rw then s.reg rs else memRead s.zero s.ring.buf a)

/-- R64: after a push `h(0)` is the value pushed and `h(j + 1)` is what `h(j)` was. -/
def Obligations.RingHistoryShifts : Prop :=
  ∀ (o : NumOps) (len j : Nat) (r : StereoRing) (v : NumVal), r.rw < len → Memory.wf (o.ofNat 0) r.buf →
    ringHist (o.ofNat 0) len (ringPush o len r v) 0 = v ∧
    (j + 1 < len →
      ringHist (o.ofNat 0) len (ringPush o len r v) (j + 1) = ringHist (o.ofNat 0) len r j)

/-- R266: IMG writes the current sample minus the mean of its channel's window and changes no ring. -/
def Obligations.ImgSubtractsWindowMean : Prop :=
  ∀ (s : State) (c : Channel) (rd : Reg),
    let o := s.num
    let w : Window := match c with | .left => s.cfg.stL | .right => s.cfg.stR
    let h := fun j => memRead s.zero s.ring.buf ((s.ring.rw + s.cfg.ringLen - 1 - j) % s.cfg.ringLen)
    let a := ((List.range w.len).map fun j => h (w.off + j)).foldl o.add (o.ofNat 0)
    let v := o.sub (h 0) (o.div a (o.ofNat w.len))
    v.isFinite = true →
      exec (.img c rd) s = .next { s with regs := s.regs.set rd v, pc := s.pc + 1 }

/-- R267: in the exact domain (the real numbers, log entry 3) a constant history has no image. -/
def Obligations.ConstantSignalHasNoImage : Prop :=
  ∀ (s : State) (c : Channel) (rd : Reg) (x : ℝ), s.cfg.num = .exact →
    let w := windowCfg s.cfg c
    0 < w.len → toReal (ringHist s.zero s.cfg.ringLen s.ring 0) = x →
    (∀ j, w.off ≤ j → j < w.off + w.len → toReal (ringHist s.zero s.cfg.ringLen s.ring j) = x) →
    ∃ v, exec (.img c rd) s = .next { s with regs := s.regs.set rd v, pc := s.pc + 1 } ∧ toReal v = 0

/-- ENC of a value in `[-1, 1]` appends the three bytes of `trunc_int(x * 5000000)` modulo `2^24`, least
significant first, and changes nothing else but `out_cnt` and `pc`. -/
def Obligations.EncEmitsThreeBytes : Prop :=
  ∀ (s : State) (rs : Reg),
    let o := s.num
    let x := s.reg rs
    let u := ((o.truncInt (o.mul x (o.ofDec 5000000))) % (2 ^ 24 : Int)).toNat
    o.lt x (o.neg (o.ofDec 1)) = false → o.lt (o.ofDec 1) x = false →
      exec (.enc rs) s = .next { s with
        out := s.out ++ [BitVec.ofNat 8 u, BitVec.ofNat 8 (u / 256), BitVec.ofNat 8 (u / 65536)],
        outCnt := s.outCnt + 3, pc := s.pc + 1 }

/-- R300: ENC of a value below -1 or above 1 raises `EncRange` with the register number; no byte is
emitted. -/
def Obligations.EncRangeFaults : Prop :=
  ∀ (s : State) (rs : Reg),
    s.num.lt (s.reg rs) (s.num.neg (s.num.ofDec 1)) = true ∨ s.num.lt (s.num.ofDec 1) (s.reg rs) = true →
    exec (.enc rs) s = .next { s with fault := 6, finfo := BitVec.ofNat 16 rs.val, run := .fault }

/-- R272: over the real numbers (log entry 3), for a sample in `[-1, 1]`, the scaled value stays within
5,000,000, and a consumer recovers it by sign extension of the three bytes; the error is below one
quantum. -/
def Obligations.EncodedSampleRecovers : Prop :=
  ∀ x : NumVal, -1 ≤ toReal x → toReal x ≤ 1 →
    let q := exactOps.truncInt (exactOps.mul x (exactOps.ofDec 5000000))
    let u := encQuantum exactOps x
    q ≤ 5000000 ∧ -5000000 ≤ q ∧ u.toInt = q ∧
    (∃ b0 b1 b2 : Byte, encBytes u = [b0, b1, b2] ∧
      u.toNat = b0.toNat + 256 * b1.toNat + 65536 * b2.toNat) ∧
    |toReal x - (q : ℝ) / 5000000| < 1 / 5000000

/-! ## Whole-machine rules -/

/-- Every op completes or raises a fault of the spec: no op is refused and none ends the machine. -/
def Obligations.EveryOpHasNextState : Prop := ∀ (i : Instr) (s : State), ∃ t, exec i s = .next t

/-- R291: faults are precise: an op that ends in FAULT has written the three fault registers and nothing
else; only `NumInvalid`, with the op's word, and `EncRange`, of ENC, arise in an op. -/
def Obligations.FaultsArePrecise : Prop :=
  ∀ (i : Instr) (s t : State), s.run = .run → exec i s = .next t → t.run = .fault →
    t = { s with fault := 5, finfo := encode i, run := .fault } ∨
    ∃ rs, i = .enc rs ∧ t = { s with fault := 6, finfo := BitVec.ofNat 16 rs.val, run := .fault }

/-- R37, R21: no op reaches a unit's state other than its own unit's, but SEQ, which performs the
triggers; the signal registers change at the destination only; only HAT and NOISE move `rng_idx`; `RUN` changes
at a fault or an ENDS only, `FAULT` and `FINFO` at a fault only; the inputs never change; `pc` may change. -/
def Obligations.UnitsAreIsolated : Prop :=
  ∀ (i : Instr) (s t : State), exec i s = .next t →
    (t.drum ≠ s.drum → i = .trig ∨ i = .seq ∨ ∃ rd rs, i = .drum rd rs) ∧
    (∀ v, t.saw v ≠ s.saw v → i = .seq ∨ (∃ rd rs, i = .tgt v rd rs) ∨ ∃ rd, i = .saw v rd) ∧
    (t.hat ≠ s.hat → i = .arm ∨ i = .seq ∨ ∃ rd, i = .hat rd) ∧
    (t.dly ≠ s.dly → ∃ rd rs, i = .dly rd rs) ∧
    (t.ring ≠ s.ring → ∃ rs, i = .rpush rs) ∧
    (∀ c, t.xov c ≠ s.xov c → ∃ rd rs, i = .xov c rd rs) ∧
    (t.out ≠ s.out ∨ t.outCnt ≠ s.outCnt → ∃ rs, i = .enc rs) ∧
    (t.n ≠ s.n → i = .ends) ∧
    (t.tick ≠ s.tick ∨ t.tpos ≠ s.tpos ∨ t.nextTick ≠ s.nextTick ∨ t.tk ≠ s.tk → i = .seq) ∧
    (∀ r, t.reg r ≠ s.reg r → (∃ rs, i = .mov r rs ∨ i = .acc r rs ∨ i = .clamp r rs ∨ i = .drum r rs ∨
      i = .dly r rs ∨ ∃ c, i = .xov c r rs) ∨ (∃ v, i = .saw v r) ∨ i = .hat r ∨ i = .noise r ∨
      ∃ c, i = .img c r) ∧
    (t.rngIdx ≠ s.rngIdx → (∃ rd, i = .hat rd) ∨ ∃ rd, i = .noise rd) ∧
    (t.run ≠ s.run → t.run = .fault ∨ i = .ends ∧ t.run = .done) ∧
    (t.fault ≠ s.fault ∨ t.finfo ≠ s.finfo → t.run = .fault) ∧
    t.cfg = s.cfg ∧ t.rng = s.rng ∧ t.sinkReady = s.sinkReady ∧ t.cmd = s.cmd

/-- R66: no byte once emitted changes: but for RESET, every step only appends to `OUT`, and at most three
bytes. -/
def Obligations.OutputOnlyGrows : Prop :=
  ∀ s t : State, step s = .next t → (∀ rest, s.cmd ≠ .reset :: rest) →
    s.out <+: t.out ∧ t.out.length ≤ s.out.length + 3

/-- R27: the transitions of the run state. -/
def Obligations.RunStateTransitions : Prop :=
  ∀ s t : State, step s = .next t →
    t.run = s.run ∨
    (s.run = .idle ∧ (t.run = .run ∨ t.run = .fault) ∧ ∃ rest, s.cmd = .start :: rest) ∨
    (s.run = .run ∧ t.run = .done ∧ ∃ w, s.cfg.program[s.pc]? = some w ∧ decode w = .ok .ends) ∨
    (s.run = .run ∧ t.run = .fault) ∨
    (t.run = .idle ∧ ∃ rest, s.cmd = .reset :: rest)

/-! ## Invariants that every step keeps -/

/-- R301: every `NUM` element of the state stays a finite number, in every numeric domain whose `of_nat(0)` and
`of_dec(0.3)`, the numbers of the reset state, are finite. -/
def Obligations.NumbersStayFinite : Prop :=
  ∀ s t : State, s.allFinite → step s = .next t → t.allFinite

/-- The three buffers keep their canonical form (the model's, log entry 14). -/
def Obligations.BuffersStayCanonical : Prop :=
  ∀ s t : State, s.buffersWf → step s = .next t → t.buffersWf

/-- R60: every buffer index stays inside its buffer, and the drum's counter inside its duration. -/
def Obligations.IndicesStayInRange : Prop :=
  ∀ s t : State, s.indicesInRange → step s = .next t → t.indicesInRange

/-- R24, R27, R28, R30, R298: the control registers stay consistent; in particular `IllegalOp` cannot
occur after a successful START. -/
def Obligations.ControlStaysConsistent : Prop :=
  ∀ s t : State, s.controlOk → step s = .next t → t.controlOk

/-- The status port shows the ten registers of R26, and there is no other (log entry 23). -/
def Obligations.StatusPortShowsRegisters : Prop :=
  ∀ s : State,
    readStatus s 0 = some (match s.run with | .idle => 0 | .run => 1 | .done => 2 | .fault => 3) ∧
    readStatus s 1 = some s.fault.toNat ∧ readStatus s 2 = some s.finfo.toNat ∧
    readStatus s 3 = some s.n ∧ readStatus s 4 = some s.tick ∧ readStatus s 5 = some s.nextTick ∧
    readStatus s 6 = some (if s.tk = true then 1 else 0) ∧ readStatus s 7 = some s.pc ∧
    readStatus s 8 = some s.outCnt ∧ readStatus s 9 = some s.rngIdx ∧
    ∀ k, 10 ≤ k → readStatus s k = none
end

