-- ==== Sys2Proof/Laws/Memory.lean ====
section
/-! SUPPORT. The laws of the buffers: what a read after a write gives, and that a write keeps the canonical
form (20_memory.md R60, R73). -/

namespace Sys2Proof.Machine

variable {z : NumVal}

/-- The empty buffer, every element at its reset value, is canonical. -/
theorem memWf_nil : Memory.wf z [] := by simp [Memory.wf]

@[simp] theorem memRead_nil (a : Nat) : memRead z [] a = z := rfl

theorem memWf_cons {p : Nat × NumVal} {m : Memory} :
    Memory.wf z (p :: m) ↔ (∀ q ∈ m, p.1 < q.1) ∧ p.2 ≠ z ∧ Memory.wf z m := by
  simp only [Memory.wf, List.pairwise_cons, List.mem_cons, forall_eq_or_imp]
  constructor
  · rintro ⟨⟨h1, h2⟩, h3, h4⟩; exact ⟨h1, h3, h2, h4⟩
  · rintro ⟨h1, h3, h2, h4⟩; exact ⟨⟨h1, h2⟩, h3, h4⟩

/-- An index below every listed one reads as the reset value. -/
theorem memRead_below {m : Memory} {a : Nat} (h : ∀ q ∈ m, a < q.1) : memRead z m a = z := by
  induction m with
  | nil => rfl
  | cons p m ih =>
    have hp : a ≠ p.1 := Nat.ne_of_lt (h p (List.mem_cons_self ..))
    simp [memRead, hp, ih fun q hq => h q (List.mem_cons_of_mem _ hq)]

/-- Every index a write leaves listed was listed or is the index written. -/
theorem mem_memWrite {m : Memory} {a : Nat} {v : NumVal} {q : Nat × NumVal}
    (h : q ∈ memWrite z m a v) : q ∈ m ∨ q = (a, v) := by
  induction m with
  | nil =>
    unfold memWrite at h
    split at h <;> simp_all
  | cons p m ih =>
    unfold memWrite at h
    split at h
    · split at h <;> simp_all; tauto
    · split at h
      · split at h <;> simp_all; tauto
      · rcases List.mem_cons.mp h with h | h
        · simp [h]
        · rcases ih h with h | h <;> simp [h]

/-- A write keeps the canonical form. -/
theorem memWf_memWrite {m : Memory} (h : Memory.wf z m) (a : Nat) (v : NumVal) :
    Memory.wf z (memWrite z m a v) := by
  induction m with
  | nil =>
    unfold memWrite
    split
    · exact memWf_nil
    · simp_all [Memory.wf]
  | cons p m ih =>
    obtain ⟨h1, h2, h3⟩ := memWf_cons.mp h
    unfold memWrite
    split
    · split
      · exact h
      · rename_i hlt hv
        refine memWf_cons.mpr ⟨?_, hv, h⟩
        intro q hq
        rcases List.mem_cons.mp hq with rfl | hq
        · exact hlt
        · exact Nat.lt_trans hlt (h1 q hq)
    · split
      · split
        · exact h3
        · rename_i ha hv
          subst ha
          exact memWf_cons.mpr ⟨h1, hv, h3⟩
      · rename_i hlt hne
        refine memWf_cons.mpr ⟨?_, h2, ih h3⟩
        intro q hq
        rcases mem_memWrite hq with hq | rfl
        · exact h1 q hq
        · show p.1 < a
          omega

/-- A read after a write: the value written at its index, the old value at every other. -/
theorem memRead_memWrite {m : Memory} (h : Memory.wf z m) (a b : Nat) (v : NumVal) :
    memRead z (memWrite z m a v) b = if b = a then v else memRead z m b := by
  induction m with
  | nil =>
    unfold memWrite
    split <;> simp_all [memRead]
  | cons p m ih =>
    obtain ⟨h1, h2, h3⟩ := memWf_cons.mp h
    obtain ⟨c, w⟩ := p
    unfold memWrite
    split
    · rename_i hlt
      have hbelow : memRead z ((c, w) :: m) a = z :=
        memRead_below fun q hq => by
          rcases List.mem_cons.mp hq with rfl | hq
          · exact hlt
          · exact Nat.lt_trans hlt (h1 q hq)
      split
      · by_cases hb : b = a <;> simp_all
      · rw [memRead]
    · split
      · rename_i hlt hac
        subst hac
        split
        · by_cases hb : b = a
          · simp_all [memRead_below h1]
          · simp [memRead, hb]
        · by_cases hb : b = a <;> simp [memRead, hb]
      · rename_i hlt hne
        by_cases hbc : b = c
        · have : b ≠ a := fun e => hne (e ▸ hbc)
          simp [memRead, hbc, Ne.symm hne]
        · simp [memRead, hbc, ih h3]

/-- Equal reads mean equal buffers: the canonical form is unique. -/
theorem memory_ext {m k : Memory} (hm : Memory.wf z m) (hk : Memory.wf z k)
    (h : ∀ a, memRead z m a = memRead z k a) : m = k := by
  induction m generalizing k with
  | nil =>
    cases k with
    | nil => rfl
    | cons p k =>
      obtain ⟨-, h2, -⟩ := memWf_cons.mp hk
      have := h p.1
      simp [memRead] at this
      exact absurd this.symm h2
  | cons p m ih =>
    obtain ⟨h1, h2, h3⟩ := memWf_cons.mp hm
    cases k with
    | nil =>
      have := h p.1
      simp [memRead] at this
      exact absurd this h2
    | cons q k =>
      obtain ⟨k1, k2, k3⟩ := memWf_cons.mp hk
      have hpq : p.1 = q.1 := by
        rcases Nat.lt_trichotomy p.1 q.1 with hlt | heq | hlt
        · have hb : memRead z (q :: k) p.1 = z := memRead_below fun r hr => by
            rcases List.mem_cons.mp hr with rfl | hr
            · exact hlt
            · exact Nat.lt_trans hlt (k1 r hr)
          have := h p.1
          rw [hb] at this
          simp [memRead] at this
          exact absurd this h2
        · exact heq
        · have hb : memRead z (p :: m) q.1 = z := memRead_below fun r hr => by
            rcases List.mem_cons.mp hr with rfl | hr
            · exact hlt
            · exact Nat.lt_trans hlt (h1 r hr)
          have := h q.1
          rw [hb] at this
          simp [memRead] at this
          exact absurd this.symm k2
      have hval : p.2 = q.2 := by
        have := h p.1
        simpa [memRead, hpq] using this
      have htail : m = k := by
        refine ih h3 k3 fun a => ?_
        by_cases ha : a = p.1
        · subst ha
          rw [memRead_below h1, memRead_below fun r hr => hpq ▸ k1 r hr]
        · have := h a
          have ha' : a ≠ q.1 := hpq ▸ ha
          simpa [memRead, ha, ha'] using this
      rw [htail, Prod.ext hpq hval]

end Sys2Proof.Machine
end

