-- ==== Sys2Proof/Laws/RealNum.lean ====
section
/-! SUPPORT. The exact domain is the real numbers: every approximation of a term holds its number, its radius
goes to zero, so the order, the floor and the reciprocal decided through approximations are those of the
reals, and each function of `exactOps` computes what it is named after. -/

namespace Sys2Proof

open Filter Topology

/-! ## Balls -/

/-- A ball holds the real number `x`. -/
def Ball.Holds (b : Ball) (x : ℝ) : Prop := |x - b.mid| ≤ b.rad

theorem Ball.Holds.rad_nonneg {b : Ball} {x : ℝ} (h : b.Holds x) : (0 : ℝ) ≤ b.rad :=
  (abs_nonneg _).trans h

theorem rat_floor_eq (q : Rat) : q.floor = ⌊(q : ℝ)⌋ := by
  rw [Rat.floor_cast]
  rfl

theorem holds_roundBall (n : Nat) {b : Ball} {x : ℝ} (h : b.Holds x) : (roundBall n b).Holds x := by
  have hp : (0 : ℝ) < 2 ^ n := by positivity
  have h1 := Int.floor_le ((b.mid : ℝ) * 2 ^ n)
  have h2 := Int.lt_floor_add_one ((b.mid : ℝ) * 2 ^ n)
  have h3 := Int.lt_floor_add_one ((b.rad : ℝ) * 2 ^ n)
  have e1 : (b.mid * 2 ^ n).floor = ⌊(b.mid : ℝ) * 2 ^ n⌋ := by rw [rat_floor_eq]; push_cast; rfl
  have e2 : (b.rad * 2 ^ n).floor = ⌊(b.rad : ℝ) * 2 ^ n⌋ := by rw [rat_floor_eq]; push_cast; rfl
  unfold Ball.Holds at h ⊢
  simp only [roundBall, e1, e2]
  push_cast
  rw [le_div_iff₀ hp, ← abs_of_pos hp, ← abs_mul, abs_of_pos hp, sub_mul, div_mul_cancel₀ _ hp.ne']
  have h4 : |(x - b.mid) * 2 ^ n| ≤ b.rad * 2 ^ n := by
    rw [abs_mul, abs_of_pos hp]
    exact mul_le_mul_of_nonneg_right h hp.le
  rw [abs_le] at h4 ⊢
  constructor <;> nlinarith [h4.1, h4.2]

theorem holds_addBall {a b : Ball} {x y : ℝ} (ha : a.Holds x) (hb : b.Holds y) :
    (addBall a b).Holds (x + y) := by
  unfold Ball.Holds at *
  simp only [addBall]
  push_cast
  rw [abs_le] at *
  constructor <;> linarith [ha.1, ha.2, hb.1, hb.2]

theorem holds_mulBall {a b : Ball} {x y : ℝ} (ha : a.Holds x) (hb : b.Holds y) :
    (mulBall a b).Holds (x * y) := by
  have h0 := ha.rad_nonneg
  unfold Ball.Holds at *
  simp only [mulBall]
  push_cast
  have e : x * y - a.mid * b.mid = a.mid * (y - b.mid) + b.mid * (x - a.mid) + (x - a.mid) * (y - b.mid) := by
    ring
  rw [e]
  refine (abs_add_three _ _ _).trans ?_
  rw [abs_mul, abs_mul, abs_mul]
  gcongr

theorem apartBall_iff (b : Ball) : apartBall b = true ↔ (b.rad : ℝ) < |(b.mid : ℝ)| := by
  rw [apartBall, decide_eq_true_iff, ← Rat.cast_lt (K := ℝ), Rat.cast_abs]

theorem ne_zero_of_apart {b : Ball} {x : ℝ} (h : b.Holds x) (hb : apartBall b = true) : x ≠ 0 := by
  rintro rfl
  rw [apartBall_iff] at hb
  unfold Ball.Holds at h
  rw [zero_sub, abs_neg] at h
  linarith

theorem holds_invBall {b : Ball} {x : ℝ} (h : b.Holds x) (hb : apartBall b = true) :
    (invBall b).Holds x⁻¹ := by
  have hx := ne_zero_of_apart h hb
  have h0 := h.rad_nonneg
  rw [apartBall_iff] at hb
  unfold Ball.Holds at *
  have hm : (b.mid : ℝ) ≠ 0 := by
    intro e
    rw [e, abs_zero] at hb
    linarith
  have hmp := abs_pos.mpr hm
  have hxp : |(b.mid : ℝ)| - b.rad ≤ |x| := by
    have := abs_sub_abs_le_abs_sub (b.mid : ℝ) x
    rw [abs_sub_comm] at this
    linarith
  simp only [invBall]
  push_cast
  have e : x⁻¹ - (b.mid : ℝ)⁻¹ = -((x - b.mid) / (b.mid * x)) := by field_simp; ring
  rw [e, abs_neg, abs_div, abs_mul]
  gcongr

/-! ## pi -/

theorem arctanSum_eq (d k : Nat) : ((arctanSum d k : Rat) : ℝ) =
    ∑ i ∈ Finset.range k, (-1) ^ i * (((d : ℝ)⁻¹) ^ (2 * i + 1) / ((2 * i + 1 : ℕ) : ℝ)) := by
  induction k with
  | zero => simp [arctanSum]
  | succ k ih =>
    rw [Finset.sum_range_succ, ← ih, arctanSum]
    push_cast
    congr 1
    rw [inv_pow, div_eq_mul_inv, mul_inv]
    ring

/-- The first `k` terms of the series, `k` even, fall short of `arctan (1 / d)` by at most the next. -/
theorem arctanSum_bounds (d j : Nat) (hd : 1 < d) :
    ((arctanSum d (2 * j) : Rat) : ℝ) ≤ Real.arctan (d : ℝ)⁻¹ ∧
    Real.arctan (d : ℝ)⁻¹ ≤ ((arctanSum d (2 * j) : Rat) : ℝ) + ((d : ℝ) ^ (2 * (2 * j) + 1))⁻¹ := by
  have hd1 : (1 : ℝ) < d := by exact_mod_cast hd
  have hx0 : 0 ≤ (d : ℝ)⁻¹ := by positivity
  have hx1 : (d : ℝ)⁻¹ < 1 := inv_lt_one_of_one_lt₀ hd1
  have hs := (Real.hasSum_arctan (x := (d : ℝ)⁻¹) (by
    rw [Real.norm_eq_abs, abs_of_nonneg hx0]; exact hx1)).tendsto_sum_nat
  simp only [mul_div_assoc] at hs
  have ha : Antitone fun i : ℕ => ((d : ℝ)⁻¹) ^ (2 * i + 1) / ((2 * i + 1 : ℕ) : ℝ) := by
    intro i k hik
    have : ((d : ℝ)⁻¹) ^ (2 * k + 1) ≤ ((d : ℝ)⁻¹) ^ (2 * i + 1) :=
      pow_le_pow_of_le_one hx0 hx1.le (by omega)
    show _ / _ ≤ _ / _
    gcongr
  have hl := ha.alternating_series_le_tendsto hs j
  have hu := ha.tendsto_le_alternating_series hs j
  rw [arctanSum_eq]
  refine ⟨hl, hu.trans ?_⟩
  rw [Finset.sum_range_succ, pow_mul, neg_one_sq, one_pow, one_mul, inv_pow]
  have : ((d : ℝ) ^ (2 * (2 * j) + 1))⁻¹ / ((2 * (2 * j) + 1 : ℕ) : ℝ) ≤ ((d : ℝ) ^ (2 * (2 * j) + 1))⁻¹ := by
    apply div_le_self (by positivity)
    push_cast
    linarith [Nat.cast_nonneg (α := ℝ) j]
  linarith

theorem holds_piBall (n : Nat) : (piBall n).Holds Real.pi := by
  have hm := Real.four_mul_arctan_inv_5_sub_arctan_inv_239
  have h5 := arctanSum_bounds 5 (n / 8 + 2) (by norm_num)
  have h9 := arctanSum_bounds 239 (n / 8 + 2) (by norm_num)
  unfold Ball.Holds
  simp only [piBall]
  push_cast at h5 h9 ⊢
  rw [div_eq_mul_inv (16 : ℝ), div_eq_mul_inv (4 : ℝ), abs_le]
  have e : Real.pi = 16 * Real.arctan 5⁻¹ - 4 * Real.arctan 239⁻¹ := by linarith
  have p5 : (0 : ℝ) ≤ ((5 : ℝ) ^ (2 * (2 * (n / 8 + 2)) + 1))⁻¹ := by positivity
  have p9 : (0 : ℝ) ≤ ((239 : ℝ) ^ (2 * (2 * (n / 8 + 2)) + 1))⁻¹ := by positivity
  constructor <;> linarith [h5.1, h5.2, h9.1, h9.2]

/-! ## Sine and cosine -/

theorem expTerm_cast (x : Rat) (k : Nat) : ((expTerm x k : Rat) : ℝ) = (x : ℝ) ^ k / (k.factorial : ℝ) := by
  simp [expTerm]

/-- The two series together are the exponential one at an imaginary argument. -/
theorem cosSum_sinSum (x : Rat) (k : Nat) :
    ∑ m ∈ Finset.range (2 * k), ((x : ℂ) * Complex.I) ^ m / (m.factorial : ℂ) =
      ((cosSum x k : Rat) : ℂ) + ((sinSum x k : Rat) : ℂ) * Complex.I := by
  induction k with
  | zero => simp [cosSum, sinSum]
  | succ k ih =>
    rw [show 2 * (k + 1) = 2 * k + 1 + 1 by ring, Finset.sum_range_succ, Finset.sum_range_succ, ih]
    simp only [cosSum, sinSum, expTerm]
    push_cast
    have h2 : Complex.I ^ (2 * k) = (-1) ^ k := by rw [pow_mul, Complex.I_sq]
    rw [mul_pow, mul_pow, pow_succ Complex.I, h2]
    ring

theorem series_bound (x : Rat) (k : Nat) (h : 2 * |x| ≤ 2 * k + 1) :
    |Real.cos x - ((cosSum x k : Rat) : ℝ)| ≤ 2 * ((expTerm |x| (2 * k) : Rat) : ℝ) ∧
    |Real.sin x - ((sinSum x k : Rat) : ℝ)| ≤ 2 * ((expTerm |x| (2 * k) : Rat) : ℝ) := by
  have hn : ‖(x : ℂ) * Complex.I‖ = |(x : ℝ)| := by
    rw [norm_mul, Complex.norm_I, mul_one, ← Complex.ofReal_ratCast, Complex.norm_real, Real.norm_eq_abs]
  have hr : 2 * |(x : ℝ)| ≤ 2 * k + 1 := by
    have := (Rat.cast_le (K := ℝ)).mpr h
    push_cast at this
    exact this
  have hb := Complex.exp_bound' (x := (x : ℂ) * Complex.I) (n := 2 * k) (by
    rw [hn, div_le_iff₀ (by positivity)]
    push_cast
    linarith)
  rw [cosSum_sinSum, hn, ← Complex.ofReal_ratCast, Complex.exp_mul_I] at hb
  have he : Complex.cos ((x : ℝ) : ℂ) + Complex.sin ((x : ℝ) : ℂ) * Complex.I -
      (((cosSum x k : Rat) : ℂ) + ((sinSum x k : Rat) : ℂ) * Complex.I) =
      ((Real.cos x - (cosSum x k : Rat) : ℝ) : ℂ) + ((Real.sin x - (sinSum x k : Rat) : ℝ) : ℂ) * Complex.I := by
    push_cast
    ring
  rw [he] at hb
  rw [expTerm_cast]
  push_cast
  have hre := (Complex.abs_re_le_norm _).trans hb
  have him := (Complex.abs_im_le_norm _).trans hb
  simp only [Complex.add_re, Complex.mul_re, Complex.ofReal_re, Complex.ofReal_im, Complex.I_re, Complex.I_im,
    Complex.add_im, Complex.mul_im] at hre him
  constructor
  · refine le_trans (le_of_eq ?_) (hre.trans (le_of_eq ?_)) <;> ring_nf
  · refine le_trans (le_of_eq ?_) (him.trans (le_of_eq ?_)) <;> ring_nf

/-- Moving by whole turns keeps sine and cosine. -/
theorem holds_turnBall (n : Nat) {b : Ball} {x : ℝ} (h : b.Holds x) :
    ∃ k : ℤ, (turnBall n b).Holds (x + -2 * k * Real.pi) := by
  refine ⟨(b.mid * (7/44) + 1/2).floor, holds_roundBall n (holds_addBall h (holds_mulBall ?_ (holds_piBall n)))⟩
  simp [Ball.Holds]

theorem sin_turn (x : ℝ) (k : ℤ) : Real.sin (x + -2 * k * Real.pi) = Real.sin x := by
  rw [show x + -2 * (k : ℝ) * Real.pi = x - k * (2 * Real.pi) by ring, Real.sin_sub_int_mul_two_pi]

theorem cos_turn (x : ℝ) (k : ℤ) : Real.cos (x + -2 * k * Real.pi) = Real.cos x := by
  rw [show x + -2 * (k : ℝ) * Real.pi = x - k * (2 * Real.pi) by ring, Real.cos_sub_int_mul_two_pi]

/-- A series of bounded error gives a ball for a function that moves no farther than its argument. -/
theorem holds_seriesBall {f : ℝ → ℝ} {sum : Rat → Nat → Rat} (hf : ∀ x y, |f x - f y| ≤ |x - y|)
    (h1 : ∀ x, |f x| ≤ 1) (k : Nat)
    (hs : ∀ q : Rat, 2 * |q| ≤ 2 * k + 1 →
      |f q - ((sum q k : Rat) : ℝ)| ≤ 2 * ((expTerm |q| (2 * k) : Rat) : ℝ))
    {b : Ball} {x : ℝ} (h : b.Holds x) : (seriesBall sum k b).Holds (f x) := by
  unfold seriesBall
  split
  · rename_i hq
    have := hs b.mid hq
    unfold Ball.Holds at *
    push_cast
    have e : f x - ((sum b.mid k : Rat) : ℝ) = (f x - f b.mid) + (f b.mid - ((sum b.mid k : Rat) : ℝ)) := by ring
    rw [e]
    exact (abs_add_le _ _).trans (add_le_add ((hf _ _).trans h) this)
  · simpa [Ball.Holds] using h1 x

theorem sin_lipschitz (x y : ℝ) : |Real.sin x - Real.sin y| ≤ |x - y| := by
  simpa [Real.dist_eq] using Real.lipschitzWith_sin.dist_le_mul x y

theorem cos_lipschitz (x y : ℝ) : |Real.cos x - Real.cos y| ≤ |x - y| := by
  simpa [Real.dist_eq] using Real.lipschitzWith_cos.dist_le_mul x y

theorem holds_sinBall (n : Nat) {b : Ball} {x : ℝ} (h : b.Holds x) : (sinBall n b).Holds (Real.sin x) := by
  obtain ⟨k, hk⟩ := holds_turnBall n h
  rw [← sin_turn x k]
  exact holds_roundBall n (holds_seriesBall sin_lipschitz Real.abs_sin_le_one _
    (fun q hq => (series_bound q _ hq).2) hk)

theorem holds_cosBall (n : Nat) {b : Ball} {x : ℝ} (h : b.Holds x) : (cosBall n b).Holds (Real.cos x) := by
  obtain ⟨k, hk⟩ := holds_turnBall n h
  rw [← cos_turn x k]
  exact holds_roundBall n (holds_seriesBall cos_lipschitz Real.abs_cos_le_one _
    (fun q hq => (series_bound q _ hq).1) hk)

/-! ## Terms -/

/-- Every approximation of a term holds its number. -/
theorem ball_holds (t : RealTerm) (n : Nat) : (t.ball n).Holds t.toReal := by
  induction t generalizing n with
  | rat q => simp [RealTerm.ball, RealTerm.toReal, Ball.Holds]
  | pi => exact holds_piBall n
  | add a b iha ihb => exact holds_roundBall n (holds_addBall (iha n) (ihb n))
  | neg a ih =>
    have := ih n
    simp only [Ball.Holds, RealTerm.ball, RealTerm.toReal] at *
    push_cast
    rw [← abs_neg]
    convert this using 2
    ring
  | abs a ih =>
    have := ih n
    simp only [Ball.Holds, RealTerm.ball, RealTerm.toReal] at *
    push_cast
    exact (abs_abs_sub_abs_le _ _).trans this
  | mul a b iha ihb => exact holds_roundBall n (holds_mulBall (iha n) (ihb n))
  | inv k a ih =>
    simp only [RealTerm.ball, RealTerm.toReal]
    split
    · split
      · exact holds_roundBall n (holds_invBall (ih n) ‹_›)
      · exact holds_roundBall n (holds_invBall (ih k) ‹_›)
    · simp [Ball.Holds]
  | sin a ih => exact holds_sinBall n (ih n)
  | cos a ih => exact holds_cosBall n (ih n)

/-! ## The radii go to zero -/

/-- A sequence of balls that all hold `x` and shrink to it. -/
structure Shrinks (b : ℕ → Ball) (x : ℝ) : Prop where
  holds : ∀ n, (b n).Holds x
  rad : Tendsto (fun n => ((b n).rad : ℝ)) atTop (𝓝 0)

namespace Shrinks

variable {a b : ℕ → Ball} {x y : ℝ}

theorem mid (h : Shrinks b x) : Tendsto (fun n => ((b n).mid : ℝ)) atTop (𝓝 x) := by
  rw [tendsto_iff_norm_sub_tendsto_zero]
  refine squeeze_zero (fun _ => norm_nonneg _) (fun n => ?_) h.rad
  rw [Real.norm_eq_abs, abs_sub_comm]
  exact h.holds n

theorem of_le (hb : ∀ n, (b n).Holds x) {r : ℕ → ℝ} (hr : Tendsto r atTop (𝓝 0))
    (h : ∀ᶠ n in atTop, ((b n).rad : ℝ) ≤ r n) : Shrinks b x :=
  ⟨hb, squeeze_zero' (Eventually.of_forall fun n => (hb n).rad_nonneg) h hr⟩

theorem round (h : Shrinks b x) : Shrinks (fun n => roundBall n (b n)) x := by
  have ht : Tendsto (fun n : ℕ => 2 * (1 / 2 : ℝ) ^ n) atTop (𝓝 0) := by
    simpa using (tendsto_pow_atTop_nhds_zero_of_lt_one (by norm_num : (0 : ℝ) ≤ 1 / 2)
      (by norm_num)).const_mul 2
  refine of_le (r := fun n => (b n).rad + 2 * (1 / 2 : ℝ) ^ n) (fun n => holds_roundBall n (h.holds n))
    (by simpa using h.rad.add ht) (Eventually.of_forall fun n => ?_)
  have hp : (0 : ℝ) < 2 ^ n := by positivity
  have e2 : ((b n).rad * 2 ^ n).floor = ⌊((b n).rad : ℝ) * 2 ^ n⌋ := by rw [rat_floor_eq]; push_cast; rfl
  have h1 := Int.floor_le (((b n).rad : ℝ) * 2 ^ n)
  simp only [roundBall, e2]
  push_cast
  rw [div_le_iff₀ hp, add_mul, mul_assoc, ← mul_pow]
  norm_num
  linarith

theorem add (ha : Shrinks a x) (hb : Shrinks b y) : Shrinks (fun n => addBall (a n) (b n)) (x + y) :=
  of_le (fun n => holds_addBall (ha.holds n) (hb.holds n)) (by simpa using ha.rad.add hb.rad)
    (Eventually.of_forall fun n => by simp [addBall])

theorem mul (ha : Shrinks a x) (hb : Shrinks b y) : Shrinks (fun n => mulBall (a n) (b n)) (x * y) := by
  refine of_le (r := fun n => |((a n).mid : ℝ)| * (b n).rad + |((b n).mid : ℝ)| * (a n).rad + (a n).rad * (b n).rad)
    (fun n => holds_mulBall (ha.holds n) (hb.holds n)) ?_ (Eventually.of_forall fun n => ?_)
  · simpa using ((ha.mid.abs.mul hb.rad).add (hb.mid.abs.mul ha.rad)).add (ha.rad.mul hb.rad)
  · simp only [mulBall]
    push_cast
    exact le_rfl

theorem apart (h : Shrinks b x) (hx : x ≠ 0) : ∀ᶠ n in atTop, apartBall (b n) = true := by
  simp only [apartBall_iff]
  exact h.rad.eventually_lt h.mid.abs (abs_pos.mpr hx)

theorem inv (h : Shrinks b x) {c : Ball} (hc : c.Holds x) (hap : apartBall c = true) :
    Shrinks (fun n => invBall (if apartBall (b n) then b n else c)) x⁻¹ := by
  have hx := ne_zero_of_apart hc hap
  refine of_le (r := fun n => (b n).rad / (|((b n).mid : ℝ)| * (|((b n).mid : ℝ)| - (b n).rad))) (fun n => ?_) ?_ ?_
  · by_cases hn : apartBall (b n) = true
    · simp only [hn, if_true]
      exact holds_invBall (h.holds n) hn
    · simp only [hn]
      exact holds_invBall hc hap
  · have hd := h.mid.abs.mul (h.mid.abs.sub h.rad)
    have h0 : |x| * (|x| - 0) ≠ 0 := by simpa using hx
    rw [show (0 : ℝ) = 0 / (|x| * (|x| - 0)) by simp]
    exact h.rad.div hd h0
  · filter_upwards [h.apart hx] with n hn
    simp only [hn, if_true, invBall]
    push_cast
    exact le_rfl

theorem pi : Shrinks piBall Real.pi := by
  have ht : Tendsto (fun n : ℕ => 20 * (1 / 5 : ℝ) ^ (n / 8)) atTop (𝓝 0) := by
    have h8 : Tendsto (fun n : ℕ => n / 8) atTop atTop := Nat.tendsto_div_const_atTop (by norm_num)
    simpa using ((tendsto_pow_atTop_nhds_zero_of_lt_one (by norm_num : (0 : ℝ) ≤ 1 / 5)
      (by norm_num)).comp h8).const_mul 20
  refine of_le holds_piBall ht (Eventually.of_forall fun n => ?_)
  simp only [piBall]
  push_cast
  have h5 : (16 : ℝ) / 5 ^ (2 * (2 * (n / 8 + 2)) + 1) ≤ 16 * (1 / 5) ^ (n / 8) := by
    rw [div_eq_mul_inv, ← one_div, ← one_div_pow]
    exact mul_le_mul_of_nonneg_left (pow_le_pow_of_le_one (by norm_num) (by norm_num) (by omega)) (by norm_num)
  have h9 : (4 : ℝ) / 239 ^ (2 * (2 * (n / 8 + 2)) + 1) ≤ 4 * (1 / 5) ^ (n / 8) := by
    rw [div_eq_mul_inv, ← one_div, ← one_div_pow]
    refine mul_le_mul_of_nonneg_left ?_ (by norm_num)
    exact (pow_le_pow_left₀ (by norm_num) (by norm_num) _).trans
      (pow_le_pow_of_le_one (by norm_num) (by norm_num) (by omega))
  linarith

/-- Taking off whole turns keeps the radius small and the middle bounded. -/
theorem turn (h : Shrinks b x) :
    Tendsto (fun n => ((turnBall n (b n)).rad : ℝ)) atTop (𝓝 0) ∧
    ∃ B : ℝ, ∀ᶠ n in atTop, |((turnBall n (b n)).mid : ℝ)| ≤ B := by
  let k : ℕ → ℤ := fun n => ((b n).mid * (7/44) + 1/2).floor
  have hk : ∀ n, |(k n : ℝ)| ≤ |((b n).mid : ℝ)| + 2 := fun n => by
    have e : (k n : ℝ) = ⌊((b n).mid : ℝ) * (7/44) + 1/2⌋ := by
      simp only [k]
      rw [rat_floor_eq]
      push_cast
      rfl
    have h1 := Int.floor_le (((b n).mid : ℝ) * (7/44) + 1/2)
    have h2 := Int.lt_floor_add_one (((b n).mid : ℝ) * (7/44) + 1/2)
    rw [e, abs_le]
    have h3 := le_abs_self ((b n).mid : ℝ)
    have h4 := neg_abs_le ((b n).mid : ℝ)
    constructor <;> linarith
  have hholds : ∀ n, (turnBall n (b n)).Holds (x + -2 * k n * Real.pi) := fun n =>
    holds_roundBall n (holds_addBall (h.holds n) (holds_mulBall (by simp [Ball.Holds, k]) (holds_piBall n)))
  have hp : Tendsto (fun n : ℕ => 2 * (1 / 2 : ℝ) ^ n) atTop (𝓝 0) := by
    simpa using (tendsto_pow_atTop_nhds_zero_of_lt_one (by norm_num : (0 : ℝ) ≤ 1 / 2)
      (by norm_num)).const_mul 2
  have hrad : Tendsto (fun n => ((turnBall n (b n)).rad : ℝ)) atTop (𝓝 0) := by
    refine squeeze_zero (fun n => (hholds n).rad_nonneg) (g := fun n => (b n).rad +
      2 * (|((b n).mid : ℝ)| + 2) * (piBall n).rad + 2 * (1 / 2 : ℝ) ^ n) (fun n => ?_) ?_
    · have hq : (0 : ℝ) < 2 ^ n := by positivity
      have hpi := (holds_piBall n).rad_nonneg
      have := mul_le_mul_of_nonneg_right (hk n) hpi
      simp only [turnBall, roundBall, addBall, mulBall]
      rw [show ((b n).mid * (7/44) + 1/2).floor = k n from rfl]
      rw [rat_floor_eq]
      push_cast
      have h1 := Int.floor_le ((((b n).rad : ℝ) + (|(-2 : ℝ) * (k n : ℝ)| * (piBall n).rad +
        |((piBall n).mid : ℝ)| * 0 + 0 * (piBall n).rad)) * 2 ^ n)
      rw [div_le_iff₀ hq]
      have e : |(-2 : ℝ) * (k n : ℝ)| = 2 * |(k n : ℝ)| := by rw [abs_mul]; norm_num
      rw [e] at h1 ⊢
      have e3 : (2 * (1 / 2 : ℝ) ^ n) * 2 ^ n = 2 := by rw [mul_assoc, ← mul_pow]; norm_num
      nlinarith
    · have h1 := ((h.mid.abs.add_const 2).const_mul 2).mul pi.rad
      simpa using (h.rad.add h1).add hp
  refine ⟨hrad, |x| + 2 * (|x| + 1 + 2) * Real.pi + 1, ?_⟩
  filter_upwards [hrad.eventually_lt_const one_pos,
    h.mid.abs.eventually_lt_const (lt_add_one |x|)] with n h1 h2
  have h3 := hholds n
  have h4 := hk n
  have h5 := Real.pi_pos
  unfold Ball.Holds at h3
  have h6 : |x + -2 * k n * Real.pi| ≤ |x| + 2 * (|x| + 1 + 2) * Real.pi := by
    refine (abs_add_le _ _).trans ?_
    rw [abs_mul, abs_mul, abs_of_pos h5, show |(-2 : ℝ)| = 2 by norm_num]
    have : |(k n : ℝ)| ≤ |x| + 1 + 2 := by linarith
    gcongr
  have h7 : |((turnBall n (b n)).mid : ℝ)| ≤ |x + -2 * k n * Real.pi| + (turnBall n (b n)).rad := by
    rw [abs_sub_comm] at h3
    have := abs_sub_abs_le_abs_sub ((turnBall n (b n)).mid : ℝ) (x + -2 * k n * Real.pi)
    linarith
  linarith

theorem series {sum : Rat → Nat → Rat} {c : ℕ → Ball} {y : ℝ}
    (hc : Tendsto (fun n => ((c n).rad : ℝ)) atTop (𝓝 0)) {B : ℝ}
    (hB : ∀ᶠ n in atTop, |((c n).mid : ℝ)| ≤ B) (hy : ∀ n, (seriesBall sum (n / 4 + 8) (c n)).Holds y) :
    Shrinks (fun n => seriesBall sum (n / 4 + 8) (c n)) y := by
  have h4 : Tendsto (fun n : ℕ => 2 * (n / 4 + 8)) atTop atTop := by
    refine tendsto_atTop_mono (fun n => ?_) (Nat.tendsto_div_const_atTop (n := 4) (by norm_num))
    omega
  have hr : Tendsto (fun n => ((c n).rad : ℝ) +
      2 * (B ^ (2 * (n / 4 + 8)) / ((2 * (n / 4 + 8)).factorial : ℝ))) atTop (𝓝 0) := by
    have hf := ((FloorSemiring.tendsto_pow_div_factorial_atTop B).comp h4).const_mul 2
    rw [show (0 : ℝ) = 0 + 2 * 0 by norm_num]
    exact hc.add hf
  refine of_le hy hr ?_
  have hbig : ∀ᶠ n : ℕ in atTop, 2 * B ≤ 2 * ((n / 4 + 8 : ℕ) : ℝ) + 1 := by
    have h8 : Tendsto (fun n : ℕ => ((n / 4 + 8 : ℕ) : ℝ)) atTop atTop := by
      refine tendsto_natCast_atTop_atTop.comp (tendsto_atTop_mono (fun n => ?_)
        (Nat.tendsto_div_const_atTop (n := 4) (by norm_num)))
      omega
    filter_upwards [h8.eventually_ge_atTop B] with n hn
    linarith
  filter_upwards [hB, hbig] with n h1 h2
  have hq : 2 * |(c n).mid| ≤ 2 * ((n / 4 + 8 : ℕ) : Rat) + 1 := by
    rw [← Rat.cast_le (K := ℝ)]
    push_cast at h2 ⊢
    linarith
  simp only [seriesBall, if_pos hq]
  rw [Rat.cast_add, Rat.cast_mul, expTerm_cast]
  push_cast
  gcongr

end Shrinks

/-- The approximations of a term shrink to its number. -/
theorem ball_shrinks (t : RealTerm) : Shrinks t.ball t.toReal := by
  induction t with
  | rat q => exact ⟨ball_holds _, by simp [RealTerm.ball]⟩
  | pi => exact Shrinks.pi
  | add a b iha ihb => exact (iha.add ihb).round
  | neg a ih => exact ⟨ball_holds _, ih.rad⟩
  | abs a ih => exact ⟨ball_holds _, ih.rad⟩
  | mul a b iha ihb => exact (iha.mul ihb).round
  | inv k a ih =>
    by_cases hk : apartBall (a.ball k) = true
    · have := (ih.inv (ball_holds a k) hk).round
      refine ⟨ball_holds _, ?_⟩
      simpa [RealTerm.ball, hk] using this.rad
    · refine ⟨ball_holds _, ?_⟩
      simp [RealTerm.ball, hk]
  | sin a ih =>
    obtain ⟨h1, B, h2⟩ := ih.turn
    refine (Shrinks.series h1 h2 fun n => ?_).round
    obtain ⟨k, hk⟩ := holds_turnBall n (ih.holds n)
    rw [RealTerm.toReal, ← sin_turn _ k]
    exact holds_seriesBall sin_lipschitz Real.abs_sin_le_one _ (fun q hq => (series_bound q _ hq).2) hk
  | cos a ih =>
    obtain ⟨h1, B, h2⟩ := ih.turn
    refine (Shrinks.series h1 h2 fun n => ?_).round
    obtain ⟨k, hk⟩ := holds_turnBall n (ih.holds n)
    rw [RealTerm.toReal, ← cos_turn _ k]
    exact holds_seriesBall cos_lipschitz Real.abs_cos_le_one _ (fun q hq => (series_bound q _ hq).1) hk

/-! ## Decisions -/

theorem levelFrom_some {p : Nat → Bool} {n m : Nat} (h : levelFrom p n = some m) : p m = true := by
  refine levelFrom.partial_correctness p (fun _ m => p m = true) ?_ n m h
  intro f ih n m h
  split at h
  · cases h
    assumption
  · exact ih _ _ h

theorem levelFrom_ne_none {p : Nat → Bool} (k n : Nat) (h : p (n + 64 * k) = true) : levelFrom p n ≠ none := by
  induction k generalizing n with
  | zero =>
    rw [levelFrom]
    simp_all
  | succ k ih =>
    rw [levelFrom]
    split
    · simp
    · refine ih _ (by rw [← h]; congr 1; ring)

theorem firstLevel_some {p : Nat → Bool} {m : Nat} (h : firstLevel p = some m) : p m = true := by
  unfold firstLevel at h
  split at h
  · cases h
    assumption
  · exact levelFrom_some h

/-- A condition that holds at every high level is found. -/
theorem firstLevel_of_eventually {p : Nat → Bool} (h : ∀ᶠ n in atTop, p n = true) :
    ∃ m, firstLevel p = some m ∧ p m = true := by
  obtain ⟨N, hN⟩ := eventually_atTop.mp h
  have : firstLevel p ≠ none := by
    unfold firstLevel
    split
    · simp
    · exact levelFrom_ne_none N 128 (hN _ (by omega))
  obtain ⟨m, hm⟩ := Option.ne_none_iff_exists'.mp this
  exact ⟨m, hm, firstLevel_some hm⟩

theorem lt_of_apartLt {a b : RealTerm} {n : Nat} (h : apartLt a b n = true) : a.toReal < b.toReal := by
  have ha := ball_holds a n
  have hb := ball_holds b n
  unfold Ball.Holds at ha hb
  rw [apartLt, decide_eq_true_iff, ← Rat.cast_lt (K := ℝ)] at h
  push_cast at h
  linarith [(abs_le.mp ha).2, (abs_le.mp hb).1]

theorem apartLt_eventually {a b : RealTerm} (h : a.toReal < b.toReal) :
    ∀ᶠ n in atTop, apartLt a b n = true := by
  have ha := ball_shrinks a
  have hb := ball_shrinks b
  have h1 : Tendsto (fun n => ((a.ball n).mid : ℝ) + (a.ball n).rad) atTop (𝓝 a.toReal) := by
    simpa using ha.mid.add ha.rad
  have h2 : Tendsto (fun n => ((b.ball n).mid : ℝ) - (b.ball n).rad) atTop (𝓝 b.toReal) := by
    simpa using hb.mid.sub hb.rad
  filter_upwards [h1.eventually_lt h2 h] with n hn
  rw [apartLt, decide_eq_true_iff, ← Rat.cast_lt (K := ℝ)]
  push_cast
  exact hn

/-- The order decided through approximations is the order of the real numbers. -/
theorem realLt_iff (a b : RealTerm) : realLt a b = true ↔ a.toReal < b.toReal := by
  unfold realLt
  split
  · simp [RealTerm.toReal]
  · split
    · rename_i n hn
      have := firstLevel_some hn
      refine ⟨lt_of_apartLt, fun h => ?_⟩
      rcases Bool.or_eq_true_iff.mp this with h1 | h1
      · exact h1
      · exact absurd (lt_of_apartLt h1) h.asymm
    · rename_i hn
      refine ⟨by simp, fun h => ?_⟩
      obtain ⟨m, hm, -⟩ := firstLevel_of_eventually (p := fun n => apartLt a b n || apartLt b a n)
        ((apartLt_eventually h).mono fun n h => by simp [h])
      rw [hm] at hn
      cases hn

theorem realFloor_eq (a : RealTerm) : realFloor a = ⌊a.toReal⌋ := by
  unfold realFloor
  split
  · simp [RealTerm.toReal, rat_floor_eq]
  · obtain ⟨m, hm, hr⟩ := firstLevel_of_eventually (p := fun n => decide ((a.ball n).rad < 1/4)) (by
      filter_upwards [(ball_shrinks a).rad.eventually_lt_const (by norm_num : (0 : ℝ) < 1/4)] with n hn
      rw [decide_eq_true_iff, ← Rat.cast_lt (K := ℝ)]
      push_cast
      exact hn)
    simp only [hm]
    rw [decide_eq_true_iff, ← Rat.cast_lt (K := ℝ)] at hr
    have hh := abs_le.mp (ball_holds a m)
    have e : ((a.ball m).mid + (a.ball m).rad).floor = ⌊((a.ball m).mid : ℝ) + (a.ball m).rad⌋ := by
      rw [rat_floor_eq]
      push_cast
      rfl
    have h1 := Int.floor_le (((a.ball m).mid : ℝ) + (a.ball m).rad)
    have h2 := Int.lt_floor_add_one (((a.ball m).mid : ℝ) + (a.ball m).rad)
    rw [e]
    push_cast at hr
    symm
    split
    · rename_i hl
      rw [realLt_iff, RealTerm.toReal] at hl
      push_cast at hl
      rw [Int.floor_eq_iff]
      push_cast
      constructor <;> linarith [hh.1, hh.2]
    · rename_i hl
      rw [realLt_iff, RealTerm.toReal] at hl
      push_cast at hl
      rw [Int.floor_eq_iff]
      constructor <;> linarith [hh.1, hh.2]

/-- A reciprocal is found exactly for the numbers that are not zero, and it is theirs. -/
theorem realInv_cases (a : RealTerm) :
    (a.toReal = 0 ∧ realInv a = none) ∨ (a.toReal ≠ 0 ∧ ∃ i, realInv a = some i ∧ i.toReal = a.toReal⁻¹) := by
  unfold realInv
  split
  · rename_i q
    by_cases hq : q = 0 <;> simp [hq, RealTerm.toReal]
  · cases hf : firstLevel fun n => apartBall (a.ball n) with
    | some n =>
      have hn := firstLevel_some hf
      exact .inr ⟨ne_zero_of_apart (ball_holds a n) hn, _, rfl, by simp [RealTerm.toReal, hn]⟩
    | none =>
      refine .inl ⟨?_, rfl⟩
      by_contra hx
      obtain ⟨m, hm, -⟩ := firstLevel_of_eventually ((ball_shrinks a).apart hx)
      rw [hm] at hf
      cases hf

end Sys2Proof

/-! ## The functions of the exact domain, by the real numbers they compute -/

namespace Sys2Proof.Machine

@[simp] theorem toReal_fin (q : Rat) : toReal (.fin q) = q := rfl
@[simp] theorem toReal_real (t : RealTerm) : toReal (.real t) = t.toReal := rfl
@[simp] theorem toReal_valOf (t : RealTerm) : toReal (valOf t) = t.toReal := by
  cases t <;> rfl
@[simp] theorem valOf_finite (t : RealTerm) : (valOf t).isFinite = true := by
  cases t <;> rfl

@[simp] theorem realAdd_toReal (a b : RealTerm) : (realAdd a b).toReal = a.toReal + b.toReal := by
  unfold realAdd
  split <;> (try split) <;> simp_all [RealTerm.toReal]

@[simp] theorem realMul_toReal (a b : RealTerm) : (realMul a b).toReal = a.toReal * b.toReal := by
  unfold realMul
  split <;> (try split) <;> simp_all [RealTerm.toReal]

@[simp] theorem realNeg_toReal (a : RealTerm) : (realNeg a).toReal = -a.toReal := by
  cases a <;> simp [realNeg, RealTerm.toReal]

@[simp] theorem realAbs_toReal (a : RealTerm) : (realAbs a).toReal = |a.toReal| := by
  cases a <;> simp [realAbs, RealTerm.toReal]

@[simp] theorem realSin_toReal (a : RealTerm) : (realSin a).toReal = Real.sin a.toReal := by
  unfold realSin
  split <;> (try split) <;> simp_all [RealTerm.toReal]

@[simp] theorem realCos_toReal (a : RealTerm) : (realCos a).toReal = Real.cos a.toReal := by
  unfold realCos
  split <;> (try split) <;> simp_all [RealTerm.toReal]

@[simp] theorem toReal_add (a b : NumVal) : toReal (exactOps.add a b) = toReal a + toReal b :=
  (toReal_valOf _).trans (realAdd_toReal _ _)
@[simp] theorem toReal_sub (a b : NumVal) : toReal (exactOps.sub a b) = toReal a - toReal b := by
  rw [sub_eq_add_neg]
  exact (toReal_valOf _).trans ((realAdd_toReal _ _).trans (congrArg _ (realNeg_toReal _)))
@[simp] theorem toReal_mul (a b : NumVal) : toReal (exactOps.mul a b) = toReal a * toReal b :=
  (toReal_valOf _).trans (realMul_toReal _ _)
@[simp] theorem toReal_neg (a : NumVal) : toReal (exactOps.neg a) = -toReal a :=
  (toReal_valOf _).trans (realNeg_toReal _)
@[simp] theorem toReal_abs (a : NumVal) : toReal (exactOps.abs a) = |toReal a| :=
  (toReal_valOf _).trans (realAbs_toReal _)
@[simp] theorem toReal_sin (a : NumVal) : toReal (exactOps.sin a) = Real.sin (toReal a) :=
  (toReal_valOf _).trans (realSin_toReal _)
@[simp] theorem toReal_cos (a : NumVal) : toReal (exactOps.cos a) = Real.cos (toReal a) :=
  (toReal_valOf _).trans (realCos_toReal _)
@[simp] theorem toReal_pi : toReal exactOps.pi = Real.pi := rfl
@[simp] theorem toReal_ofNat (n : Nat) : toReal (exactOps.ofNat n) = n := by simp [exactOps]
@[simp] theorem toReal_ofDec (q : Rat) : toReal (exactOps.ofDec q) = q := rfl

theorem toReal_div (a b : NumVal) (h : toReal b ≠ 0) :
    toReal (exactOps.div a b) = toReal a / toReal b := by
  rcases realInv_cases (termOf b) with ⟨h0, -⟩ | ⟨-, i, hi, hv⟩
  · exact absurd h0 h
  · show toReal (valOf (realDiv (termOf a) (termOf b))) = _
    rw [toReal_valOf, realDiv, hi]
    simp [hv, toReal, div_eq_mul_inv]

@[simp] theorem exactOps_lt_iff (a b : NumVal) : exactOps.lt a b = true ↔ toReal a < toReal b :=
  realLt_iff _ _
@[simp] theorem exactOps_lt_false (a b : NumVal) : exactOps.lt a b = false ↔ toReal b ≤ toReal a := by
  rw [← Bool.not_eq_true, exactOps_lt_iff, not_lt]
@[simp] theorem exactOps_le_iff (a b : NumVal) : exactOps.le a b = true ↔ toReal a ≤ toReal b := by
  show (!realLt (termOf b) (termOf a)) = true ↔ _
  rw [Bool.not_eq_true', ← Bool.not_eq_true, realLt_iff, not_lt]
  rfl
@[simp] theorem exactOps_eq_iff (a b : NumVal) : exactOps.eq a b = true ↔ toReal a = toReal b := by
  show (!realLt (termOf a) (termOf b) && !realLt (termOf b) (termOf a)) = true ↔ _
  rw [Bool.and_eq_true, Bool.not_eq_true', Bool.not_eq_true', ← Bool.not_eq_true, ← Bool.not_eq_true,
    realLt_iff, realLt_iff, not_lt, not_lt]
  exact ⟨fun h => le_antisymm h.2 h.1, fun h => ⟨h.ge, h.le⟩⟩

/-- `floor_nat` of a real number that is not negative. -/
theorem exactOps_floorNat (a : NumVal) (h : 0 ≤ toReal a) : exactOps.floorNat a = ⌊toReal a⌋₊ := by
  show realFloorNat (termOf a) = _
  have : ¬ realLt (termOf a) (.rat 0) = true := by
    rw [realLt_iff, not_lt]
    exact le_of_eq_of_le (by simp [RealTerm.toReal]) h
  rw [realFloorNat, if_neg this, realFloor_eq]
  rfl

/-- `trunc_int` rounds a real number toward zero. -/
theorem exactOps_truncInt (a : NumVal) :
    exactOps.truncInt a = if toReal a < 0 then ⌈toReal a⌉ else ⌊toReal a⌋ := by
  have : realLt (termOf a) (.rat 0) = true ↔ toReal a < 0 := by
    rw [realLt_iff]
    simp [RealTerm.toReal, toReal]
  show realTrunc (termOf a) = _
  simp only [realTrunc, this, realFloor_eq, realNeg_toReal, Int.floor_neg, neg_neg]
  rfl

/-! Every result is a finite number, and rational numbers stay written as rational numbers. -/

@[simp] theorem exactOps_add_finite (a b : NumVal) : (exactOps.add a b).isFinite = true := valOf_finite _
@[simp] theorem exactOps_sub_finite (a b : NumVal) : (exactOps.sub a b).isFinite = true := valOf_finite _
@[simp] theorem exactOps_mul_finite (a b : NumVal) : (exactOps.mul a b).isFinite = true := valOf_finite _
@[simp] theorem exactOps_div_finite (a b : NumVal) : (exactOps.div a b).isFinite = true := valOf_finite _
@[simp] theorem exactOps_neg_finite (a : NumVal) : (exactOps.neg a).isFinite = true := valOf_finite _
@[simp] theorem exactOps_abs_finite (a : NumVal) : (exactOps.abs a).isFinite = true := valOf_finite _
@[simp] theorem exactOps_sin_finite (a : NumVal) : (exactOps.sin a).isFinite = true := valOf_finite _
@[simp] theorem exactOps_cos_finite (a : NumVal) : (exactOps.cos a).isFinite = true := valOf_finite _
@[simp] theorem exactOps_pi_finite : exactOps.pi.isFinite = true := rfl
@[simp] theorem exactOps_ofNat (n : Nat) : exactOps.ofNat n = .fin n := rfl
@[simp] theorem exactOps_ofDec (q : Rat) : exactOps.ofDec q = .fin q := rfl

@[simp] theorem exactOps_add_fin (p q : Rat) : exactOps.add (.fin p) (.fin q) = .fin (p + q) := rfl
@[simp] theorem exactOps_mul_fin (p q : Rat) : exactOps.mul (.fin p) (.fin q) = .fin (p * q) := rfl
@[simp] theorem exactOps_neg_fin (q : Rat) : exactOps.neg (.fin q) = .fin (-q) := rfl
@[simp] theorem exactOps_sub_fin (p q : Rat) : exactOps.sub (.fin p) (.fin q) = .fin (p - q) := by
  rw [sub_eq_add_neg]
  rfl
theorem exactOps_div_fin (p q : Rat) (h : q ≠ 0) : exactOps.div (.fin p) (.fin q) = .fin (p / q) := by
  show valOf (realDiv (.rat p) (.rat q)) = _
  simp [realDiv, realInv, h, realMul, valOf, div_eq_mul_inv]
@[simp] theorem exactOps_lt_fin (p q : Rat) : exactOps.lt (.fin p) (.fin q) = decide (p < q) := rfl
@[simp] theorem exactOps_le_fin (p q : Rat) : exactOps.le (.fin p) (.fin q) = decide (p ≤ q) := by
  rw [Bool.eq_iff_iff]
  simp

end Sys2Proof.Machine
end

