-- ==== Sys2Proof/Laws/State.lean ====
section
/-! SUPPORT. One lemma per field per update of the state record, so that no later proof unfolds an update. -/

namespace Sys2Proof.Machine

variable (s : State)

/-! ### `setReg` -/

@[simp] theorem setReg_regs (r : Reg) (v : NumVal) : (s.setReg r v).regs = s.regs.set r v := rfl
@[simp] theorem setReg_n (r : Reg) (v : NumVal) : (s.setReg r v).n = s.n := rfl
@[simp] theorem setReg_tick (r : Reg) (v : NumVal) : (s.setReg r v).tick = s.tick := rfl
@[simp] theorem setReg_tpos (r : Reg) (v : NumVal) : (s.setReg r v).tpos = s.tpos := rfl
@[simp] theorem setReg_nextTick (r : Reg) (v : NumVal) : (s.setReg r v).nextTick = s.nextTick := rfl
@[simp] theorem setReg_tk (r : Reg) (v : NumVal) : (s.setReg r v).tk = s.tk := rfl
@[simp] theorem setReg_pc (r : Reg) (v : NumVal) : (s.setReg r v).pc = s.pc := rfl
@[simp] theorem setReg_run (r : Reg) (v : NumVal) : (s.setReg r v).run = s.run := rfl
@[simp] theorem setReg_fault (r : Reg) (v : NumVal) : (s.setReg r v).fault = s.fault := rfl
@[simp] theorem setReg_finfo (r : Reg) (v : NumVal) : (s.setReg r v).finfo = s.finfo := rfl
@[simp] theorem setReg_rngIdx (r : Reg) (v : NumVal) : (s.setReg r v).rngIdx = s.rngIdx := rfl
@[simp] theorem setReg_out (r : Reg) (v : NumVal) : (s.setReg r v).out = s.out := rfl
@[simp] theorem setReg_outCnt (r : Reg) (v : NumVal) : (s.setReg r v).outCnt = s.outCnt := rfl
@[simp] theorem setReg_drum (r : Reg) (v : NumVal) : (s.setReg r v).drum = s.drum := rfl
@[simp] theorem setReg_sawBass (r : Reg) (v : NumVal) : (s.setReg r v).sawBass = s.sawBass := rfl
@[simp] theorem setReg_sawMel (r : Reg) (v : NumVal) : (s.setReg r v).sawMel = s.sawMel := rfl
@[simp] theorem setReg_hat (r : Reg) (v : NumVal) : (s.setReg r v).hat = s.hat := rfl
@[simp] theorem setReg_dly (r : Reg) (v : NumVal) : (s.setReg r v).dly = s.dly := rfl
@[simp] theorem setReg_ring (r : Reg) (v : NumVal) : (s.setReg r v).ring = s.ring := rfl
@[simp] theorem setReg_xovL (r : Reg) (v : NumVal) : (s.setReg r v).xovL = s.xovL := rfl
@[simp] theorem setReg_xovR (r : Reg) (v : NumVal) : (s.setReg r v).xovR = s.xovR := rfl
@[simp] theorem setReg_cfg (r : Reg) (v : NumVal) : (s.setReg r v).cfg = s.cfg := rfl
@[simp] theorem setReg_rng (r : Reg) (v : NumVal) : (s.setReg r v).rng = s.rng := rfl
@[simp] theorem setReg_sinkReady (r : Reg) (v : NumVal) : (s.setReg r v).sinkReady = s.sinkReady := rfl
@[simp] theorem setReg_cmd (r : Reg) (v : NumVal) : (s.setReg r v).cmd = s.cmd := rfl
@[simp] theorem setReg_num (r : Reg) (v : NumVal) : (s.setReg r v).num = s.num := rfl

/-! ### `advance` -/

@[simp] theorem advance_regs : (s.advance).regs = s.regs := rfl
@[simp] theorem advance_n : (s.advance).n = s.n := rfl
@[simp] theorem advance_tick : (s.advance).tick = s.tick := rfl
@[simp] theorem advance_tpos : (s.advance).tpos = s.tpos := rfl
@[simp] theorem advance_nextTick : (s.advance).nextTick = s.nextTick := rfl
@[simp] theorem advance_tk : (s.advance).tk = s.tk := rfl
@[simp] theorem advance_pc : (s.advance).pc = s.pc + 1 := rfl
@[simp] theorem advance_run : (s.advance).run = s.run := rfl
@[simp] theorem advance_fault : (s.advance).fault = s.fault := rfl
@[simp] theorem advance_finfo : (s.advance).finfo = s.finfo := rfl
@[simp] theorem advance_rngIdx : (s.advance).rngIdx = s.rngIdx := rfl
@[simp] theorem advance_out : (s.advance).out = s.out := rfl
@[simp] theorem advance_outCnt : (s.advance).outCnt = s.outCnt := rfl
@[simp] theorem advance_drum : (s.advance).drum = s.drum := rfl
@[simp] theorem advance_sawBass : (s.advance).sawBass = s.sawBass := rfl
@[simp] theorem advance_sawMel : (s.advance).sawMel = s.sawMel := rfl
@[simp] theorem advance_hat : (s.advance).hat = s.hat := rfl
@[simp] theorem advance_dly : (s.advance).dly = s.dly := rfl
@[simp] theorem advance_ring : (s.advance).ring = s.ring := rfl
@[simp] theorem advance_xovL : (s.advance).xovL = s.xovL := rfl
@[simp] theorem advance_xovR : (s.advance).xovR = s.xovR := rfl
@[simp] theorem advance_cfg : (s.advance).cfg = s.cfg := rfl
@[simp] theorem advance_rng : (s.advance).rng = s.rng := rfl
@[simp] theorem advance_sinkReady : (s.advance).sinkReady = s.sinkReady := rfl
@[simp] theorem advance_cmd : (s.advance).cmd = s.cmd := rfl
@[simp] theorem advance_num : (s.advance).num = s.num := rfl

/-! ### `emit` -/

@[simp] theorem emit_regs (b : Byte) : (s.emit b).regs = s.regs := rfl
@[simp] theorem emit_n (b : Byte) : (s.emit b).n = s.n := rfl
@[simp] theorem emit_tick (b : Byte) : (s.emit b).tick = s.tick := rfl
@[simp] theorem emit_tpos (b : Byte) : (s.emit b).tpos = s.tpos := rfl
@[simp] theorem emit_nextTick (b : Byte) : (s.emit b).nextTick = s.nextTick := rfl
@[simp] theorem emit_tk (b : Byte) : (s.emit b).tk = s.tk := rfl
@[simp] theorem emit_pc (b : Byte) : (s.emit b).pc = s.pc := rfl
@[simp] theorem emit_run (b : Byte) : (s.emit b).run = s.run := rfl
@[simp] theorem emit_fault (b : Byte) : (s.emit b).fault = s.fault := rfl
@[simp] theorem emit_finfo (b : Byte) : (s.emit b).finfo = s.finfo := rfl
@[simp] theorem emit_rngIdx (b : Byte) : (s.emit b).rngIdx = s.rngIdx := rfl
@[simp] theorem emit_out (b : Byte) : (s.emit b).out = s.out ++ [b] := rfl
@[simp] theorem emit_outCnt (b : Byte) : (s.emit b).outCnt = s.outCnt + 1 := rfl
@[simp] theorem emit_drum (b : Byte) : (s.emit b).drum = s.drum := rfl
@[simp] theorem emit_sawBass (b : Byte) : (s.emit b).sawBass = s.sawBass := rfl
@[simp] theorem emit_sawMel (b : Byte) : (s.emit b).sawMel = s.sawMel := rfl
@[simp] theorem emit_hat (b : Byte) : (s.emit b).hat = s.hat := rfl
@[simp] theorem emit_dly (b : Byte) : (s.emit b).dly = s.dly := rfl
@[simp] theorem emit_ring (b : Byte) : (s.emit b).ring = s.ring := rfl
@[simp] theorem emit_xovL (b : Byte) : (s.emit b).xovL = s.xovL := rfl
@[simp] theorem emit_xovR (b : Byte) : (s.emit b).xovR = s.xovR := rfl
@[simp] theorem emit_cfg (b : Byte) : (s.emit b).cfg = s.cfg := rfl
@[simp] theorem emit_rng (b : Byte) : (s.emit b).rng = s.rng := rfl
@[simp] theorem emit_sinkReady (b : Byte) : (s.emit b).sinkReady = s.sinkReady := rfl
@[simp] theorem emit_cmd (b : Byte) : (s.emit b).cmd = s.cmd := rfl
@[simp] theorem emit_num (b : Byte) : (s.emit b).num = s.num := rfl

/-! ### `raise` -/

@[simp] theorem raise_regs (f : FaultCode) (k : Nat) : (s.raise f k).regs = s.regs := rfl
@[simp] theorem raise_n (f : FaultCode) (k : Nat) : (s.raise f k).n = s.n := rfl
@[simp] theorem raise_tick (f : FaultCode) (k : Nat) : (s.raise f k).tick = s.tick := rfl
@[simp] theorem raise_tpos (f : FaultCode) (k : Nat) : (s.raise f k).tpos = s.tpos := rfl
@[simp] theorem raise_nextTick (f : FaultCode) (k : Nat) : (s.raise f k).nextTick = s.nextTick := rfl
@[simp] theorem raise_tk (f : FaultCode) (k : Nat) : (s.raise f k).tk = s.tk := rfl
@[simp] theorem raise_pc (f : FaultCode) (k : Nat) : (s.raise f k).pc = s.pc := rfl
@[simp] theorem raise_run (f : FaultCode) (k : Nat) : (s.raise f k).run = .fault := rfl
@[simp] theorem raise_fault (f : FaultCode) (k : Nat) : (s.raise f k).fault = f.code := rfl
@[simp] theorem raise_finfo (f : FaultCode) (k : Nat) : (s.raise f k).finfo = BitVec.ofNat 16 k := rfl
@[simp] theorem raise_rngIdx (f : FaultCode) (k : Nat) : (s.raise f k).rngIdx = s.rngIdx := rfl
@[simp] theorem raise_out (f : FaultCode) (k : Nat) : (s.raise f k).out = s.out := rfl
@[simp] theorem raise_outCnt (f : FaultCode) (k : Nat) : (s.raise f k).outCnt = s.outCnt := rfl
@[simp] theorem raise_drum (f : FaultCode) (k : Nat) : (s.raise f k).drum = s.drum := rfl
@[simp] theorem raise_sawBass (f : FaultCode) (k : Nat) : (s.raise f k).sawBass = s.sawBass := rfl
@[simp] theorem raise_sawMel (f : FaultCode) (k : Nat) : (s.raise f k).sawMel = s.sawMel := rfl
@[simp] theorem raise_hat (f : FaultCode) (k : Nat) : (s.raise f k).hat = s.hat := rfl
@[simp] theorem raise_dly (f : FaultCode) (k : Nat) : (s.raise f k).dly = s.dly := rfl
@[simp] theorem raise_ring (f : FaultCode) (k : Nat) : (s.raise f k).ring = s.ring := rfl
@[simp] theorem raise_xovL (f : FaultCode) (k : Nat) : (s.raise f k).xovL = s.xovL := rfl
@[simp] theorem raise_xovR (f : FaultCode) (k : Nat) : (s.raise f k).xovR = s.xovR := rfl
@[simp] theorem raise_cfg (f : FaultCode) (k : Nat) : (s.raise f k).cfg = s.cfg := rfl
@[simp] theorem raise_rng (f : FaultCode) (k : Nat) : (s.raise f k).rng = s.rng := rfl
@[simp] theorem raise_sinkReady (f : FaultCode) (k : Nat) : (s.raise f k).sinkReady = s.sinkReady := rfl
@[simp] theorem raise_cmd (f : FaultCode) (k : Nat) : (s.raise f k).cmd = s.cmd := rfl
@[simp] theorem raise_num (f : FaultCode) (k : Nat) : (s.raise f k).num = s.num := rfl

/-! ### `setSaw` -/

@[simp] theorem setSaw_regs (v : Voice) (x : Saw) : (s.setSaw v x).regs = s.regs := by cases v <;> rfl
@[simp] theorem setSaw_n (v : Voice) (x : Saw) : (s.setSaw v x).n = s.n := by cases v <;> rfl
@[simp] theorem setSaw_tick (v : Voice) (x : Saw) : (s.setSaw v x).tick = s.tick := by cases v <;> rfl
@[simp] theorem setSaw_tpos (v : Voice) (x : Saw) : (s.setSaw v x).tpos = s.tpos := by cases v <;> rfl
@[simp] theorem setSaw_nextTick (v : Voice) (x : Saw) : (s.setSaw v x).nextTick = s.nextTick := by cases v <;> rfl
@[simp] theorem setSaw_tk (v : Voice) (x : Saw) : (s.setSaw v x).tk = s.tk := by cases v <;> rfl
@[simp] theorem setSaw_pc (v : Voice) (x : Saw) : (s.setSaw v x).pc = s.pc := by cases v <;> rfl
@[simp] theorem setSaw_run (v : Voice) (x : Saw) : (s.setSaw v x).run = s.run := by cases v <;> rfl
@[simp] theorem setSaw_fault (v : Voice) (x : Saw) : (s.setSaw v x).fault = s.fault := by cases v <;> rfl
@[simp] theorem setSaw_finfo (v : Voice) (x : Saw) : (s.setSaw v x).finfo = s.finfo := by cases v <;> rfl
@[simp] theorem setSaw_rngIdx (v : Voice) (x : Saw) : (s.setSaw v x).rngIdx = s.rngIdx := by cases v <;> rfl
@[simp] theorem setSaw_out (v : Voice) (x : Saw) : (s.setSaw v x).out = s.out := by cases v <;> rfl
@[simp] theorem setSaw_outCnt (v : Voice) (x : Saw) : (s.setSaw v x).outCnt = s.outCnt := by cases v <;> rfl
@[simp] theorem setSaw_drum (v : Voice) (x : Saw) : (s.setSaw v x).drum = s.drum := by cases v <;> rfl
@[simp] theorem setSaw_hat (v : Voice) (x : Saw) : (s.setSaw v x).hat = s.hat := by cases v <;> rfl
@[simp] theorem setSaw_dly (v : Voice) (x : Saw) : (s.setSaw v x).dly = s.dly := by cases v <;> rfl
@[simp] theorem setSaw_ring (v : Voice) (x : Saw) : (s.setSaw v x).ring = s.ring := by cases v <;> rfl
@[simp] theorem setSaw_xovL (v : Voice) (x : Saw) : (s.setSaw v x).xovL = s.xovL := by cases v <;> rfl
@[simp] theorem setSaw_xovR (v : Voice) (x : Saw) : (s.setSaw v x).xovR = s.xovR := by cases v <;> rfl
@[simp] theorem setSaw_cfg (v : Voice) (x : Saw) : (s.setSaw v x).cfg = s.cfg := by cases v <;> rfl
@[simp] theorem setSaw_rng (v : Voice) (x : Saw) : (s.setSaw v x).rng = s.rng := by cases v <;> rfl
@[simp] theorem setSaw_sinkReady (v : Voice) (x : Saw) : (s.setSaw v x).sinkReady = s.sinkReady := by cases v <;> rfl
@[simp] theorem setSaw_cmd (v : Voice) (x : Saw) : (s.setSaw v x).cmd = s.cmd := by cases v <;> rfl
@[simp] theorem setSaw_num (v : Voice) (x : Saw) : (s.setSaw v x).num = s.num := by cases v <;> rfl

/-! ### `setXov` -/

@[simp] theorem setXov_regs (c : Channel) (x : Bands Bandpass) : (s.setXov c x).regs = s.regs := by cases c <;> rfl
@[simp] theorem setXov_n (c : Channel) (x : Bands Bandpass) : (s.setXov c x).n = s.n := by cases c <;> rfl
@[simp] theorem setXov_tick (c : Channel) (x : Bands Bandpass) : (s.setXov c x).tick = s.tick := by cases c <;> rfl
@[simp] theorem setXov_tpos (c : Channel) (x : Bands Bandpass) : (s.setXov c x).tpos = s.tpos := by cases c <;> rfl
@[simp] theorem setXov_nextTick (c : Channel) (x : Bands Bandpass) : (s.setXov c x).nextTick = s.nextTick := by cases c <;> rfl
@[simp] theorem setXov_tk (c : Channel) (x : Bands Bandpass) : (s.setXov c x).tk = s.tk := by cases c <;> rfl
@[simp] theorem setXov_pc (c : Channel) (x : Bands Bandpass) : (s.setXov c x).pc = s.pc := by cases c <;> rfl
@[simp] theorem setXov_run (c : Channel) (x : Bands Bandpass) : (s.setXov c x).run = s.run := by cases c <;> rfl
@[simp] theorem setXov_fault (c : Channel) (x : Bands Bandpass) : (s.setXov c x).fault = s.fault := by cases c <;> rfl
@[simp] theorem setXov_finfo (c : Channel) (x : Bands Bandpass) : (s.setXov c x).finfo = s.finfo := by cases c <;> rfl
@[simp] theorem setXov_rngIdx (c : Channel) (x : Bands Bandpass) : (s.setXov c x).rngIdx = s.rngIdx := by cases c <;> rfl
@[simp] theorem setXov_out (c : Channel) (x : Bands Bandpass) : (s.setXov c x).out = s.out := by cases c <;> rfl
@[simp] theorem setXov_outCnt (c : Channel) (x : Bands Bandpass) : (s.setXov c x).outCnt = s.outCnt := by cases c <;> rfl
@[simp] theorem setXov_drum (c : Channel) (x : Bands Bandpass) : (s.setXov c x).drum = s.drum := by cases c <;> rfl
@[simp] theorem setXov_sawBass (c : Channel) (x : Bands Bandpass) : (s.setXov c x).sawBass = s.sawBass := by cases c <;> rfl
@[simp] theorem setXov_sawMel (c : Channel) (x : Bands Bandpass) : (s.setXov c x).sawMel = s.sawMel := by cases c <;> rfl
@[simp] theorem setXov_hat (c : Channel) (x : Bands Bandpass) : (s.setXov c x).hat = s.hat := by cases c <;> rfl
@[simp] theorem setXov_dly (c : Channel) (x : Bands Bandpass) : (s.setXov c x).dly = s.dly := by cases c <;> rfl
@[simp] theorem setXov_ring (c : Channel) (x : Bands Bandpass) : (s.setXov c x).ring = s.ring := by cases c <;> rfl
@[simp] theorem setXov_cfg (c : Channel) (x : Bands Bandpass) : (s.setXov c x).cfg = s.cfg := by cases c <;> rfl
@[simp] theorem setXov_rng (c : Channel) (x : Bands Bandpass) : (s.setXov c x).rng = s.rng := by cases c <;> rfl
@[simp] theorem setXov_sinkReady (c : Channel) (x : Bands Bandpass) : (s.setXov c x).sinkReady = s.sinkReady := by cases c <;> rfl
@[simp] theorem setXov_cmd (c : Channel) (x : Bands Bandpass) : (s.setXov c x).cmd = s.cmd := by cases c <;> rfl
@[simp] theorem setXov_num (c : Channel) (x : Bands Bandpass) : (s.setXov c x).num = s.num := by cases c <;> rfl

@[simp] theorem setSaw_bass_sawBass (x : Saw) : (s.setSaw .bass x).sawBass = x := rfl
@[simp] theorem setSaw_bass_sawMel (x : Saw) : (s.setSaw .bass x).sawMel = s.sawMel := rfl
@[simp] theorem setSaw_melody_sawBass (x : Saw) : (s.setSaw .melody x).sawBass = s.sawBass := rfl
@[simp] theorem setSaw_melody_sawMel (x : Saw) : (s.setSaw .melody x).sawMel = x := rfl
@[simp] theorem setXov_left_xovL (x : Bands Bandpass) : (s.setXov .left x).xovL = x := rfl
@[simp] theorem setXov_left_xovR (x : Bands Bandpass) : (s.setXov .left x).xovR = s.xovR := rfl
@[simp] theorem setXov_right_xovL (x : Bands Bandpass) : (s.setXov .right x).xovL = s.xovL := rfl
@[simp] theorem setXov_right_xovR (x : Bands Bandpass) : (s.setXov .right x).xovR = x := rfl

@[simp] theorem saw_setSaw_self (v : Voice) (x : Saw) : (s.setSaw v x).saw v = x := by
  cases v <;> rfl

theorem saw_setSaw_other (v u : Voice) (x : Saw) (h : u ≠ v) : (s.setSaw v x).saw u = s.saw u := by
  cases v <;> cases u <;> first | rfl | exact absurd rfl h

@[simp] theorem xov_setXov_self (c : Channel) (x : Bands Bandpass) : (s.setXov c x).xov c = x := by
  cases c <;> rfl

theorem xov_setXov_other (c d : Channel) (x : Bands Bandpass) (h : d ≠ c) :
    (s.setXov c x).xov d = s.xov d := by
  cases c <;> cases d <;> first | rfl | exact absurd rfl h

/-! ### Registers -/

@[simp] theorem reg_setReg_self (r : Reg) (v : NumVal) : (s.setReg r v).reg r = v := by
  simp [State.reg]

@[simp] theorem reg_setReg_other (r q : Reg) (v : NumVal) (h : q ≠ r) :
    (s.setReg r v).reg q = s.reg q := by
  have : r.val ≠ q.val := fun e => h (Fin.ext e.symm)
  simp [State.reg, this]

@[simp] theorem reg_advance (r : Reg) : s.advance.reg r = s.reg r := rfl
@[simp] theorem reg_raise (f : FaultCode) (k : Nat) (r : Reg) : (s.raise f k).reg r = s.reg r := rfl
@[simp] theorem reg_emit (b : Byte) (r : Reg) : (s.emit b).reg r = s.reg r := rfl

@[simp] theorem reg_setSaw (v : Voice) (x : Saw) (r : Reg) : (s.setSaw v x).reg r = s.reg r := by
  simp [State.reg]
@[simp] theorem reg_setXov (c : Channel) (x : Bands Bandpass) (r : Reg) :
    (s.setXov c x).reg r = s.reg r := by
  simp [State.reg]

/-! ### Voices and channels under updates of other units -/

@[simp] theorem saw_setReg (r : Reg) (v : NumVal) (u : Voice) : (s.setReg r v).saw u = s.saw u := by
  cases u <;> rfl
@[simp] theorem saw_advance (u : Voice) : s.advance.saw u = s.saw u := by cases u <;> rfl
@[simp] theorem saw_raise (f : FaultCode) (k : Nat) (u : Voice) : (s.raise f k).saw u = s.saw u := by
  cases u <;> rfl
@[simp] theorem saw_setXov (c : Channel) (x : Bands Bandpass) (u : Voice) :
    (s.setXov c x).saw u = s.saw u := by
  cases u <;> simp [State.saw]
@[simp] theorem xov_setReg (r : Reg) (v : NumVal) (d : Channel) : (s.setReg r v).xov d = s.xov d := by
  cases d <;> rfl
@[simp] theorem xov_advance (d : Channel) : s.advance.xov d = s.xov d := by cases d <;> rfl
@[simp] theorem xov_raise (f : FaultCode) (k : Nat) (d : Channel) : (s.raise f k).xov d = s.xov d := by
  cases d <;> rfl
@[simp] theorem xov_setSaw (v : Voice) (x : Saw) (d : Channel) : (s.setSaw v x).xov d = s.xov d := by
  cases d <;> simp [State.xov]

/-- Writing back what a register holds changes nothing (40_primitives.md R131, `rd = rs`). -/
theorem setReg_reg (r : Reg) : s.setReg r (s.reg r) = s := by
  simp [State.setReg, State.reg]

end Sys2Proof.Machine
end

