-- ==== Sys2Proof/Laws/Ops.lean ====
section
/-! SUPPORT. What each shared operation can do, said once: the guard of non-finite values, the end of an op,
the random stream, the hi-hat's lanes, the triggers and the pattern actions. -/

namespace Sys2Proof.Machine

/-! ## The guard of non-finite values -/

theorem commit_of_finite {s t : State} {i : Instr} {l : List NumVal}
    (h : ∀ v ∈ l, v.isFinite = true) : s.commit i l t = t := by
  have : l.all NumVal.isFinite = true := by simpa using h
  simp [State.commit, this]

theorem commit_of_nonFinite {s t : State} {i : Instr} {l : List NumVal}
    (h : ∃ v ∈ l, v.isFinite = false) : s.commit i l t = s.raise .numInvalid (encode i).toNat := by
  have : l.all NumVal.isFinite = false := by simpa using h
  simp [State.commit, this]

/-- A guarded op either has all its effects, every value it wrote being finite, or raises `NumInvalid`. -/
theorem commit_cases (s t : State) (i : Instr) (l : List NumVal) :
    ((∀ v ∈ l, v.isFinite = true) ∧ s.commit i l t = t) ∨
    ((∃ v ∈ l, v.isFinite = false) ∧ s.commit i l t = s.raise .numInvalid (encode i).toNat) := by
  by_cases h : ∀ v ∈ l, v.isFinite = true
  · exact .inl ⟨h, commit_of_finite h⟩
  · have h' : ∃ v ∈ l, v.isFinite = false := by simpa using h
    exact .inr ⟨h', commit_of_nonFinite h'⟩

/-- `raise` of an op, with its information written as the word it is. -/
theorem raise_word (s : State) (f : FaultCode) (w : Word) :
    s.raise f w.toNat = { s with fault := f.code, finfo := w, run := .fault } := by
  simp [State.raise]

theorem finish_of_finite {s t : State} {i : Instr} {l : List NumVal} {rd : Reg} {v : NumVal}
    (hv : v.isFinite = true) (h : ∀ x ∈ l, x.isFinite = true) :
    s.finish i l t rd v = .next (t.setReg rd v).advance := by
  rw [State.finish, commit_of_finite]
  simpa using ⟨hv, h⟩

theorem finish_of_nonFinite {s t : State} {i : Instr} {l : List NumVal} {rd : Reg} {v : NumVal}
    (h : ∃ x ∈ v :: l, x.isFinite = false) :
    s.finish i l t rd v = .next { s with fault := 5, finfo := encode i, run := .fault } := by
  rw [State.finish, commit_of_nonFinite h, raise_word]
  rfl

theorem finish_cases (s t : State) (i : Instr) (l : List NumVal) (rd : Reg) (v : NumVal) :
    ((∀ x ∈ v :: l, x.isFinite = true) ∧ s.finish i l t rd v = .next (t.setReg rd v).advance) ∨
    ((∃ x ∈ v :: l, x.isFinite = false) ∧
      s.finish i l t rd v = .next (s.raise .numInvalid (encode i).toNat)) := by
  rcases commit_cases s (t.setReg rd v).advance i (v :: l) with ⟨h, e⟩ | ⟨h, e⟩
  · exact .inl ⟨h, congrArg _ e⟩
  · exact .inr ⟨h, congrArg _ e⟩

/-! ## The numeric domains -/

@[simp] theorem numOps_exact : numOps .exact = exactOps := rfl

/-- The two numbers of the reset state are finite numbers in the exact domain and in binary64. -/
theorem reset_numbers_finite {d : NumDomain} (h : d = .exact ∨ d = .binary64) :
    ((numOps d).ofNat 0).isFinite = true ∧ ((numOps d).ofDec (3/10)).isFinite = true := by
  rcases h with rfl | rfl
  · exact ⟨rfl, rfl⟩
  · exact ⟨rfl, by decide +kernel⟩

theorem piRat_bounds : 3 < piRat ∧ piRat < 4 := by decide +kernel

/-- What is left of an argument after its quarter turns is at most an eighth of a turn. -/
theorem reduceTurn_small (x : Rat) : |(reduceTurn x).2| ≤ 1 := by
  have hp := piRat_bounds
  have h1 := Int.floor_le (x * 2 / piRat + 1/2)
  have h2 := Int.lt_floor_add_one (x * 2 / piRat + 1/2)
  have hx : x * 2 = x * 2 / piRat * piRat := by rw [div_mul_cancel₀]; linarith
  show |x - (⌊x * 2 / piRat + 1/2⌋ : Int) * piRat / 2| ≤ 1
  generalize x * 2 / piRat = y at *
  rw [abs_le]
  constructor <;> nlinarith

theorem seriesTail_le (k x2 n j : Nat) : seriesTail k x2 n j ≤ seriesScale := by
  cases n with
  | zero => exact le_refl _
  | succ n => exact Nat.sub_le _ _

/-- Both series of binary64 stay in `[-1, 1]` near zero. -/
theorem small_bounds {r : Rat} (hr : |r| ≤ 1) : |sinSmall r| ≤ 1 ∧ |cosSmall r| ≤ 1 := by
  have hs : (0 : Rat) < seriesScale := by
    have : 0 < seriesScale := by decide +kernel
    exact_mod_cast this
  have ht : ∀ k x2 n j, (0 : Rat) ≤ (seriesTail k x2 n j : Rat) / seriesScale ∧
      (seriesTail k x2 n j : Rat) / seriesScale ≤ 1 := fun k x2 n j =>
    ⟨by positivity, (div_le_one hs).mpr (by exact_mod_cast seriesTail_le k x2 n j)⟩
  constructor
  · obtain ⟨h0, h1⟩ := ht 1 (fixedSquare r) 24 1
    rw [sinSmall, mul_div_assoc, abs_mul, abs_of_nonneg h0]
    exact mul_le_one₀ hr h0 h1
  · obtain ⟨h0, h1⟩ := ht 0 (fixedSquare r) 24 1
    rw [cosSmall, abs_of_nonneg h0]
    exact h1

/-- `cos` of binary64, before it is rounded, lies in `[-1, 1]` for every argument (40_primitives.md R126). -/
theorem cosRat_range (x : Rat) : |cosRat x| ≤ 1 := by
  obtain ⟨h1, h2⟩ := small_bounds (reduceTurn_small x)
  unfold cosRat
  split
  rename_i k r he
  rw [he] at h1 h2
  split <;> simpa using ‹_›

/-- `sin` of binary64, before it is rounded, lies in `[-1, 1]` for every argument. -/
theorem sinRat_range (x : Rat) : |sinRat x| ≤ 1 := by
  obtain ⟨h1, h2⟩ := small_bounds (reduceTurn_small x)
  unfold sinRat
  split
  rename_i k r he
  rw [he] at h1 h2
  split <;> simpa using ‹_›

/-! ## Primitives -/

/-- One smoother step in the exact domain (40_primitives.md R121). -/
theorem toReal_ema (c t : NumVal) : toReal (ema exactOps c t) = (toReal c * 31 + toReal t) / 32 := by
  rw [ema, toReal_div _ _ (by simp)]
  simp

/-- One low-pass step in the exact domain (40_primitives.md R123). -/
theorem toReal_lpf (y x k : NumVal) :
    toReal (lpf exactOps y x k) = toReal y + (toReal x - toReal y) * toReal k := by
  simp [lpf]

/-- A clamped value is inside the bounds, and clamping it again changes nothing (40_primitives.md R128). -/
theorem clamp_range {o : NumOps} {lo hi : NumVal} (x : NumVal) (hlo : o.lt lo lo = false)
    (hhi : o.lt hi hi = false) (h : o.lt hi lo = false) :
    o.lt (clamp o x lo hi) lo = false ∧ o.lt hi (clamp o x lo hi) = false ∧
      clamp o (clamp o x lo hi) lo hi = clamp o x lo hi := by
  simp only [clamp, gt]
  by_cases h1 : o.lt x lo = true <;> by_cases h2 : o.lt hi x = true <;> simp_all

/-- One oscillator step in the exact domain (40_primitives.md R126). -/
theorem oscStep_toReal (p i : NumVal) :
    toReal (oscStep exactOps p i).y = Real.cos (toReal p) ∧
    ((oscStep exactOps p i).wrapped = true ↔ Real.pi < toReal p + toReal i) ∧
    toReal (oscStep exactOps p i).phase =
      if Real.pi < toReal p + toReal i then toReal p + toReal i - Real.pi else toReal p + toReal i := by
  refine ⟨by simp [oscStep], by simp [oscStep, gt], ?_⟩
  by_cases h : Real.pi < toReal p + toReal i
  · have : exactOps.lt exactOps.pi (exactOps.add p i) = true := by simpa using h
    simp [oscStep, gt, this, h]
  · have : exactOps.lt exactOps.pi (exactOps.add p i) = false := by simpa using h
    simp [oscStep, gt, this, h]

/-- The sum of a bank is the sum of its cosines (40_primitives.md R127). -/
theorem toReal_oscBankSum {k : Nat} (p i : Vector NumVal k) :
    toReal (oscBankSum exactOps p i) = ((List.finRange k).map fun j => Real.cos (toReal p[j])).sum := by
  unfold oscBankSum
  suffices h : ∀ (l : List (Fin k)) (a : NumVal),
      toReal (l.foldl (fun acc j => exactOps.add acc (oscStep exactOps p[j] i[j]).y) a) =
        toReal a + (l.map fun j => Real.cos (toReal p[j])).sum by
    rw [h]
    simp
  intro l
  induction l with
  | nil => simp
  | cons j l ih =>
    intro a
    rw [List.foldl_cons, ih, List.map_cons, List.sum_cons, toReal_add, (oscStep_toReal _ _).1]
    ring

/-- The guarded zero in the exact domain (42_drum_voice.md R173). -/
theorem toReal_floorZero (v : NumVal) : toReal (floorZero exactOps v) = max 0 (toReal v) := by
  by_cases h : toReal v < 0
  · have : exactOps.lt v (exactOps.ofDec 0) = true := by simpa using h
    rw [floorZero, if_pos this, max_eq_left h.le]
    simp
  · have : ¬ exactOps.lt v (exactOps.ofDec 0) = true := by simpa using h
    rw [floorZero, if_neg this, max_eq_right (not_lt.mp h)]

/-- The sum of a five-lane bank, written out (40_primitives.md R127). -/
theorem oscBankSum_five (o : NumOps) (p i : Vector NumVal 5) :
    oscBankSum o p i = o.add (o.add (o.add (o.add (o.add (o.ofNat 0) (o.cos p[0])) (o.cos p[1]))
      (o.cos p[2])) (o.cos p[3])) (o.cos p[4]) := rfl

/-- The partial targets, written out (43_chorus_saw_voice.md R191). -/
theorem partialTargets_eq (o : NumOps) (f : NumVal) :
    partialTargets o f = #v[o.mul f (partialMul o 0), o.mul f (partialMul o 1), o.mul f (partialMul o 2),
      o.mul f (partialMul o 3), o.mul f (partialMul o 4)] := rfl

/-- Dividing `k` times in succession is iterating the division (44_hihat_voice.md R215). -/
theorem divTimes_eq_iterate (o : NumOps) (d : NumVal) (k : Nat) (f : NumVal) :
    divTimes o d k f = (fun x => o.div x d)^[k] f := by
  induction k generalizing f with
  | zero => rfl
  | succ k ih => rw [divTimes, ih, Function.iterate_succ_apply]

/-! ## The hi-hat -/

/-- A lane takes no draw, one, or two (44_hihat_voice.md R215). -/
theorem hatLane_idx (o : NumOps) (c : HatCfg) (rng : RngStream) (p i : NumVal) (k : Nat) :
    k ≤ (hatLane o c rng p i k).idx ∧ (hatLane o c rng p i k).idx ≤ k + 2 := by
  unfold hatLane
  dsimp only
  split
  · split <;> simp
  · simp

/-- The four lanes take between 0 and 8 draws (44_hihat_voice.md R215). -/
theorem hatLanes_idx (o : NumOps) (c : HatCfg) (rng : RngStream) (h : Hat) (k : Nat) :
    k ≤ (hatLanes o c rng h k)[3].idx ∧ (hatLanes o c rng h k)[3].idx ≤ k + 8 := by
  have h0 := hatLane_idx o c rng h.phase[0] h.inc[0] k
  have h1 := hatLane_idx o c rng h.phase[1] h.inc[1] (hatLane o c rng h.phase[0] h.inc[0] k).idx
  have h2 := hatLane_idx o c rng h.phase[2] h.inc[2]
    (hatLane o c rng h.phase[1] h.inc[1] (hatLane o c rng h.phase[0] h.inc[0] k).idx).idx
  have h3 := hatLane_idx o c rng h.phase[3] h.inc[3] (hatLane o c rng h.phase[2] h.inc[2]
    (hatLane o c rng h.phase[1] h.inc[1] (hatLane o c rng h.phase[0] h.inc[0] k).idx).idx).idx
  simp only [hatLanes, Vector.getElem_mk, List.getElem_toArray, List.getElem_cons_succ,
    List.getElem_cons_zero]
  omega

/-! ## The pattern actions -/

/-- The pattern actions by unit (46_sequencer.md R244). -/
theorem patternActions_eq (k : Nat) (s : State) :
    patternActions k s = { s with
      drum := if patternFires s.cfg.patDrum k then drumTriggered s.num s.cfg.drum else s.drum
      hat := if patternFires s.cfg.patHat k then { s.hat with vol := s.cfg.hat.vol0 } else s.hat
      sawBass := match patternTarget s.cfg.patBass k with
        | some t => { s.sawBass with
            tinc := partialTargets s.num (s.num.mul s.cfg.sawBass.fund t.tune), tvol := t.vol }
        | none => s.sawBass
      sawMel := match patternTarget s.cfg.patMel k with
        | some t => { s.sawMel with
            tinc := partialTargets s.num (s.num.mul s.cfg.sawMel.fund t.tune), tvol := t.vol }
        | none => s.sawMel } := by
  unfold patternActions
  cases hd : patternFires s.cfg.patDrum k <;> cases hh : patternFires s.cfg.patHat k <;>
    cases hb : patternTarget s.cfg.patBass k <;> cases hm : patternTarget s.cfg.patMel k <;>
    simp [hh, hb, hm, drumTrigger, hatArm, retargetIf, sawRetarget, State.setSaw, State.saw, sawCfg,
      State.num]

/-- Which units the pattern actions change, and that every number they put there is one of `patternWrites`
(46_sequencer.md R244). -/
theorem patternActions_cases (k : Nat) (s : State) : ∃ d b m v,
    patternActions k s = { s with
      drum := d, sawBass := b, sawMel := m, hat := { s.hat with vol := v } } ∧
    (d = s.drum ∨ d = drumTriggered s.num s.cfg.drum ∧ ∀ x ∈ d.nums, x ∈ patternWrites k s) ∧
    (v = s.hat.vol ∨ v ∈ patternWrites k s) ∧
    (∃ tinc tvol, b = { s.sawBass with tinc := tinc, tvol := tvol } ∧
      (b = s.sawBass ∨ ∀ x ∈ tvol :: tinc.toList, x ∈ patternWrites k s)) ∧
    (∃ tinc tvol, m = { s.sawMel with tinc := tinc, tvol := tvol } ∧
      (m = s.sawMel ∨ ∀ x ∈ tvol :: tinc.toList, x ∈ patternWrites k s)) := by
  rw [patternActions_eq]
  have hhat : ∃ v, (if patternFires s.cfg.patHat k = true then { s.hat with vol := s.cfg.hat.vol0 } else s.hat) =
      { s.hat with vol := v } ∧ (v = s.hat.vol ∨ v ∈ patternWrites k s) := by
    cases hh : patternFires s.cfg.patHat k
    · exact ⟨_, rfl, .inl rfl⟩
    · exact ⟨_, rfl, .inr (by simp [patternWrites, hh, hatArmWrites])⟩
  obtain ⟨v, hv, hw⟩ := hhat
  rw [hv]
  refine ⟨_, _, _, v, rfl, ?_, hw, ?_, ?_⟩
  · cases hd : patternFires s.cfg.patDrum k
    · exact .inl rfl
    · refine .inr ⟨rfl, fun x hx => ?_⟩
      simp only [if_true] at hx
      simp [patternWrites, hd, drumTriggerWrites, hx]
  · cases hb : patternTarget s.cfg.patBass k with
    | none => exact ⟨_, _, rfl, .inl rfl⟩
    | some t =>
      refine ⟨_, _, rfl, .inr fun x hx => ?_⟩
      simp only [patternWrites, hb, retargetIfWrites, List.mem_append]
      exact .inl (.inr hx)
  · cases hm : patternTarget s.cfg.patMel k with
    | none => exact ⟨_, _, rfl, .inl rfl⟩
    | some t =>
      refine ⟨_, _, rfl, .inr fun x hx => ?_⟩
      simp only [patternWrites, hm, retargetIfWrites, List.mem_append]
      exact .inr hx

/-! ## The encoder -/

/-- Emitting the three bytes of a sample (47_mixer_output.md R272). -/
theorem emit_encBytes (s : State) (u : BitVec 24) :
    (encBytes u).foldl State.emit s = { s with out := s.out ++ encBytes u, outCnt := s.outCnt + 3 } := by
  simp [encBytes, State.emit]

end Sys2Proof.Machine
end

