-- ==== Sys2Proof/Laws/Exec.lean ====
section
/-! SUPPORT. What an op can do, said once for all 18: it has its whole effect, every number it wrote being
finite, or it raises one of the two faults of an op and changes nothing else (60_exceptions.md R291, R301). -/

namespace Sys2Proof.Machine

/-- The `NUM` values an op writes (R301). -/
def written : Instr → State → List NumVal
  | .nop, _ | .ends, _ | .enc _, _ => []
  | .mov _ rs, s => [s.reg rs]
  | .acc rd rs, s => [s.num.add (s.reg rd) (s.reg rs)]
  | .clamp _ rs, s => [clamp s.num (s.reg rs) (natMinusOne s.num) (s.num.ofNat 1)]
  | .xov c _ rs, s =>
    (xoverStep s.num s.cfg (s.xov c) (s.reg rs)).2 ::
      bandNums (xoverStep s.num s.cfg (s.xov c) (s.reg rs)).1
  | .trig, s => drumTriggerWrites s
  | .drum _ rs, s =>
    if s.drum.on then drumBlend s.num s.drum (s.reg rs) :: drumWrites s.num s.cfg.drum s.drum
    else [s.reg rs]
  | .tgt v rd rs, s => sawRetargetWrites v (s.reg rd) (s.reg rs) s
  | .saw v _, s =>
    (sawNext s.num (sawCutoff s.num s.cfg v s.n) (s.saw v)).xlo ::
      sawWrites (sawNext s.num (sawCutoff s.num s.cfg v s.n) (s.saw v))
  | .arm, s => hatArmWrites s
  | .hat _, s =>
    let r := hatCompute s.num s.cfg.hat s.rng s.hat s.rngIdx
    s.num.mul r.z s.hat.vol :: hatWrites s.num s.cfg.hat s.hat (hatNext s.num s.hat r) r.y
  | .dly _ rs, s => [dlyOut s.num s.dly (s.reg rs)]
  | .seq, s => if tickDue s then (tickClock s).tpos :: patternWrites s.tick s else []
  | .noise _, s =>
    [noiseSample s.num s.cfg.noise (rngAt s.rng s.rngIdx) (rngAt s.rng (s.rngIdx + 1))]
  | .rpush rs, s => [s.reg rs]
  | .img c _, s => [imageSample s.num s.cfg.ringLen s.ring (windowCfg s.cfg c)]

/-- The whole effect of an op, `pc` included. -/
def effect : Instr → State → State
  | .nop, s => s.advance
  | .mov rd rs, s => (s.setReg rd (s.reg rs)).advance
  | .acc rd rs, s => (s.setReg rd (s.num.add (s.reg rd) (s.reg rs))).advance
  | .clamp rd rs, s =>
    (s.setReg rd (clamp s.num (s.reg rs) (natMinusOne s.num) (s.num.ofNat 1))).advance
  | .xov c rd rs, s =>
    ((s.setXov c (xoverStep s.num s.cfg (s.xov c) (s.reg rs)).1).setReg rd
      (xoverStep s.num s.cfg (s.xov c) (s.reg rs)).2).advance
  | .trig, s => (drumTrigger s).advance
  | .drum rd rs, s =>
    if s.drum.on then
      ({ s with drum := drumNext s.num s.cfg.drum s.drum }.setReg rd
        (drumBlend s.num s.drum (s.reg rs))).advance
    else (s.setReg rd (s.reg rs)).advance
  | .tgt v rd rs, s => (sawRetarget v (s.reg rd) (s.reg rs) s).advance
  | .saw v rd, s =>
    let w := sawNext s.num (sawCutoff s.num s.cfg v s.n) (s.saw v)
    ((s.setSaw v w).setReg rd w.xlo).advance
  | .arm, s => (hatArm s).advance
  | .hat rd, s =>
    let r := hatCompute s.num s.cfg.hat s.rng s.hat s.rngIdx
    ({ s with hat := hatNext s.num s.hat r, rngIdx := r.lanes[3].idx }.setReg rd
      (s.num.mul r.z s.hat.vol)).advance
  | .dly rd rs, s =>
    let v := dlyOut s.num s.dly (s.reg rs)
    ({ s with dly := dlyPush s.num s.cfg.dlLen s.dly v }.setReg rd v).advance
  | .seq, s =>
    if tickDue s then (patternActions s.tick (tickClock s)).advance else { s with tk := false }.advance
  | .ends, s =>
    if s.n + 1 = s.cfg.nSamples then { s with n := s.n + 1, run := .done }
    else { s with n := s.n + 1, pc := 0 }
  | .noise rd, s =>
    ({ s with rngIdx := s.rngIdx + 2 }.setReg rd
      (noiseSample s.num s.cfg.noise (rngAt s.rng s.rngIdx) (rngAt s.rng (s.rngIdx + 1)))).advance
  | .rpush rs, s => { s with ring := ringPush s.num s.cfg.ringLen s.ring (s.reg rs) }.advance
  | .img c rd, s =>
    (s.setReg rd (imageSample s.num s.cfg.ringLen s.ring (windowCfg s.cfg c))).advance
  | .enc rs, s => ((encBytes (encQuantum s.num (s.reg rs))).foldl State.emit s).advance

/-- What an op can do: its effect, `NumInvalid`, or `EncRange` of an ENC. -/
theorem exec_cases (i : Instr) (s : State) :
    ((∀ v ∈ written i s, v.isFinite = true) ∧ exec i s = .next (effect i s)) ∨
    ((∃ v ∈ written i s, v.isFinite = false) ∧
      exec i s = .next (s.raise .numInvalid (encode i).toNat)) ∨
    (∃ rs, i = .enc rs ∧ encOutside s.num (s.reg rs) = true ∧
      exec i s = .next (s.raise .encRange rs.val)) := by
  have hc : ∀ (i : Instr) (l : List NumVal) (t : State),
      ((∀ v ∈ l, v.isFinite = true) ∧ Host.Outcome.next (s.commit i l t) = (.next t : Result)) ∨
      ((∃ v ∈ l, v.isFinite = false) ∧ Host.Outcome.next (s.commit i l t) =
        (.next (s.raise .numInvalid (encode i).toNat) : Result)) := fun i l t =>
    (commit_cases s t i l).imp (fun h => ⟨h.1, congrArg _ h.2⟩) (fun h => ⟨h.1, congrArg _ h.2⟩)
  cases i with
  | nop => exact .inl ⟨by simp [written], rfl⟩
  | ends =>
    refine .inl ⟨by simp [written], ?_⟩
    simp only [exec, execEnds, effect]
    split <;> rfl
  | enc rs =>
    simp only [exec, execEnc, effect]
    by_cases h : encOutside s.num (s.reg rs) = true
    · exact .inr (.inr ⟨rs, rfl, h, by simp [h]⟩)
    · exact .inl ⟨by simp [written], by simp [h]⟩
  | seq =>
    simp only [exec, execSeq, effect, written]
    by_cases h : tickDue s = true
    · simp only [h, if_true]
      exact (hc _ _ _).imp_right .inl
    · simp [h]
  | drum rd rs =>
    simp only [exec, execDrum, effect, written]
    by_cases h : s.drum.on = true
    · simp only [h, if_true]
      exact (finish_cases s _ _ _ _ _).imp_right .inl
    · simp only [h]
      exact (finish_cases s _ _ _ _ _).imp_right .inl
  | trig => exact (hc .trig _ _).imp_right .inl
  | tgt v rd rs => exact (hc (.tgt v rd rs) _ _).imp_right .inl
  | arm => exact (hc .arm _ _).imp_right .inl
  | rpush rs => exact (hc (.rpush rs) _ _).imp_right .inl
  | mov rd rs => exact (finish_cases s s (.mov rd rs) _ _ _).imp_right .inl
  | acc rd rs => exact (finish_cases s s (.acc rd rs) _ _ _).imp_right .inl
  | clamp rd rs => exact (finish_cases s s (.clamp rd rs) _ _ _).imp_right .inl
  | xov c rd rs => exact (finish_cases s _ (.xov c rd rs) _ _ _).imp_right .inl
  | saw v rd => exact (finish_cases s _ (.saw v rd) _ _ _).imp_right .inl
  | hat rd => exact (finish_cases s _ (.hat rd) _ _ _).imp_right .inl
  | dly rd rs => exact (finish_cases s _ (.dly rd rs) _ _ _).imp_right .inl
  | noise rd => exact (finish_cases s _ (.noise rd) _ _ _).imp_right .inl
  | img c rd => exact (finish_cases s _ (.img c rd) _ _ _).imp_right .inl

/-- An op one of whose written values is not a finite number raises `NumInvalid`: an ENC writes none. -/
theorem exec_of_nonFinite {i : Instr} {s : State} {v : NumVal} (hv : v ∈ written i s)
    (h : v.isFinite = false) : exec i s = .next (s.raise .numInvalid (encode i).toNat) := by
  rcases exec_cases i s with ⟨hw, -⟩ | ⟨-, he⟩ | ⟨rs, rfl, -⟩
  · exact absurd (hw v hv) (by simp [h])
  · exact he
  · cases hv

/-- R173, R301: the phase before the wrap test is written, so it is judged although a wrap writes again. -/
theorem exec_drum_of_phase_nonFinite {s : State} {rd rs : Reg} (hon : s.drum.on = true)
    (h : (drumPhase s.num s.cfg.drum s.drum).isFinite = false) :
    exec (.drum rd rs) s = .next (s.raise .numInvalid (encode (.drum rd rs)).toNat) :=
  exec_of_nonFinite (by simp [written, hon, drumWrites]) h

/-- R213, R301: a decayed increment is written, so it is judged although a hit writes again. -/
theorem exec_hat_of_decayed_nonFinite {s : State} {rd : Reg} (k : Fin 4)
    (h : (hatDecayed s.num s.cfg.hat s.hat.inc[k]).isFinite = false) :
    exec (.hat rd) s = .next (s.raise .numInvalid (encode (.hat rd)).toNat) :=
  exec_of_nonFinite (v := hatDecayed s.num s.cfg.hat s.hat.inc[k])
    (by
      have : s.hat.inc[k] ∈ s.hat.inc.toList := by simp
      simp only [written, hatWrites, List.mem_cons, List.mem_append, List.mem_map]
      exact .inr (.inl (.inl (.inr ⟨_, this, rfl⟩)))) h

end Sys2Proof.Machine
end

