-- ==== Sys2Proof/Laws/PerInstr.lean ====
section
/-! SUPPORT. Two facts about every instruction as syntax, one lemma a constructor: its word holds its fields,
and its fields pass the checks of its opcode (30_encoding.md R90 to R93). -/

namespace Sys2Proof

/-- The four fields are read back from the word they make (30_encoding.md R90, R93). -/
theorem fieldsOf_wordOf (f : Fields) : fieldsOf (wordOf f) = f := by
  obtain ⟨opc, inst, rd, rs⟩ := f
  simp only [fieldsOf, wordOf, Fields.mk.injEq]
  refine ⟨?_, ?_, ?_, ?_⟩ <;>
    · ext j hj
      simp only [BitVec.getElem_extractLsb', BitVec.getLsbD_append]
      rcases (by omega : j = 0 ∨ j = 1 ∨ j = 2 ∨ j = 3 ∨ j = 4 ∨ j = 5 ∨ j = 6 ∨ j = 7) with
        h | h | h | h | h | h | h | h <;> first | (exfalso; omega) | (subst h; simp_all)

end Sys2Proof

namespace Sys2Proof.Laws

/-- The word of the instruction holds exactly its fields. -/
def FieldsRead.Statement (i : Instr) : Prop := fieldsOf (encode i) = i.fields

theorem FieldsRead.nop : FieldsRead.Statement .nop := fieldsOf_wordOf _
theorem FieldsRead.mov (rd rs : Reg) : FieldsRead.Statement (.mov rd rs) := fieldsOf_wordOf _
theorem FieldsRead.acc (rd rs : Reg) : FieldsRead.Statement (.acc rd rs) := fieldsOf_wordOf _
theorem FieldsRead.clamp (rd rs : Reg) : FieldsRead.Statement (.clamp rd rs) := fieldsOf_wordOf _
theorem FieldsRead.xov (c : Channel) (rd rs : Reg) : FieldsRead.Statement (.xov c rd rs) := fieldsOf_wordOf _
theorem FieldsRead.trig : FieldsRead.Statement .trig := fieldsOf_wordOf _
theorem FieldsRead.drum (rd rs : Reg) : FieldsRead.Statement (.drum rd rs) := fieldsOf_wordOf _
theorem FieldsRead.tgt (v : Voice) (rd rs : Reg) : FieldsRead.Statement (.tgt v rd rs) := fieldsOf_wordOf _
theorem FieldsRead.saw (v : Voice) (rd : Reg) : FieldsRead.Statement (.saw v rd) := fieldsOf_wordOf _
theorem FieldsRead.arm : FieldsRead.Statement .arm := fieldsOf_wordOf _
theorem FieldsRead.hat (rd : Reg) : FieldsRead.Statement (.hat rd) := fieldsOf_wordOf _
theorem FieldsRead.dly (rd rs : Reg) : FieldsRead.Statement (.dly rd rs) := fieldsOf_wordOf _
theorem FieldsRead.seq : FieldsRead.Statement .seq := fieldsOf_wordOf _
theorem FieldsRead.ends : FieldsRead.Statement .ends := fieldsOf_wordOf _
theorem FieldsRead.noise (rd : Reg) : FieldsRead.Statement (.noise rd) := fieldsOf_wordOf _
theorem FieldsRead.rpush (rs : Reg) : FieldsRead.Statement (.rpush rs) := fieldsOf_wordOf _
theorem FieldsRead.img (c : Channel) (rd : Reg) : FieldsRead.Statement (.img c rd) := fieldsOf_wordOf _
theorem FieldsRead.enc (rs : Reg) : FieldsRead.Statement (.enc rs) := fieldsOf_wordOf _

/-- The instruction's fields pass the checks of its opcode (30_encoding.md R91). -/
def FieldsChecked.Statement (i : Instr) : Prop := i.fields.check i.opcode.shape = none

theorem FieldsChecked.nop : FieldsChecked.Statement .nop := rfl
theorem FieldsChecked.mov (rd rs : Reg) : FieldsChecked.Statement (.mov rd rs) := rfl
theorem FieldsChecked.acc (rd rs : Reg) : FieldsChecked.Statement (.acc rd rs) := rfl
theorem FieldsChecked.clamp (rd rs : Reg) : FieldsChecked.Statement (.clamp rd rs) := rfl
theorem FieldsChecked.xov (c : Channel) (rd rs : Reg) : FieldsChecked.Statement (.xov c rd rs) := by
  cases c <;> rfl
theorem FieldsChecked.trig : FieldsChecked.Statement .trig := rfl
theorem FieldsChecked.drum (rd rs : Reg) : FieldsChecked.Statement (.drum rd rs) := rfl
theorem FieldsChecked.tgt (v : Voice) (rd rs : Reg) : FieldsChecked.Statement (.tgt v rd rs) := by
  cases v <;> rfl
theorem FieldsChecked.saw (v : Voice) (rd : Reg) : FieldsChecked.Statement (.saw v rd) := by
  cases v <;> rfl
theorem FieldsChecked.arm : FieldsChecked.Statement .arm := rfl
theorem FieldsChecked.hat (rd : Reg) : FieldsChecked.Statement (.hat rd) := rfl
theorem FieldsChecked.dly (rd rs : Reg) : FieldsChecked.Statement (.dly rd rs) := rfl
theorem FieldsChecked.seq : FieldsChecked.Statement .seq := rfl
theorem FieldsChecked.ends : FieldsChecked.Statement .ends := rfl
theorem FieldsChecked.noise (rd : Reg) : FieldsChecked.Statement (.noise rd) := rfl
theorem FieldsChecked.rpush (rs : Reg) : FieldsChecked.Statement (.rpush rs) := rfl
theorem FieldsChecked.img (c : Channel) (rd : Reg) : FieldsChecked.Statement (.img c rd) := by
  cases c <;> rfl
theorem FieldsChecked.enc (rs : Reg) : FieldsChecked.Statement (.enc rs) := rfl

end Sys2Proof.Laws
end

