-- ==== Sys2Proof/Laws/Step.lean ====
section
/-! SUPPORT. What a step can do, said once, and the frame every op keeps. -/

namespace Sys2Proof.Machine

variable {s t : State}

theorem step_op (hc : s.cmd = []) (hr : s.run = .run) : step s = opStep s := by
  simp [step, hc, hr]

theorem step_noStep (hc : s.cmd = []) (hr : s.run ≠ .run) : step s = .fault (noStep s.run) := by
  simp [step, hc, hr]

theorem step_none_op {rest : List HostCmd} (hc : s.cmd = .none :: rest) (hr : s.run = .run) :
    step s = opStep { s with cmd := rest } := by
  simp [step, hc, hr]

theorem step_none_wait {rest : List HostCmd} (hc : s.cmd = .none :: rest) (hr : s.run ≠ .run) :
    step s = .next { s with cmd := rest } := by
  simp [step, hc, hr, hostStep]

theorem step_reset {rest : List HostCmd} (hc : s.cmd = .reset :: rest) :
    step s = .next (hostReset { s with cmd := rest }) := by
  simp [step, hc, hostStep]

theorem step_start {rest : List HostCmd} (hc : s.cmd = .start :: rest) :
    step s = .next (hostStart { s with cmd := rest }) := by
  simp [step, hc, hostStep]

/-- The fetch-execute cycle, its three cases (46_sequencer.md R246). -/
theorem opStep_cases (s : State) :
    (s.cfg.program[s.pc]? = none ∧ opStep s = .next (s.raise .fetchEnd s.pc)) ∨
    (∃ w r, s.cfg.program[s.pc]? = some w ∧ decode w = .error r ∧
      opStep s = .next (s.raise .illegalOp w.toNat)) ∨
    (∃ w i, s.cfg.program[s.pc]? = some w ∧ decode w = .ok i ∧ opStep s = exec i s) := by
  unfold opStep fetchWord
  cases h : s.cfg.program[s.pc]? with
  | none => exact .inl ⟨rfl, rfl⟩
  | some w =>
    cases hd : decode w with
    | error r => exact .inr (.inl ⟨w, r, rfl, hd, by simp [hd]⟩)
    | ok i => exact .inr (.inr ⟨w, i, rfl, hd, by simp [hd]⟩)

/-- What a step that has a next state did: it executed an op or raised a fetch fault (with `s'` the state
whose command port has been read), it waited, or it took RESET or START. -/
theorem step_cases (h : step s = .next t) :
    (∃ rest, (s.cmd = rest ∧ rest = [] ∨ s.cmd = .none :: rest) ∧ s.run = .run ∧
      opStep { s with cmd := rest } = .next t) ∨
    (∃ rest, s.cmd = .none :: rest ∧ s.run ≠ .run ∧ t = { s with cmd := rest }) ∨
    (∃ rest, s.cmd = .reset :: rest ∧ t = hostReset { s with cmd := rest }) ∨
    (∃ rest, s.cmd = .start :: rest ∧ t = hostStart { s with cmd := rest }) := by
  cases hc : s.cmd with
  | nil =>
    by_cases hr : s.run = .run
    · left
      refine ⟨[], .inl ⟨rfl, rfl⟩, hr, ?_⟩
      rw [step_op hc hr] at h
      rw [← h, ← hc]
    · rw [step_noStep hc hr] at h
      cases h
  | cons c rest =>
    cases c with
    | none =>
      by_cases hr : s.run = .run
      · left
        refine ⟨rest, .inr rfl, hr, ?_⟩
        rw [← h, step_none_op hc hr]
      · right; left
        rw [step_none_wait hc hr] at h
        exact ⟨rest, rfl, hr, by cases h; rfl⟩
    | reset =>
      right; right; left
      rw [step_reset hc] at h
      exact ⟨rest, rfl, by cases h; rfl⟩
    | start =>
      right; right; right
      rw [step_start hc] at h
      exact ⟨rest, rfl, by cases h; rfl⟩

/-- What START does, its four cases (60_exceptions.md R295). -/
theorem hostStart_cases (s : State) :
    (s.run ≠ .idle ∧ hostStart s = s) ∨
    (∃ k, s.run = .idle ∧ firstFailing s.cfg = some k ∧ hostStart s = s.raise .cfgInvalid k) ∨
    (s.run = .idle ∧ firstFailing s.cfg = none ∧ s.sinkReady = false ∧
      hostStart s = s.raise .resource 0) ∨
    (s.run = .idle ∧ firstFailing s.cfg = none ∧ s.sinkReady = true ∧
      hostStart s = { s with run := .run }) := by
  unfold hostStart
  by_cases hr : s.run = .idle
  · cases hf : firstFailing s.cfg <;> cases hk : s.sinkReady <;> simp [hr]
  · simp [hr]

/-- What START writes: the run state, and with a fault the two fault registers (60_exceptions.md R295). -/
theorem hostStart_frame (s : State) :
    ∃ r f k, hostStart s = { s with run := r, fault := f, finfo := k } := by
  rcases hostStart_cases s with ⟨-, h⟩ | ⟨k, -, -, h⟩ | ⟨-, -, -, h⟩ | ⟨-, -, -, h⟩ <;>
    exact ⟨_, _, _, h⟩

/-- A property that reading the command port, every op that is fetched and executed, the two fetch faults,
RESET and START all keep is kept by every step. -/
theorem step_keeps (P : State → Prop) (hcmd : ∀ s l, P s → P { s with cmd := l })
    (hexec : ∀ i s t, P s → s.run = .run →
      (∃ w, s.cfg.program[s.pc]? = some w ∧ decode w = .ok i) → exec i s = .next t → P t)
    (hend : ∀ s, P s → s.run = .run → s.cfg.program[s.pc]? = none → P (s.raise .fetchEnd s.pc))
    (hillegal : ∀ s w r, P s → s.run = .run → s.cfg.program[s.pc]? = some w → decode w = .error r →
      P (s.raise .illegalOp w.toNat))
    (hreset : ∀ s, P s → P (hostReset s)) (hstart : ∀ s, P s → P (hostStart s)) :
    ∀ s t, P s → step s = .next t → P t := by
  intro s t hp h
  rcases step_cases h with ⟨rest, -, hr, ho⟩ | ⟨rest, -, -, rfl⟩ | ⟨rest, -, rfl⟩ | ⟨rest, -, rfl⟩
  · have hp' := hcmd s rest hp
    rcases opStep_cases { s with cmd := rest } with
      ⟨h1, h2⟩ | ⟨w, r, h1, hd, h2⟩ | ⟨w, i, h1, hd, h2⟩ <;> rw [h2] at ho
    · cases ho; exact hend _ hp' hr h1
    · cases ho; exact hillegal _ w r hp' hr h1 hd
    · exact hexec i _ t hp' hr ⟨w, h1, hd⟩ ho
  · exact hcmd s rest hp
  · exact hreset _ (hcmd s rest hp)
  · exact hstart _ (hcmd s rest hp)

/-! ## The comparisons of the configuration checks (60_exceptions.md R296) -/

theorem parLt_iff (o : NumOps) (a b : NumVal) :
    parLt o a b = true ↔ a.isFinite = true ∧ b.isFinite = true ∧ o.lt a b = true := by
  simp [parLt, and_assoc]

theorem parLe_iff (o : NumOps) (a b : NumVal) :
    parLe o a b = true ↔ a.isFinite = true ∧ b.isFinite = true ∧ o.le a b = true := by
  simp [parLe, and_assoc]

/-- A comparison with a value that is not a finite number fails. -/
theorem parLt_nonFinite {o : NumOps} {a b : NumVal} (h : a.isFinite = false ∨ b.isFinite = false) :
    parLt o a b = false := by
  rcases h with h | h <;> simp [parLt, h]

theorem parLe_nonFinite {o : NumOps} {a b : NumVal} (h : a.isFinite = false ∨ b.isFinite = false) :
    parLe o a b = false := by
  rcases h with h | h <;> simp [parLe, h]

/-- START's first failing check (60_exceptions.md R293). -/
theorem firstFailing_none {c : Cfg} :
    firstFailing c = none ↔ ∀ k, 1 ≤ k → k ≤ 14 → cfgCheck c k = true := by
  simp only [firstFailing, checkNumbers, List.find?_eq_none, List.mem_cons, List.not_mem_nil, or_false,
    Bool.not_eq_true, Bool.not_eq_false']
  constructor
  · intro h k h1 h2
    exact h k (by omega)
  · intro h k hk
    exact h k (by omega) (by omega)

end Sys2Proof.Machine
end

