-- ==== Sys2Proof/Tests/Slice0.lean ====
section
/-! SUPPORT. Tests: words of the spec decoded, ill-formed words refused, one step of every op on a small
state with the results 95_test_vectors.md gives, and for every statement with hypotheses a state that meets
them. -/

namespace Sys2Proof.Machine

-- One theorem at a time: evaluating many at once takes a thread with a stack of its own for each.
set_option Elab.async false

/-! ## Helpers -/

/-- A property of the state an op leads to. -/
def after {α : Type} (i : Instr) (s : State) (f : State → α) : Option α :=
  match exec i s with
  | .next t => some (f t)
  | _ => none

/-- The reset state, executing, with register values. -/
def at_ (l : List (Reg × Rat)) : State :=
  { State.reset with
    run := .run, regs := l.foldl (fun v p => v.set p.1 (.fin p.2)) State.reset.regs }

/-- The reset state of REF over binary64, executing, with register values and a random stream. -/
def fl (l : List (Reg × Rat)) (rng : RngStream) : State :=
  let s := resetUnder (Config.refWith .binary64 round64) rng true []
  { s with run := .run, regs := l.foldl (fun v p => v.set p.1 (round64 p.2)) s.regs }

/-- A finite number within `10^-12` of `q`. -/
def near (v : NumVal) (q : Rat) : Bool :=
  match v with
  | .fin x => decide (x - q < 1/1000000000000) && decide (q - x < 1/1000000000000)
  | _ => false

/-- The largest finite binary64 number. -/
def huge : Rat := (2 ^ 53 - 1 : Nat) * (2 ^ 971 : Nat)

/-! ## Decoding: words of V30.1, of R99 and of R275, written out from R93 -/

theorem test_decode_data : decode 0x0000 = .ok .nop ∧ decode 0x0121 = .ok (.mov 4 1) ∧
    decode 0x0201 = .ok (.acc 0 1) ∧ decode 0x0312 = .ok (.clamp 2 2) := by decide
theorem test_decode_xov : decode 0x1012 = .ok (.xov .left 2 2) ∧
    decode 0b0001000001011011#16 = .ok (.xov .right 3 3) := by decide
theorem test_decode_drum : decode 0x2000 = .ok .trig ∧ decode 0x2108 = .ok (.drum 1 0) := by decide
theorem test_decode_saw : decode 0x300A = .ok (.tgt .bass 1 2) ∧ decode 0x307F = .ok (.tgt .melody 7 7) ∧
    decode 0x3118 = .ok (.saw .bass 3) ∧ decode 0b0011000101001000#16 = .ok (.saw .melody 1) := by decide
theorem test_decode_hat : decode 0x4000 = .ok .arm ∧ decode 0x4108 = .ok (.hat 1) := by decide
theorem test_decode_dly : decode 0b0101000000001000#16 = .ok (.dly 1 0) := by decide
theorem test_decode_seq : decode 0x6000 = .ok .seq ∧ decode 0x6100 = .ok .ends := by decide
theorem test_decode_mixer : decode 0x7000 = .ok (.noise 0) ∧ decode 0x7107 = .ok (.rpush 7) ∧
    decode 0x7258 = .ok (.img .right 3) ∧ decode 0x7303 = .ok (.enc 3) ∧
    decode 0b0111001100000000#16 = .ok (.enc 0) := by decide
theorem test_encode : [encode (.mov 4 1), encode (.tgt .melody 7 7), encode (.rpush 7),
    encode (.img .right 3)] = [0x0121, 0x307F, 0x7107, 0x7258] := by decide
theorem test_decode_bytes : decodeTableWord 16 0x3148 = some (.saw .melody 1) ∧
    decodeTableWord 16 0x0800 = none := by decide

/-! ## Well-formedness: V30.2 and one ill-formed field record for each check -/

theorem test_wf_inst_zero : Fields.check Opcode.mov.shape ⟨0x01, 1, 4, 1⟩ = some .instNotZero := by decide
theorem test_wf_inst_reserved :
    Fields.check Opcode.xov.shape ⟨0x10, 2, 0, 0⟩ = some .instReserved := by decide
theorem test_wf_rd_zero : Fields.check Opcode.rpush.shape ⟨0x71, 0, 1, 0⟩ = some .rdNotZero := by decide
theorem test_wf_rs_zero : Fields.check Opcode.saw.shape ⟨0x31, 1, 1, 1⟩ = some .rsNotZero := by decide
theorem test_wf_ok : Fields.wellFormed Opcode.tgt.shape ⟨0x30, 1, 7, 7⟩ := by decide
theorem test_illegal_unused : [0x0001, 0x0040, 0x0161, 0x2001, 0x3149, 0x4109, 0x7108, 0x7259, 0x730B,
    0x6101].map legal = List.replicate 10 false := by decide
theorem test_illegal_inst : decode 0x10DB = .error .instReserved ∧ decode 0x31C8 = .error .instReserved ∧
    decode 0x30FF = .error .instReserved ∧ decode 0x0040 = .error .instNotZero := by decide
theorem test_illegal_opcode : decode 0x0800 = .error .unknownOpcode ∧
    decode 0x6200 = .error .unknownOpcode ∧ decode 0xFFFF = .error .unknownOpcode := by decide

/-! ## The numeric domains: R126, V40 (the cosine of 3, the wrap at pi), R127 -/

theorem test_cos_pi : toReal (exactOps.cos exactOps.pi) = -1 := by simp
theorem test_cos_three : exactOps.lt (exactOps.cos (.fin 3)) (.fin (-989992496600/1000000000000)) = true ∧
    exactOps.lt (.fin (-989992496601/1000000000000)) (exactOps.cos (.fin 3)) = true := by decide +kernel
theorem test_osc_step :
    let r := oscStep exactOps (.fin 3) (.fin (1/2))
    r.wrapped = true ∧ exactOps.lt r.phase (.fin (358407346411/1000000000000)) = true ∧
      exactOps.lt (.fin (358407346410/1000000000000)) r.phase = true := by decide +kernel
/-- A phase equal to pi does not wrap (R126), though no approximation tells it from pi. -/
theorem test_osc_at_pi : (oscStep exactOps (.fin 0) exactOps.pi).wrapped = false := by
  rw [← Bool.not_eq_true, (oscStep_toReal _ _).2.1]
  simp
theorem test_cos_huge :
    [binary64Ops.cos (round64 (2 ^ 1000 : Nat)), binary64Ops.sin (round64 huge)].all
      (fun v => binary64Ops.le (.fin (-1)) v && binary64Ops.le v (.fin 1)) = true := by decide +kernel

/-! ## Data movement: V40.5, V40.6 -/

theorem test_nop : after .nop (at_ [(1, 1/4)]) (fun t => (t.pc, t.regs)) =
    some (1, (at_ [(1, 1/4)]).regs) := by decide +kernel
theorem test_mov : after (.mov 4 1) (at_ [(1, 1/4)]) (fun t => (t.reg 4, t.reg 1, t.pc)) =
    some (.fin (1/4), .fin (1/4), 1) := by decide +kernel
theorem test_acc : after (.acc 0 1) (at_ [(0, 1/2), (1, -1/8)]) (fun t => t.reg 0) =
    some (.fin (3/8)) := by decide +kernel
theorem test_acc_doubles : after (.acc 0 0) (at_ [(0, 7/10)]) (fun t => t.reg 0) =
    some (.fin (7/5)) := by decide +kernel
theorem test_clamp_low : after (.clamp 2 2) (at_ [(2, -3)]) (fun t => t.reg 2) =
    some (.fin (-1)) := by decide +kernel
theorem test_clamp_inside : after (.clamp 5 2) (at_ [(2, 2/5)]) (fun t => (t.reg 5, t.reg 2)) =
    some (.fin (2/5), .fin (2/5)) := by decide +kernel

/-! ## Crossover: V41.2, V41.5, V41.6 -/

theorem test_xov : after (.xov .right 3 2) (at_ [(2, 1)]) (fun t => (t.reg 3, t.xovL, t.xovR.high.max)) =
    some (.fin (17773/384000), State.reset.xovL, .fin (63/100)) := by decide +kernel
theorem test_xov_clamps :
    let b : Bandpass := ⟨.fin 0, .fin 0, .fin (3/10), .fin (7/3)⟩
    after (.xov .left 2 2) { at_ [(2, 1)] with xovL := ⟨b, b, b⟩ } (fun t => (t.reg 2, t.xovL.high.mul)) =
      some (.fin 1, .fin (661/288)) := by decide +kernel

/-! ## Drum: V42.1, V42.2, V42.5, V42.6 -/

theorem test_trig : after .trig (at_ []) (fun t => t.drum) =
    some ⟨true, 0, .fin 0, .fin (1/2), .fin (4/5), .fin (1/10), .fin (1/20), .fin 4⟩ := by decide +kernel

/-- The drum of V42.5, about to wrap. -/
def wrapping : State :=
  { fl [] ⟨[], none⟩ with
    drum := ⟨true, 3, .fin 6, round64 (2/5), round64 (4/5), round64 (1/10), round64 (1/20), round64 (1/2)⟩ }

theorem test_drum_wrap : after (.drum 1 0) wrapping
    (fun t => near (t.reg 1) (-2235323985591/10000000000000) && near t.drum.phase (1288168214035/10000000000000) &&
      near t.drum.freq (7/20) && near t.drum.fdec (7/200) && t.drum.fm == .fin 0 && t.drum.i == 4) =
    some true := by decide +kernel
theorem test_drum_idle : after (.drum 1 0) (at_ [(0, 1/4)]) (fun t => (t.reg 1, t.drum)) =
    some (.fin (1/4), State.reset.drum) := by decide +kernel

/-! ## Chorus-saw: V43.1, V43.3, V43.4 -/

theorem test_tgt : after (.tgt .bass 1 2) (at_ [(1, 1), (2, 1/2)]) (fun t => (t.sawBass, t.sawMel)) =
    some ({ State.reset.sawBass with
      tinc := #v[.fin (1/100), .fin (301/20000), .fin (201/10000), .fin (503/20000), .fin (151/5000)],
      tvol := .fin (1/2) }, State.reset.sawMel) := by decide +kernel

/-- The melody voice of V43.3 after its retarget, at sample position 4. -/
def targeted : State :=
  { fl [] ⟨[], none⟩ with
    n := 4
    sawMel := { (fl [] ⟨[], none⟩).sawMel with
      tinc := #v[round64 (1/20), round64 (301/4000), round64 (201/2000), round64 (503/4000), round64 (151/1000)]
      tvol := round64 (3/10) } }

theorem test_saw : after (.saw .melody 3) targeted
    (fun t => near (t.reg 3) (3068008580566/100000000000000) && near t.sawMel.lo (847976716113/10000000000000) &&
      near t.sawMel.phase[4] (151/32000) && near t.sawMel.vol (3/320)) = some true := by decide +kernel

/-! ## Hi-hat: V44.1, V44.3 -/

theorem test_arm : after .arm (at_ []) (fun t => (t.hat.vol, t.hat.hp)) = some (.fin (1/2), .fin 0) := by
  decide +kernel

/-- The hi-hat of V44.3. -/
def hatWrapping : State :=
  { fl [] ⟨[3, 10, 6], some 5⟩ with
    hat := { (fl [] ⟨[], none⟩).hat with
      phase := #v[.fin 3, .fin 3, .fin 1, .fin 0]
      inc := #v[round64 (1/5), round64 (1/10), round64 (1/10), round64 (1/2)]
      vol := .fin 1 } }

theorem test_hat : after (.hat 1) hatWrapping
    (fun t => t.rngIdx == 4 && near (t.reg 1) (-3957144185995/10000000000000) &&
      near t.hat.phase[0] (584073464102/10000000000000) && near t.hat.inc[1] (1414216373336/1000000000000) &&
      near t.hat.inc[2] (999/10000) && t.hat.cw == 1) = some true := by decide +kernel
theorem test_hat_first : after (.hat 1) { fl [] ⟨[0, 1, 7, 10, 2, 3], some 5⟩ with
      hat := { (fl [] ⟨[], none⟩).hat with vol := .fin (1/2) } }
    (fun t => t.rngIdx == 6 && near (t.reg 1) (9/5) && near t.hat.vol (1999/4000) &&
      memRead (.fin 0) t.hat.comb 0 == .fin 4) = some true := by decide +kernel

/-! ## Delay line: V45.1 -/

theorem test_dly : after (.dly 1 0) (at_ [(0, 1)]) (fun t => (t.reg 1, t.dly)) =
    some (.fin (2/5), ⟨[(0, .fin (2/5))], 1⟩) := by decide +kernel
theorem test_dly_echo : after (.dly 1 0) { at_ [] with dly := ⟨[(0, .fin (2/5))], 0⟩ }
    (fun t => t.reg 1) = some (.fin (7/25)) := by decide +kernel

/-! ## Sequencer: V46.2, V46.3, V46.4 -/

theorem test_seq_fires : after .seq (at_ [])
    (fun t => (t.tk, t.tick, t.nextTick, t.drum.on, t.sawMel.tinc[0], t.hat.vol)) =
    some (true, 1, 3, true, .fin (1/25), .fin 0) := by decide +kernel
theorem test_seq_waits : after .seq { at_ [] with tk := true, nextTick := 3, tick := 1 }
    (fun t => (t.tk, t.tick, t.nextTick, t.pc)) = some (false, 1, 3, 1) := by decide +kernel
theorem test_ends_last : after .ends { at_ [] with n := 9 } (fun t => (t.n, t.run, t.pc)) =
    some (10, .done, 0) := by decide
theorem test_ends_loops : after .ends { at_ [] with n := 8, pc := 20 } (fun t => (t.n, t.run, t.pc)) =
    some (9, .run, 0) := by decide

/-! ## Mixer and output: V47.1, V47.2, V47.3 -/

theorem test_noise : after (.noise 0) { at_ [] with rng := ⟨[1000, 750], none⟩ }
    (fun t => (t.reg 0, t.rngIdx)) = some (.fin (1/40), 2) := by decide +kernel
theorem test_noise_quiet : after (.noise 0) { at_ [] with rng := ⟨[3, 999], none⟩ }
    (fun t => t.reg 0) = some (.fin (499/1000000)) := by decide +kernel

/-- The ring of V47.2 after ten pushes. -/
def ringFull : State :=
  { at_ [] with
    ring := ⟨[(0, .fin 9), (1, .fin 10), (2, .fin 3), (3, .fin 4), (4, .fin 5), (5, .fin 6), (6, .fin 7),
      (7, .fin 8)], 2⟩ }

theorem test_rpush : after (.rpush 0) { ringFull with regs := (at_ [(0, 11)]).regs }
    (fun t => (memRead t.zero t.ring.buf 2, t.ring.rw, ringHist t.zero 8 t.ring 1)) =
    some (.fin 11, 3, .fin 10) := by decide +kernel
theorem test_img_left : after (.img .left 2) ringFull (fun t => t.reg 2) = some (.fin (3/2)) := by
  decide +kernel
theorem test_img_right : after (.img .right 3) ringFull (fun t => t.reg 3) = some (.fin 3) := by
  decide +kernel
theorem test_enc : [1/2, -1/2, 1, -1, -3/10000000].map (fun x =>
      after (.enc 0) (at_ [(0, x)]) (fun t => (t.out, t.outCnt))) =
    [some ([0xA0, 0x25, 0x26], 3), some ([0x60, 0xDA, 0xD9], 3), some ([0x40, 0x4B, 0x4C], 3),
     some ([0xC0, 0xB4, 0xB3], 3), some ([0xFF, 0xFF, 0xFF], 3)] := by decide +kernel
theorem test_enc_range : after (.enc 2) (at_ [(2, 3/2)]) (fun t => (t.run, t.fault, t.finfo, t.out)) =
    some (.fault, 6, 2, []) := by decide +kernel

/-! ## The step and the host: V60.1, V60.3, V60.6 -/

/-- A property of the state one step leads to. -/
def stepped {α : Type} (s : State) (f : State → α) : Option α :=
  match step s with
  | .next t => some (f t)
  | _ => none

/-- REF changed, with START at the port. -/
def starting (c : Cfg) (ready : Bool) : State := resetUnder c ⟨[], none⟩ ready [.start]

theorem test_start : stepped (starting Config.ref true) (fun t => (t.run, t.cmd)) = some (.run, []) := by
  decide +kernel
theorem test_start_lowest : stepped (starting { Config.ref with dlLen := 0, nSamples := 0 } false)
    (fun t => (t.run, t.fault, t.finfo)) = some (.fault, 1, 1) := by decide +kernel
theorem test_start_program : stepped (starting { Config.ref with program := [0x6000, 0x0800, 0x6100] } true)
    (fun t => (t.run, t.fault, t.finfo)) = some (.fault, 1, 13) := by decide +kernel
theorem test_fetch_end : stepped { at_ [] with cfg := { Config.ref with program := [0x0000] }, pc := 1 }
    (fun t => (t.run, t.fault, t.finfo, t.pc)) = some (.fault, 4, 1, 1) := by decide +kernel
theorem test_with_fetch_word : stepped (State.reset.withFetchWord 16 0x6100) (fun t => (t.n, t.run)) =
    some (1, .run) := by decide +kernel

/-! ## Witnesses: states that meet the hypotheses of the statements, `witness_<statement>` -/

theorem witness_EncodeOfDecode : decode 0x3148 = .ok (.saw .melody 1) := by decide
theorem witness_OpcodeMapDecides : (⟨.acc, 0x0200, 0xFFC0⟩ : OpcodeRow) ∈ opcodeMap ∧
    (0x0201 : Word) &&& 0xFFC0 = 0x0200 := by decide
theorem witness_UnusedFieldsMustBeZero :
    let f : Fields := ⟨0x30, 1, 7, 7⟩
    f.opc = opcOf .tgt ∧ decode (wordOf f) = .ok (.tgt .melody 7 7) := by decide
theorem witness_StepRunsDecodedOp :
    let s := at_ []
    s.run = .run ∧ s.cfg.program[s.pc]? = some 0x6000 ∧ decode 0x6000 = .ok .seq ∧ s.cmd = [] ∧
      { s with cmd := [.none, .reset] }.cmd = .none :: [.reset] := by decide
theorem witness_FetchFaults_end :
    let s := { at_ [] with cfg := { Config.ref with program := [0x0000] }, pc := 1 }
    s.run = .run ∧ s.cmd = [] ∧ s.cfg.program.length ≤ s.pc := by decide
theorem witness_FetchFaults_illegal :
    let s := { at_ [] with cfg := { Config.ref with program := [0x0800] } }
    s.run = .run ∧ s.cmd = [] ∧ s.cfg.program[s.pc]? = some 0x0800 ∧ legal 0x0800 = false := by decide
theorem witness_NothingExecutesOutsideRun :
    State.reset.run ≠ .run ∧ State.reset.cmd = [] ∧
      { State.reset with cmd := [.none] }.cmd = .none :: [] := by decide
theorem witness_StartChecks_ignored :
    let s := { at_ [] with cmd := [.start] }
    s.cmd = .start :: [] ∧ s.run ≠ .idle := by decide
theorem witness_StartChecks_first :
    let s := starting { Config.ref with nSamples := 0 } true
    s.cmd = .start :: [] ∧ s.run = .idle ∧ cfgCheck s.cfg 1 = false := by decide +kernel
theorem witness_StartChecks_last :
    let s := starting { Config.ref with srB := .fin 0 } true
    s.run = .idle ∧ (∀ j, 1 ≤ j → j < 14 → cfgCheck s.cfg j = true) ∧ cfgCheck s.cfg 14 = false := by
  refine ⟨rfl, ?_, by decide +kernel⟩
  intro j h1 h2
  interval_cases j <;> decide +kernel
theorem witness_StartChecks_runs :
    let s := starting Config.ref true
    s.run = .idle ∧ (∀ j, 1 ≤ j → j ≤ 14 → cfgCheck s.cfg j = true) ∧ s.sinkReady = true ∧
      (starting Config.ref false).sinkReady = false := by
  refine ⟨rfl, ?_, rfl, rfl⟩
  intro j h1 h2
  interval_cases j <;> decide +kernel
/-- The checks at the boundary values of R296, in REF: what passes and what fails. -/
theorem witness_ConfigurationChecks :
    let c := Config.ref
    [cfgCheck { c with nSamples := 1 } 1, cfgCheck { c with tickInterval := .fin 1 } 2,
      cfgCheck { c with stL := ⟨6, 2⟩ } 5, cfgCheck { c with hat := { c.hat with incDecay := .fin 1 } } 9,
      cfgCheck { c with sawBass := ⟨.fin 0, .fin 1, .fin (1/10), .fin 0⟩ } 8,
      cfgCheck { c with drum := { c.drum with len := 1, fmul := .fin 1, fm0 := .fin 0 } } 10,
      cfgCheck { c with noise := ⟨1, .fin 0, .fin 0, 1⟩ } 11,
      cfgCheck { c with patBass := ⟨8, List.replicate 8 (some ⟨.fin 0, .fin 0⟩)⟩ } 12,
      cfgCheck { c with program := List.replicate 256 0 } 13] = List.replicate 9 true ∧
    [cfgCheck { c with nSamples := 0 } 1, cfgCheck { c with tickInterval := .fin (99/100) } 2,
      cfgCheck { c with dlLen := 0 } 3, cfgCheck { c with ringLen := 0 } 4, cfgCheck { c with stL := ⟨7, 2⟩ } 5,
      cfgCheck { c with bpDecay := .fin 1 } 6, cfgCheck { c with xoCh := { c.xoCh with sub := .fin 0 } } 7,
      cfgCheck { c with sawBass := ⟨.fin 0, .fin 1, .fin (1/10), .fin (1/10)⟩ } 8,
      cfgCheck { c with hat := { c.hat with combFb := .fin (-1) } } 9,
      cfgCheck { c with drum := { c.drum with fmNorm := .fin 0 } } 10,
      cfgCheck { c with noise := { c.noise with gateMod := 0 } } 11,
      cfgCheck { c with patBass := ⟨8, List.replicate 9 none⟩ } 12,
      cfgCheck { c with program := List.replicate 257 0 } 13, cfgCheck { c with srA := .fin 0 } 14,
      cfgCheck { c with srA := .nan } 14] = List.replicate 15 false := by decide +kernel
theorem witness_ConfigurationChecks_target :
    some ⟨.nan, .fin 0⟩ ∈ [some (⟨.nan, .fin 0⟩ : Target)] ∧ NumVal.nan.isFinite = false := by decide
theorem witness_ResetValues :
    { at_ [(3, 7)] with run := .fault, fault := 5, cmd := [.reset] }.cmd = .reset :: [] := by decide
theorem witness_Mov : ((at_ [(1, 1/4)]).reg 1).isFinite = true := by decide +kernel
theorem witness_Acc_finite :
    let s := at_ [(0, 1/2), (1, -1/8)]
    (s.num.add (s.reg 0) (s.reg 1)).isFinite = true := by decide +kernel
theorem witness_Acc_overflows :
    let s := fl [(0, huge), (1, huge)] ⟨[], none⟩
    (s.reg 0).isFinite = true ∧ (s.num.add (s.reg 0) (s.reg 1)).isFinite = false := by decide +kernel
theorem witness_Clamp_below :
    let s := at_ [(2, -3)]
    s.num.lt (s.reg 2) (s.num.neg (s.num.ofNat 1)) = true ∧
      (s.num.neg (s.num.ofNat 1)).isFinite = true := by decide +kernel
theorem witness_Clamp_above :
    let s := at_ [(2, 3)]
    s.num.lt (s.reg 2) (s.num.neg (s.num.ofNat 1)) = false ∧
      s.num.lt (s.num.ofNat 1) (s.reg 2) = true ∧ (s.num.ofNat 1).isFinite = true := by decide +kernel
theorem witness_Clamp_bounds :
    let s := at_ [(2, -1), (3, 1)]
    ∀ r ∈ ([2, 3] : List Reg), s.num.lt (s.reg r) (s.num.neg (s.num.ofNat 1)) = false ∧
      s.num.lt (s.num.ofNat 1) (s.reg r) = false ∧ (s.reg r).isFinite = true := by decide +kernel
theorem witness_Xov_finite :
    let s := at_ [(2, 1)]
    let r := xoverStep s.num s.cfg (s.xov .left) (s.reg 2)
    ∀ v ∈ r.2 :: bandNums r.1, v.isFinite = true := by decide +kernel
theorem witness_Xov_overflows :
    let b : Bandpass := ⟨round64 (-huge), .fin 0, round64 (3/10), .fin 0⟩
    let s := { fl [(2, huge)] ⟨[], none⟩ with xovR := ⟨b, b, b⟩ }
    let r := xoverStep s.num s.cfg (s.xov .right) (s.reg 2)
    ∃ v ∈ r.2 :: bandNums r.1, v.isFinite = false := by decide +kernel
theorem witness_XovResultInRange :
    (at_ [(2, 1)]).cfg.num = .exact ∧ (at_ [(2, 1)]).run = .run ∧
      after (.xov .left 2 2) (at_ [(2, 1)]) (fun t => t.run) = some .run ∧
      (fl [(2, 1)] ⟨[], none⟩).cfg.num = .binary64 ∧
      after (.xov .left 2 2) (fl [(2, 1)] ⟨[], none⟩) (fun t => t.run) = some .run := by decide +kernel
theorem witness_PeakBoundsKept : (at_ []).peaksOk ∧ stepped (at_ []) (fun t => t.pc) = some 1 := by
  have hd : toReal (at_ []).cfg.bpDecay = 99/100 := by
    show toReal (.fin (99/100)) = _
    norm_num
  have hb : (Bandpass.reset (.fin 0) (.fin (3/10))).tracked (99/100) := by
    simp only [Bandpass.tracked, Bandpass.reset, toReal_fin]
    norm_num
  refine ⟨⟨rfl, by rw [hd]; norm_num, by rw [hd]; norm_num, fun c => ?_⟩, by decide +kernel⟩
  rw [hd]
  cases c <;> exact ⟨hb, hb, hb⟩
theorem witness_Trig_finite : ∀ v ∈ drumTriggerWrites (at_ []), v.isFinite = true := by decide +kernel
theorem witness_Trig_overflows :
    let s := fl [] ⟨[], none⟩
    let s := { s with cfg := { s.cfg with drum := { s.cfg.drum with f0 := round64 huge, fdecK := .fin 2 } } }
    ∃ v ∈ drumTriggerWrites s, v.isFinite = false := by decide +kernel
theorem witness_DrumIdle : (at_ [(0, 1/4)]).drum.on = false ∧ ((at_ [(0, 1/4)]).reg 0).isFinite = true := by
  decide +kernel
theorem witness_DrumActiveSample : wrapping.drum.on = true ∧
    ∀ v ∈ drumBlend wrapping.num wrapping.drum (wrapping.reg 0) ::
      drumWrites wrapping.num wrapping.cfg.drum wrapping.drum, v.isFinite = true := by decide +kernel

/-- A drum whose frequency is about to overflow. -/
def overflowing : State :=
  { fl [] ⟨[], none⟩ with
    drum := ⟨true, 3, .fin 0, round64 huge, .fin 0, .fin 0, round64 (-huge), .fin 0⟩ }

theorem witness_DrumActive_overflows : overflowing.drum.on = true ∧
    ∃ v ∈ drumWrites overflowing.num overflowing.cfg.drum overflowing.drum, v.isFinite = false := by
  decide +kernel
theorem witness_DrumLastsItsLength :
    let s := { at_ [(0, 1/4)] with drum := drumTriggered exactOps Config.ref.drum }
    s.cfg.num = .exact ∧ s.drum.on = true ∧ s.drum.i = 0 ∧ 0 < s.cfg.drum.len ∧
      (s.reg 0).isFinite = true := by decide +kernel
theorem witness_Tgt_finite :
    ∀ x ∈ sawRetargetWrites .melody (.fin (5/4)) (.fin (3/10)) (at_ []), x.isFinite = true := by
  decide +kernel
theorem witness_Tgt_overflows :
    ∃ x ∈ sawRetargetWrites .bass (round64 huge) (.fin 1)
      { fl [] ⟨[], none⟩ with cfg := { (fl [] ⟨[], none⟩).cfg with sawBass := ⟨.fin 2, .fin 64, .fin 0, .fin 0⟩ } },
      x.isFinite = false := by decide +kernel
theorem witness_SawSample :
    ∀ v ∈ ([.bass, .melody] : List Voice), ∀ x ∈ sawWrites (sawNext targeted.num
      (sawCutoff targeted.num targeted.cfg v targeted.n) (targeted.saw v)), x.isFinite = true := by
  decide +kernel
theorem witness_SawSample_overflows :
    let s := { targeted with sawMel := { targeted.sawMel with inc := Vector.replicate 5 (round64 huge) } }
    ∃ x ∈ sawWrites (sawNext s.num (sawCutoff s.num s.cfg .melody s.n) s.sawMel), x.isFinite = false := by
  decide +kernel
theorem witness_SawSilent :
    let w := (at_ []).saw .bass
    (at_ []).cfg.num = .exact ∧ toReal w.vol = 0 ∧ toReal w.tvol = 0 ∧ toReal w.lo = 0 ∧
      toReal w.xlo = 0 := by
  have h : toReal (.fin 0) = 0 := by simp
  exact ⟨rfl, h, h, h, h⟩
theorem witness_SawPhases : (at_ []).cfg.num = .exact ∧
    (∀ j : Fin 5, inHalfTurn ((at_ []).saw .bass).phase[j] ∧ inHalfTurn ((at_ []).saw .bass).inc[j] ∧
      inHalfTurn ((at_ []).saw .bass).tinc[j]) ∧ ∃ t, exec (.saw .bass 3) (at_ []) = .next t := by
  have h : inHalfTurn (.fin 0) := by
    simp only [inHalfTurn, toReal_fin, Rat.cast_zero, le_refl, true_and]
    exact Real.pi_pos.le
  refine ⟨rfl, fun j => ?_, ⟨_, rfl⟩⟩
  fin_cases j <;> exact ⟨h, h, h⟩
/-- The boundary of `[0, PI]`: PI itself is inside. -/
theorem witness_SawPhases_boundary : inHalfTurn exactOps.pi := ⟨Real.pi_pos.le, le_refl _⟩
theorem witness_Smoother : toReal (.fin 0) ≠ toReal (.fin 1) := by simp
theorem witness_Arm : (at_ []).cfg.hat.vol0.isFinite = true := by decide
theorem witness_HatLane_quiet :
    let o := hatWrapping.num
    o.lt o.pi (o.add (.fin 0) (round64 (1/2))) = false ∧
      o.lt (o.mul (round64 (1/2)) hatWrapping.cfg.hat.incDecay) hatWrapping.cfg.hat.incFloor = false := by
  decide +kernel
theorem witness_HatLane_asks :
    let o := hatWrapping.num
    o.lt o.pi (o.add (.fin 3) (round64 (1/5))) = true ∧ rngAt hatWrapping.rng 0 % 10 ≠ 0 ∧
      o.lt (o.mul (round64 (1/10)) hatWrapping.cfg.hat.incDecay) hatWrapping.cfg.hat.incFloor = true ∧
      rngAt hatWrapping.rng 1 % 10 = 0 := by decide +kernel
theorem witness_HatSample :
    let s := hatWrapping
    let r := hatCompute s.num s.cfg.hat s.rng s.hat s.rngIdx
    ∀ x ∈ s.num.mul r.z s.hat.vol :: hatWrites s.num s.cfg.hat s.hat (hatNext s.num s.hat r) r.y,
      x.isFinite = true := by
  decide +kernel
theorem witness_HatSample_overflows :
    let s := { hatWrapping with hat := { hatWrapping.hat with inc := Vector.replicate 4 (round64 huge)
                                                              phase := Vector.replicate 4 (round64 huge) } }
    let r := hatCompute s.num s.cfg.hat s.rng s.hat s.rngIdx
    ∃ x ∈ s.num.mul r.z s.hat.vol :: hatWrites s.num s.cfg.hat s.hat (hatNext s.num s.hat r) r.y,
      x.isFinite = false := by
  decide +kernel
/-- R213: the decayed increment alone overflows, and a hit writes the lane's increment again. -/
theorem test_hat_judges_overwritten :
    let s := fl [] ⟨[0], some 0⟩
    let s := { s with cfg := { s.cfg with hat := { s.cfg.hat with incDecay := .fin 2 } },
                      hat := { s.hat with inc := Vector.replicate 4 (round64 huge)
                                          phase := Vector.replicate 4 (.fin 4) } }
    let l := hatLane s.num s.cfg.hat s.rng s.hat.phase[0] s.hat.inc[0] 0
    l.idx = 2 ∧ l.inc.isFinite = true ∧ l.phase.isFinite = true ∧
      after (.hat 1) s (fun t => (t.run, t.fault, t.finfo, t.rngIdx)) = some (.fault, 5, 0x4108, 0) := by
  decide +kernel
theorem witness_HatSilent : (at_ []).cfg.num = .exact ∧ (at_ []).cfg.hat.baseInc.isFinite = true ∧
    toReal (at_ []).hat.vol = 0 := by
  have h : toReal (.fin 0) = 0 := by simp
  exact ⟨rfl, rfl, h⟩
theorem witness_DrawsOfEachOp : (at_ []).run = .run ∧
    after (.noise 0) { at_ [] with rng := ⟨[7, 250], none⟩ } (fun t => (t.run, t.rngIdx)) =
      some (.run, 2) := by decide +kernel
theorem witness_Dly_finite :
    let s := { at_ [(0, 1)] with dly := ⟨[(0, .fin (2/5))], 0⟩ }
    (dlyOut s.num s.dly (s.reg 0)).isFinite = true ∧ Memory.wf s.zero s.dly.buf := by decide +kernel
theorem witness_Dly_overflows :
    let s := { fl [(0, huge)] ⟨[], none⟩ with dly := ⟨[(0, round64 huge)], 0⟩ }
    (dlyOut s.num s.dly (s.reg 0)).isFinite = false := by decide +kernel
theorem witness_RingForm : 0 < 4 ∧ 3 < 4 ∧ Memory.wf (.fin 0) [(1, .fin 2)] := by decide +kernel
theorem witness_EchoImpulse : 0 < 1 ∧ 4 ∣ 3 + 1 ∧ ¬ 4 ∣ 2 + 1 := by decide
theorem witness_Seq_waits : { at_ [] with nextTick := 3, n := 2 }.n < 3 := by decide
theorem witness_Seq_fires :
    let s := { at_ [] with nextTick := 3, n := 3 }
    s.nextTick ≤ s.n ∧ ∀ x ∈ (tickClock s).tpos :: patternWrites s.tick s, x.isFinite = true := by
  decide +kernel
theorem witness_TickBoundaries :
    let s := at_ []
    s.cfg.num = .exact ∧ 1 ≤ toReal s.cfg.tickInterval ∧ s.tick = 0 ∧ toReal s.tpos = 0 ∧
      s.nextTick = 0 := by
  have h1 : 1 ≤ toReal (.fin (5/2)) := by
    rw [toReal_fin]
    norm_num
  have h2 : toReal (.fin 0) = 0 := by simp
  exact ⟨rfl, h1, rfl, h2, rfl⟩
theorem witness_Ends : { at_ [] with n := 9 }.n + 1 = (at_ []).cfg.nSamples ∧
    { at_ [] with n := 8 }.n + 1 ≠ (at_ []).cfg.nSamples := by decide
theorem witness_Noise :
    let s := { at_ [] with rng := ⟨[7, 250], none⟩ }
    (noiseSample s.num s.cfg.noise (rngAt s.rng 0) (rngAt s.rng 1)).isFinite = true := by decide +kernel
theorem witness_Rpush : (ringFull.reg 0).isFinite = true ∧ Memory.wf ringFull.zero ringFull.ring.buf := by
  decide +kernel
theorem witness_RingHistory : ringFull.ring.rw < 8 ∧ Memory.wf (exactOps.ofNat 0) ringFull.ring.buf ∧
    6 + 1 < 8 := by decide +kernel
theorem witness_Img : ∀ c ∈ ([.left, .right] : List Channel),
    (imageSample ringFull.num 8 ringFull.ring (windowCfg ringFull.cfg c)).isFinite = true := by
  decide +kernel
theorem witness_ConstantSignal :
    let s := { at_ [] with ring := ⟨[(0, .fin 7), (1, .fin 7), (2, .fin 7)], 3⟩ }
    let w := windowCfg s.cfg .left
    s.cfg.num = .exact ∧ 0 < w.len ∧ toReal (ringHist s.zero s.cfg.ringLen s.ring 0) = 7 ∧
      ∀ j, w.off ≤ j → j < w.off + w.len → toReal (ringHist s.zero s.cfg.ringLen s.ring j) = 7 := by
  have h7 : toReal (.fin 7) = 7 := by simp
  refine ⟨rfl, by decide, h7, ?_⟩
  intro j h1 h2
  have h1 : 1 ≤ j := h1
  have h2 : j < 3 := h2
  interval_cases j <;> exact h7
theorem witness_EncEmits :
    let s := at_ [(0, 1), (1, -1)]
    ∀ r ∈ ([0, 1] : List Reg), s.num.lt (s.reg r) (s.num.neg (s.num.ofDec 1)) = false ∧
      s.num.lt (s.num.ofDec 1) (s.reg r) = false := by decide +kernel
theorem witness_EncRange :
    let s := at_ [(0, 10000001/10000000), (1, -3/2)]
    s.num.lt (s.num.ofDec 1) (s.reg 0) = true ∧ s.num.lt (s.reg 1) (s.num.neg (s.num.ofDec 1)) = true := by
  decide +kernel
theorem witness_EncodedSample : ∀ q ∈ ([-1, 1] : List Rat), -1 ≤ toReal (.fin q) ∧ toReal (.fin q) ≤ 1 := by
  intro q hq
  simp only [List.mem_cons, List.not_mem_nil, or_false] at hq
  rcases hq with rfl | rfl <;> norm_num
theorem witness_FaultsArePrecise :
    (fl [(0, huge)] ⟨[], none⟩).run = .run ∧
      after (.acc 0 0) (fl [(0, huge)] ⟨[], none⟩) (fun t => (t.run, t.fault, t.finfo)) =
        some (.fault, 5, 0x0200) ∧
      after (.enc 2) (at_ [(2, 2)]) (fun t => t.run) = some .fault := by decide +kernel
theorem witness_UnitsAreIsolated_run : after .ends { at_ [] with n := 9 } (fun t => t.run) = some .done ∧
    after (.enc 0) (at_ [(0, 2)]) (fun t => (t.run, t.fault)) = some (.fault, 6) := by decide +kernel
theorem witness_UnitsAreIsolated : after .trig (at_ []) (fun t => t.drum == (at_ []).drum) = some false := by
  decide +kernel
theorem witness_OutputOnlyGrows :
    let s := { at_ [(0, 1)] with cfg := { Config.ref with program := [0x7300] } }
    stepped s (fun t => t.out.length) = some 3 ∧ s.cmd = [] := by decide +kernel
theorem witness_RunStateTransitions :
    stepped { at_ [] with n := 9, pc := 20 } (fun t => t.run) = some .done ∧
      stepped { at_ [] with run := .done, cmd := [.reset] } (fun t => t.run) = some .idle := by
  decide +kernel

/-- A state in the middle of a run, for the invariants. -/
def busy : State :=
  { ringFull with
    n := 4, pc := 8, tick := 2, out := [1, 2, 3], outCnt := 3
    hat := { ringFull.hat with comb := [(0, .fin 4), (127, .fin 3)], cw := 127 }
    dly := ⟨[(3, .fin (2/5))], 3⟩
    drum := { ringFull.drum with on := true, i := 7 } }

theorem witness_NumbersStayFinite : busy.allFinite ∧ stepped busy (fun t => t.pc) = some 9 := by
  unfold State.allFinite
  decide +kernel
theorem witness_BuffersStayCanonical : busy.buffersWf := by
  unfold State.buffersWf
  decide +kernel
theorem witness_IndicesStayInRange : busy.indicesInRange := by
  unfold State.indicesInRange
  decide +kernel
theorem witness_ControlStaysConsistent : busy.controlOk := by
  unfold State.controlOk
  decide +kernel

end Sys2Proof.Machine
end

/-! What each op may write, said once for all 18 (10_state.md R37): the state after an op is the state before
it with the parts of the op's footprint replaced. -/

namespace Sys2Proof.Machine

/-- `s` with every part that op `i` may write taken from `t`: its unit, its destination register and the
control registers named for it; `pc` and the fault registers for every op (10_state.md R37, R21). -/
def footprint (i : Instr) (s t : State) : State :=
  let u := { s with pc := t.pc, run := t.run, fault := t.fault, finfo := t.finfo }
  match i with
  | .nop => u
  | .mov rd _ | .acc rd _ | .clamp rd _ | .img _ rd => u.setReg rd (t.reg rd)
  | .xov c rd _ => (u.setXov c (t.xov c)).setReg rd (t.reg rd)
  | .trig => { u with drum := t.drum }
  | .drum rd _ => { u with drum := t.drum }.setReg rd (t.reg rd)
  | .tgt v _ _ => u.setSaw v (t.saw v)
  | .saw v rd => (u.setSaw v (t.saw v)).setReg rd (t.reg rd)
  | .arm => { u with hat := t.hat }
  | .hat rd => { u with hat := t.hat, rngIdx := t.rngIdx }.setReg rd (t.reg rd)
  | .dly rd _ => { u with dly := t.dly }.setReg rd (t.reg rd)
  | .seq => { u with
      tick := t.tick, tpos := t.tpos, nextTick := t.nextTick, tk := t.tk
      drum := t.drum, sawBass := t.sawBass, sawMel := t.sawMel, hat := t.hat }
  | .ends => { u with n := t.n }
  | .noise rd => { u with rngIdx := t.rngIdx }.setReg rd (t.reg rd)
  | .rpush _ => { u with ring := t.ring }
  | .enc _ => { u with out := t.out, outCnt := t.outCnt }

theorem setSaw_saw (s : State) (v : Voice) : s.setSaw v (s.saw v) = s := by cases v <;> rfl

theorem setXov_xov (s : State) (c : Channel) : s.setXov c (s.xov c) = s := by cases c <;> rfl

/-- The effect of an op stays inside its footprint. -/
theorem effect_eq_footprint (i : Instr) (s : State) : effect i s = footprint i s (effect i s) := by
  cases i with
  | nop | trig | arm | rpush | enc => rfl
  | mov | acc | clamp | img | dly | hat | noise => simp [footprint, effect]; rfl
  | drum => simp only [footprint, effect]; split <;> simp <;> rfl
  | xov c rd rs => cases c <;> simp [footprint, effect] <;> rfl
  | tgt v rd rs => cases v <;> rfl
  | saw v rd => cases v <;> simp [footprint, effect] <;> rfl
  | ends => simp only [footprint, effect]; split <;> rfl
  | seq =>
    simp only [footprint, effect]
    split
    · rw [patternActions_eq]; rfl
    · rfl

/-- A fault stays inside every footprint: only the fault registers change (60_exceptions.md R291). -/
theorem raise_eq_footprint (i : Instr) (s : State) (f : FaultCode) (k : Nat) :
    s.raise f k = footprint i s (s.raise f k) := by
  cases i with
  | nop | trig | arm | rpush | enc | ends | seq => rfl
  | mov rd | acc rd | clamp rd | img _ rd | dly rd | hat rd | noise rd | drum rd =>
    exact (setReg_reg (s.raise f k) rd).symm
  | tgt v => exact (setSaw_saw (s.raise f k) v).symm
  | xov c rd =>
    change s.raise f k = ((s.raise f k).setXov c ((s.raise f k).xov c)).setReg rd ((s.raise f k).reg rd)
    rw [setXov_xov, setReg_reg]
  | saw v rd =>
    change s.raise f k = ((s.raise f k).setSaw v ((s.raise f k).saw v)).setReg rd ((s.raise f k).reg rd)
    rw [setSaw_saw, setReg_reg]

/-- An op with a next state had its effect or raised a fault, never `IllegalOp` (60_exceptions.md R291). -/
theorem exec_next_cases {i : Instr} {s t : State} (h : exec i s = .next t) :
    t = effect i s ∨ ∃ f k, f ≠ .illegalOp ∧ t = s.raise f k := by
  rcases exec_cases i s with ⟨-, he⟩ | ⟨-, he⟩ | ⟨rs, -, -, he⟩ <;> rw [h] at he <;> cases he
  · exact .inl rfl
  · exact .inr ⟨_, _, by simp, rfl⟩
  · exact .inr ⟨_, _, by simp, rfl⟩

/-- The state after an op is the state before it but for the op's footprint (10_state.md R37). -/
theorem exec_footprint {i : Instr} {s t : State} (h : exec i s = .next t) : t = footprint i s t := by
  rcases exec_next_cases h with rfl | ⟨f, k, -, rfl⟩
  · exact effect_eq_footprint i s
  · exact raise_eq_footprint i s f k

/-! ## Control registers of an op that completes -/

/-- An op that completes leaves the fault registers alone. -/
theorem effect_fault_finfo (i : Instr) (s : State) :
    (effect i s).fault = s.fault ∧ (effect i s).finfo = s.finfo := by
  cases i with
  | seq => simp only [effect]; split <;> simp [patternActions_eq, tickClock]
  | drum | ends => simp only [effect]; split <;> exact ⟨rfl, rfl⟩
  | xov u | tgt u | saw u => cases u <;> exact ⟨rfl, rfl⟩
  | _ => exact ⟨rfl, rfl⟩

/-- An op other than ENDS that completes keeps `RUN` and moves on to the next slot (10_state.md R24). -/
theorem effect_run_pc {i : Instr} (s : State) (hi : i ≠ .ends) :
    (effect i s).run = s.run ∧ (effect i s).pc = s.pc + 1 := by
  cases i with
  | ends => exact absurd rfl hi
  | seq => simp only [effect]; split <;> simp [patternActions_eq, tickClock]
  | drum => simp only [effect]; split <;> exact ⟨rfl, rfl⟩
  | xov u | tgt u | saw u => cases u <;> exact ⟨rfl, rfl⟩
  | _ => exact ⟨rfl, rfl⟩

/-- ENDS keeps `RUN`, or ends the run (46_sequencer.md R247). -/
theorem effect_ends_run (s : State) :
    (effect .ends s).run = s.run ∨ (effect .ends s).run = .done := by
  simp only [effect]
  split
  · exact .inr rfl
  · exact .inl rfl

/-- What an op does to `RUN`: only a fault or an ENDS changes it (10_state.md R27). -/
theorem exec_run {i : Instr} {s t : State} (h : exec i s = .next t) :
    t.run = s.run ∨ t.run = .fault ∨ i = .ends ∧ t.run = .done := by
  rcases exec_next_cases h with rfl | ⟨f, k, -, rfl⟩
  · by_cases hi : i = .ends
    · subst hi
      exact (effect_ends_run s).imp_right fun h => .inr ⟨rfl, h⟩
    · exact .inl (effect_run_pc s hi).1
  · exact .inr (.inl rfl)

/-- The fault registers change only when the op ends in FAULT (10_state.md R28). -/
theorem exec_fault_finfo {i : Instr} {s t : State} (h : exec i s = .next t)
    (hne : t.fault ≠ s.fault ∨ t.finfo ≠ s.finfo) : t.run = .fault := by
  rcases exec_next_cases h with rfl | ⟨f, k, -, rfl⟩
  · obtain ⟨hf, hi⟩ := effect_fault_finfo i s
    exact absurd hne (by simp [hf, hi])
  · rfl

/-! ## The parts of the state that a footprint leaves out

Each lemma is about a pair of states that differ by a footprint only, which `effect_eq_footprint` and
`exec_footprint` give for the ops of the machine. -/

section
variable (i : Instr) (s t : State)

@[simp] theorem footprint_cfg : (footprint i s t).cfg = s.cfg := by cases i <;> simp [footprint]
@[simp] theorem footprint_rng : (footprint i s t).rng = s.rng := by cases i <;> simp [footprint]
@[simp] theorem footprint_sinkReady : (footprint i s t).sinkReady = s.sinkReady := by
  cases i <;> simp [footprint]
@[simp] theorem footprint_cmd : (footprint i s t).cmd = s.cmd := by cases i <;> simp [footprint]

end

section
variable {i : Instr} {s t : State}

theorem drum_change (e : t = footprint i s t) (hne : t.drum ≠ s.drum) :
    i = .trig ∨ i = .seq ∨ ∃ rd rs, i = .drum rd rs := by
  have e := congrArg State.drum e
  cases i with
  | trig | seq | drum => simp
  | _ => exact absurd (e.trans (by simp [footprint])) hne

theorem hat_change (e : t = footprint i s t) (hne : t.hat ≠ s.hat) :
    i = .arm ∨ i = .seq ∨ ∃ rd, i = .hat rd := by
  have e := congrArg State.hat e
  cases i with
  | arm | seq | hat => simp
  | _ => exact absurd (e.trans (by simp [footprint])) hne

theorem dly_change (e : t = footprint i s t) (hne : t.dly ≠ s.dly) : ∃ rd rs, i = .dly rd rs := by
  have e := congrArg State.dly e
  cases i with
  | dly => simp
  | _ => exact absurd (e.trans (by simp [footprint])) hne

theorem ring_change (e : t = footprint i s t) (hne : t.ring ≠ s.ring) : ∃ rs, i = .rpush rs := by
  have e := congrArg State.ring e
  cases i with
  | rpush => simp
  | _ => exact absurd (e.trans (by simp [footprint])) hne

theorem n_change (e : t = footprint i s t) (hne : t.n ≠ s.n) : i = .ends := by
  have e := congrArg State.n e
  cases i with
  | ends => rfl
  | _ => exact absurd (e.trans (by simp [footprint])) hne

theorem rngIdx_change (e : t = footprint i s t) (hne : t.rngIdx ≠ s.rngIdx) :
    (∃ rd, i = .hat rd) ∨ ∃ rd, i = .noise rd := by
  have e := congrArg State.rngIdx e
  cases i with
  | hat | noise => simp
  | _ => exact absurd (e.trans (by simp [footprint])) hne

/-- The output: `OUT` and its counter together (20_memory.md R66). -/
theorem out_change (e : t = footprint i s t) (hne : t.out ≠ s.out ∨ t.outCnt ≠ s.outCnt) :
    ∃ rs, i = .enc rs := by
  have eo := congrArg State.out e
  have ec := congrArg State.outCnt e
  cases i with
  | enc => simp
  | _ => exact absurd hne (not_or.mpr ⟨not_not.mpr (eo.trans (by simp [footprint])),
      not_not.mpr (ec.trans (by simp [footprint]))⟩)

/-- The tick clock: its four registers together (10_state.md R23, R25). -/
theorem clock_change (e : t = footprint i s t)
    (hne : t.tick ≠ s.tick ∨ t.tpos ≠ s.tpos ∨ t.nextTick ≠ s.nextTick ∨ t.tk ≠ s.tk) : i = .seq := by
  by_contra hi
  have hkept : (footprint i s t).tick = s.tick ∧ (footprint i s t).tpos = s.tpos ∧
      (footprint i s t).nextTick = s.nextTick ∧ (footprint i s t).tk = s.tk := by
    cases i with
    | seq => exact absurd rfl hi
    | _ => simp [footprint]
  rw [← e] at hkept
  simp [hkept] at hne

theorem saw_change {v : Voice} (e : t = footprint i s t) (hne : t.saw v ≠ s.saw v) :
    i = .seq ∨ (∃ rd rs, i = .tgt v rd rs) ∨ ∃ rd, i = .saw v rd := by
  have e := congrArg (State.saw · v) e
  cases i with
  | seq => simp
  | tgt u =>
    by_cases hu : v = u
    · simp [hu]
    · exact absurd (e.trans (saw_setSaw_other _ u v _ hu)) hne
  | saw u rd =>
    by_cases hu : v = u
    · simp [hu]
    · exact absurd (e.trans ((saw_setReg _ rd _ v).trans (saw_setSaw_other _ u v _ hu))) hne
  | xov c => exact absurd (e.trans ((saw_setReg _ _ _ v).trans (saw_setXov _ c _ v))) hne
  | _ => cases v <;> exact absurd e hne

theorem xov_change {c : Channel} (e : t = footprint i s t) (hne : t.xov c ≠ s.xov c) :
    ∃ rd rs, i = .xov c rd rs := by
  have e := congrArg (State.xov · c) e
  cases i with
  | xov d rd rs =>
    by_cases hd : c = d
    · simp [hd]
    · exact absurd (e.trans ((xov_setReg _ rd _ c).trans (xov_setXov_other _ d c _ hd))) hne
  | saw v rd => exact absurd (e.trans ((xov_setReg _ rd _ c).trans (xov_setSaw _ v _ c))) hne
  | tgt v => exact absurd (e.trans (xov_setSaw _ v _ c)) hne
  | _ => cases c <;> exact absurd e hne

/-- The signal register an op writes, if any (30_encoding.md R92). -/
def destReg : Instr → Option Reg
  | .mov rd _ | .acc rd _ | .clamp rd _ | .xov _ rd _ | .drum rd _ | .saw _ rd | .hat rd | .dly rd _
  | .noise rd | .img _ rd => some rd
  | .nop | .trig | .tgt _ _ _ | .arm | .seq | .ends | .rpush _ | .enc _ => none

theorem reg_footprint {r : Reg} (h : destReg i ≠ some r) : (footprint i s t).reg r = s.reg r := by
  cases i with
  | nop | trig | arm | seq | ends | rpush | enc => rfl
  | tgt v => exact reg_setSaw _ v _ r
  | mov rd | acc rd | clamp rd | drum rd | hat rd | dly rd | noise rd | img _ rd =>
    exact reg_setReg_other _ rd r _ fun e => h (congrArg some e.symm)
  | xov c rd =>
    exact (reg_setReg_other _ rd r _ fun e => h (congrArg some e.symm)).trans (reg_setXov _ c _ r)
  | saw v rd =>
    exact (reg_setReg_other _ rd r _ fun e => h (congrArg some e.symm)).trans (reg_setSaw _ v _ r)

/-- A signal register changes only as the destination of an op that has one (10_state.md R21). -/
theorem reg_change {r : Reg} (e : t = footprint i s t) (hne : t.reg r ≠ s.reg r) :
    (∃ rs, i = .mov r rs ∨ i = .acc r rs ∨ i = .clamp r rs ∨ i = .drum r rs ∨
      i = .dly r rs ∨ ∃ c, i = .xov c r rs) ∨ (∃ v, i = .saw v r) ∨ i = .hat r ∨ i = .noise r ∨
      ∃ c, i = .img c r := by
  have hd : destReg i = some r := by
    by_contra h
    exact hne ((congrArg (State.reg · r) e).trans (reg_footprint h))
  cases i <;> cases hd <;> simp

end

end Sys2Proof.Machine

/-! The obligations of the state: isolation of the units, the random draws, the run state, the status port and
the consistency of the control registers. -/

namespace Sys2Proof.Machine

/-! ## Isolation -/

/-- Settles O53: every part of the state outside the footprint of an op stays. -/
theorem unitsAreIsolated : Obligations.UnitsAreIsolated := by
  intro i s t h
  have e := exec_footprint h
  refine ⟨drum_change e, fun v => saw_change e, hat_change e, dly_change e, ring_change e,
    fun c => xov_change e, out_change e, n_change e, clock_change e, fun r => reg_change e,
    rngIdx_change e, fun hne => (exec_run h).resolve_left hne, exec_fault_finfo h, ?_, ?_, ?_, ?_⟩
  · exact (congrArg State.cfg e).trans (footprint_cfg i s t)
  · exact (congrArg State.rng e).trans (footprint_rng i s t)
  · exact (congrArg State.sinkReady e).trans (footprint_sinkReady i s t)
  · exact (congrArg State.cmd e).trans (footprint_cmd i s t)

/-! ## Random draws -/

theorem rngIdx_kept {i : Instr} {s t : State} (h : exec i s = .next t) (hhat : ∀ rd, i ≠ .hat rd)
    (hnoise : ∀ rd, i ≠ .noise rd) : t.rngIdx = s.rngIdx := by
  by_contra hne
  rcases rngIdx_change (exec_footprint h) hne with ⟨rd, hi⟩ | ⟨rd, hi⟩
  · exact hhat rd hi
  · exact hnoise rd hi

/-- A completing HAT leaves `rng_idx` where its last lane stopped (44_hihat_voice.md R213). -/
theorem effect_hat_rngIdx (rd : Reg) (s : State) : (effect (.hat rd) s).rngIdx =
    (hatLanes s.num s.cfg.hat s.rng s.hat s.rngIdx)[3].idx := rfl

/-- A completing NOISE takes two draws (47_mixer_output.md R261). -/
theorem effect_noise_rngIdx (rd : Reg) (s : State) : (effect (.noise rd) s).rngIdx = s.rngIdx + 2 := rfl

/-- An op that completes takes between 0 and 8 draws. -/
theorem effect_rngIdx (i : Instr) (s : State) :
    s.rngIdx ≤ (effect i s).rngIdx ∧ (effect i s).rngIdx ≤ s.rngIdx + 8 := by
  by_cases hne : (effect i s).rngIdx = s.rngIdx
  · omega
  rcases rngIdx_change (effect_eq_footprint i s) hne with ⟨rd, rfl⟩ | ⟨rd, rfl⟩
  · rw [effect_hat_rngIdx]
    exact hatLanes_idx _ _ _ _ _
  · rw [effect_noise_rngIdx]
    omega

/-- Settles O35: by the footprint only HAT and NOISE move `rng_idx`, and `hatLanes_idx` counts HAT's draws. -/
theorem drawsOfEachOp : Obligations.DrawsOfEachOp := by
  intro i s t _ h
  have hbound : s.rngIdx ≤ t.rngIdx ∧ t.rngIdx ≤ s.rngIdx + 8 := by
    rcases exec_next_cases h with rfl | ⟨f, k, -, rfl⟩
    · exact effect_rngIdx i s
    · simp
  refine ⟨hbound.1, hbound.2, rngIdx_kept h, ?_⟩
  rintro rd rfl hrun
  rcases exec_next_cases h with rfl | ⟨f, k, -, rfl⟩
  · exact effect_noise_rngIdx rd s
  · cases hrun

/-! ## The run state -/

/-- Settles O9: with `RUN` not RUN a step takes a command or does not exist. -/
theorem nothingExecutesOutsideRun : Obligations.NothingExecutesOutsideRun :=
  fun _ hr => ⟨fun hc => step_noStep hc hr, fun _ hc => step_none_wait hc hr⟩

/-- The transitions out of RUN by a fetch-execute cycle (10_state.md R27). -/
theorem opStep_run {s t : State} (h : opStep s = .next t) :
    t.run = s.run ∨ t.run = .fault ∨
      t.run = .done ∧ ∃ w, s.cfg.program[s.pc]? = some w ∧ decode w = .ok .ends := by
  rcases opStep_cases s with ⟨-, he⟩ | ⟨w, r, -, -, he⟩ | ⟨w, i, hw, hd, he⟩ <;> rw [h] at he
  · cases he
    exact .inr (.inl rfl)
  · cases he
    exact .inr (.inl rfl)
  · refine (exec_run he.symm).imp_right (Or.imp_right ?_)
    rintro ⟨rfl, hrun⟩
    exact ⟨hrun, w, hw, hd⟩

/-- START keeps the run state, or leaves IDLE (60_exceptions.md R295). -/
theorem hostStart_run (s : State) : (hostStart s).run = s.run ∨
    s.run = .idle ∧ ((hostStart s).run = .run ∨ (hostStart s).run = .fault) := by
  rcases hostStart_cases s with ⟨-, e⟩ | ⟨k, hi, -, e⟩ | ⟨hi, -, -, e⟩ | ⟨hi, -, -, e⟩ <;> rw [e]
  · exact .inl rfl
  · exact .inr ⟨hi, .inr rfl⟩
  · exact .inr ⟨hi, .inr rfl⟩
  · exact .inr ⟨hi, .inl rfl⟩

/-- Settles O59: by the kinds of step, an op or a fetch fault, a wait, RESET and START. -/
theorem runStateTransitions : Obligations.RunStateTransitions := by
  intro s t h
  rcases step_cases h with ⟨rest, -, hr, ho⟩ | ⟨rest, -, -, rfl⟩ | ⟨rest, hc, rfl⟩ | ⟨rest, hc, rfl⟩
  · rcases opStep_run ho with hk | hf | ⟨hd, hends⟩
    · exact .inl hk
    · exact .inr (.inr (.inr (.inl ⟨hr, hf⟩)))
    · exact .inr (.inr (.inl ⟨hr, hd, hends⟩))
  · exact .inl rfl
  · exact .inr (.inr (.inr (.inr ⟨rfl, rest, hc⟩)))
  · rcases hostStart_run { s with cmd := rest } with hk | ⟨hi, hs⟩
    · exact .inl hk
    · exact .inr (.inl ⟨hi, hs, rest, hc⟩)

/-! ## The status port -/

/-- The port shows a flag as 1 or 0 (10_state.md R25, R26). -/
theorem toNat_flag (b : Bool) : b.toNat = if b = true then 1 else 0 := by cases b <;> rfl

/-- Settles O60: register by register. -/
theorem statusPortShowsRegisters : Obligations.StatusPortShowsRegisters := by
  intro s
  refine ⟨?_, rfl, rfl, rfl, rfl, rfl, congrArg some (toNat_flag s.tk), rfl, rfl, rfl, ?_⟩
  · unfold readStatus runCode
    cases s.run <;> rfl
  · intro k hk
    obtain ⟨j, rfl⟩ := Nat.exists_eq_add_of_le' hk
    rfl

/-! ## Consistency of the control registers -/

theorem code_ne_zero (f : FaultCode) : f.code ≠ 0 := by cases f <;> decide

theorem code_ne_illegalOp {f : FaultCode} (h : f ≠ .illegalOp) : f.code ≠ FaultCode.illegalOp.code := by
  cases f with
  | illegalOp => exact absurd rfl h
  | _ => decide

/-- What consistency asks of a machine that executes. -/
theorem controlOk_iff_of_run {s : State} (hr : s.run = .run) :
    s.controlOk ↔ (s.fault = 0 ∧ s.finfo = 0) ∧ (firstFailing s.cfg = none ∧ s.n < s.cfg.nSamples) ∧
      s.pc ≤ s.cfg.program.length ∧ s.outCnt = s.out.length := by
  unfold State.controlOk
  constructor
  · rintro ⟨hf, -, hrun, -, -, hpc, hout, -⟩
    exact ⟨hf (by simp [hr]), hrun hr, hpc, hout⟩
  · rintro ⟨hf, hrun, hpc, hout⟩
    exact ⟨fun _ => hf, by simp [hr], fun _ => hrun, by simp [hr], by simp [hr], hpc, hout,
      fun e => code_ne_zero _ (e.symm.trans hf.1)⟩

/-- A fault but `IllegalOp` leaves a consistent state consistent, `n` being in its range. -/
theorem raise_controlOk {s : State} {f : FaultCode} (h : s.controlOk) (hn : s.n ≤ s.cfg.nSamples)
    (hf : f ≠ .illegalOp) (k : Nat) : (s.raise f k).controlOk := by
  obtain ⟨-, -, -, -, -, hpc, hout, -⟩ := h
  exact ⟨by simp, by simp, by simp, by simp, fun _ => ⟨hn, code_ne_zero f⟩, hpc, hout, code_ne_illegalOp hf⟩

/-- A program that passed check 13 holds legal words only (60_exceptions.md R296, R298). -/
theorem legal_of_checked {c : Cfg} {k : Nat} {w : Word} (hc : firstFailing c = none)
    (hw : c.program[k]? = some w) : legal w = true := by
  have h13 := firstFailing_none.mp hc 13 (by omega) (by omega)
  simp only [cfgCheck, Bool.and_eq_true, List.all_eq_true] at h13
  exact h13.2 w (List.mem_of_getElem? hw)

/-- An op that completes keeps `out_cnt` the length of `OUT` (20_memory.md R66). -/
theorem effect_outCnt {s : State} (i : Instr) (h : s.outCnt = s.out.length) :
    (effect i s).outCnt = (effect i s).out.length := by
  by_cases hi : ∃ rs, i = .enc rs
  · obtain ⟨rs, rfl⟩ := hi
    simp [effect, encBytes, h]
  · obtain ⟨ho, hc⟩ := not_or.mp (mt (out_change (effect_eq_footprint i s)) hi)
    rw [not_not.mp ho, not_not.mp hc, h]

/-- ENDS keeps the control registers consistent: it counts a sample and either ends the run or starts the
program again (46_sequencer.md R247). -/
theorem effect_ends_controlOk {s : State} (hr : s.run = .run) (h : s.controlOk) :
    (effect .ends s).controlOk := by
  obtain ⟨hf, ⟨hcfg, hn⟩, hpc, hout⟩ := (controlOk_iff_of_run hr).mp h
  simp only [effect]
  split
  · next hlast =>
    exact ⟨fun _ => hf, by simp, by simp, fun _ => hlast, by simp, hpc, hout,
      fun e => code_ne_zero _ (e.symm.trans hf.1)⟩
  · next hmore =>
    have hn' : s.n + 1 < s.cfg.nSamples := by omega
    exact (controlOk_iff_of_run (s := { s with n := s.n + 1, pc := 0 }) hr).mpr
      ⟨hf, ⟨hcfg, hn'⟩, Nat.zero_le _, hout⟩

/-- An op that is fetched and completes keeps the control registers consistent. -/
theorem effect_controlOk {s : State} (i : Instr) (hr : s.run = .run) (h : s.controlOk)
    (hlt : s.pc < s.cfg.program.length) : (effect i s).controlOk := by
  by_cases hi : i = .ends
  · subst hi
    exact effect_ends_controlOk hr h
  obtain ⟨hf, hrun, -, hout⟩ := (controlOk_iff_of_run hr).mp h
  obtain ⟨hfault, hfinfo⟩ := effect_fault_finfo i s
  obtain ⟨hr', hpc⟩ := effect_run_pc s hi
  have e := effect_eq_footprint i s
  have hcfg : (effect i s).cfg = s.cfg := (congrArg State.cfg e).trans (footprint_cfg i s _)
  have hn : (effect i s).n = s.n := not_not.mp (mt (n_change e) hi)
  rw [controlOk_iff_of_run (hr'.trans hr), hfault, hfinfo, hcfg, hn, hpc]
  exact ⟨hf, hrun, hlt, effect_outCnt i hout⟩

theorem exec_controlOk {i : Instr} {s t : State} (h : s.controlOk) (hr : s.run = .run)
    (hlt : s.pc < s.cfg.program.length) (he : exec i s = .next t) : t.controlOk := by
  rcases exec_next_cases he with rfl | ⟨f, k, hf, rfl⟩
  · exact effect_controlOk i hr h hlt
  · obtain ⟨-, ⟨-, hn⟩, -⟩ := (controlOk_iff_of_run hr).mp h
    exact raise_controlOk h hn.le hf k

/-- RESET makes the control registers consistent, whatever they were (70_reset_and_hazards.md R321). -/
theorem hostReset_controlOk (s : State) : (hostReset s).controlOk := by
  simp [State.controlOk, hostReset, resetUnder, FaultCode.code]

/-- START lets only a checked configuration run, check 1 making room for the first sample
(60_exceptions.md R295, R296). -/
theorem hostStart_controlOk {s : State} (h : s.controlOk) : (hostStart s).controlOk := by
  have hstart : s.run = .idle → s.n = 0 := by
    obtain ⟨-, hidle, -⟩ := h
    exact fun hi => (hidle hi).1
  rcases hostStart_cases s with ⟨-, e⟩ | ⟨k, hi, -, e⟩ | ⟨hi, -, -, e⟩ | ⟨hi, hcfg, -, e⟩ <;> rw [e]
  · exact h
  · exact raise_controlOk h (by simp [hstart hi]) (by simp) k
  · exact raise_controlOk h (by simp [hstart hi]) (by simp) 0
  · have hroom : s.n < s.cfg.nSamples := by
      have h1 := firstFailing_none.mp hcfg 1 (by omega) (by omega)
      simpa [cfgCheck, hstart hi, Nat.one_le_iff_ne_zero, Nat.pos_iff_ne_zero] using h1
    obtain ⟨hf, -, -, -, -, hpc, hout, -⟩ := h
    exact (controlOk_iff_of_run rfl).mpr ⟨hf (by simp [hi]), ⟨hcfg, hroom⟩, hpc, hout⟩

/-- Settles O57: each kind of step keeps the control registers consistent; an illegal word is not fetched,
the configuration that runs having passed check 13. -/
theorem controlStaysConsistent : Obligations.ControlStaysConsistent := by
  refine step_keeps State.controlOk (fun _ _ h => h) ?exec ?fetchEnd ?illegal
    (fun s _ => hostReset_controlOk s) (fun _ => hostStart_controlOk)
  case exec =>
    rintro i s t h hr ⟨w, hw, -⟩ he
    obtain ⟨hlt, -⟩ := List.getElem?_eq_some_iff.mp hw
    exact exec_controlOk h hr hlt he
  case fetchEnd =>
    intro s h hr _
    obtain ⟨-, ⟨-, hn⟩, -⟩ := (controlOk_iff_of_run hr).mp h
    exact raise_controlOk h hn.le (by simp) _
  case illegal =>
    intro s w r h hr hw hd
    obtain ⟨-, ⟨hcfg, -⟩, -⟩ := (controlOk_iff_of_run hr).mp h
    have hlegal := legal_of_checked hcfg hw
    rw [legal, hd] at hlegal
    cases hlegal

end Sys2Proof.Machine

/-! The obligations of the memory spaces: the ring form of a buffer against its shifting form, the invariants of
the three buffers and the drum's counter, and the output stream. -/

namespace Sys2Proof.Machine

/-! ## The ring form and the shifting form (20_memory.md R78) -/

/-- Going on from an index by 1 to `len` places comes back to it after exactly `len`. -/
theorem add_mod_eq_self_iff {w k len : Nat} (hw : w < len) (h0 : 0 < k) (hk : k ≤ len) :
    (w + k) % len = w ↔ k = len := by
  rcases Nat.lt_or_ge (w + k) len with h | h
  · rw [Nat.mod_eq_of_lt h]
    omega
  · rw [Nat.mod_eq_sub_mod h, Nat.mod_eq_of_lt (by omega)]
    omega

/-- The element `j` places from the read end after a push: the one pushed at the newest place, else the element
that was one place further from the read end. -/
theorem memRead_push {z : NumVal} {m : Memory} {len w j : Nat} (v : NumVal) (hm : Memory.wf z m)
    (hw : w < len) (hj : j < len) :
    memRead z (memWrite z m w v) ((nextIndex w len + j) % len) =
      if j + 1 = len then v else memRead z m ((w + (j + 1)) % len) := by
  have hplace : (nextIndex w len + j) % len = (w + (j + 1)) % len := by
    rw [nextIndex, Nat.mod_add_mod, Nat.add_assoc, Nat.add_comm 1 j]
  rw [hplace, memRead_memWrite hm]
  simp only [add_mod_eq_self_iff hw (Nat.succ_pos j) hj]

/-- The contents from the oldest element on. -/
theorem ringContents_eq_cons (z : NumVal) (n : Nat) (m : Memory) (w : Nat) :
    ringContents z (n + 1) m w = memRead z m (w % (n + 1)) ::
      (List.range n).map fun j => memRead z m ((w + (j + 1)) % (n + 1)) := by
  simp [ringContents, List.range_succ_eq_map]

/-- The contents up to the newest element. -/
theorem ringContents_eq_concat (z : NumVal) (n : Nat) (m : Memory) (w : Nat) :
    ringContents z (n + 1) m w = ((List.range n).map fun j => memRead z m ((w + j) % (n + 1))) ++
      [memRead z m ((w + n) % (n + 1))] := by
  simp [ringContents, List.range_succ]

/-- Settles O37: place by place with `memRead_push`; the newest place holds the new element. -/
theorem ringFormShifts : Obligations.RingFormShifts := by
  intro z v m len w hlen hw hm
  obtain ⟨n, rfl⟩ := Nat.exists_eq_add_of_le' hlen
  have hnewest := memRead_push v hm hw (Nat.lt_succ_self n)
  have holder : ∀ j < n, memRead z (memWrite z m w v) ((nextIndex w (n + 1) + j) % (n + 1)) =
      memRead z m ((w + (j + 1)) % (n + 1)) := fun j hj =>
    (memRead_push v hm hw (Nat.lt_succ_of_lt hj)).trans (if_neg (by omega))
  rw [if_pos rfl] at hnewest
  constructor
  · change ringContents z (n + 1) (memWrite z m w v) (nextIndex w (n + 1)) = _
    rw [ringContents_eq_concat, ringContents_eq_cons, List.tail_cons, hnewest,
      List.map_congr_left fun j hj => holder j (List.mem_range.mp hj)]
  · rw [ringContents_eq_cons, List.head?_cons, Nat.mod_eq_of_lt hw]

/-- The history function counts back from the newest place (20_memory.md R64). -/
theorem ringHist_eq_memRead {z : NumVal} {len j : Nat} {r : StereoRing} (hj : j < len) :
    ringHist z len r j = memRead z r.buf ((r.rw + (len - 1 - j)) % len) := by
  rw [ringHist]
  congr 2
  omega

/-- Settles O45: `h(j)` is the place `len - 1 - j` from the read end, and `memRead_push` says what a push
leaves there. -/
theorem ringHistoryShifts : Obligations.RingHistoryShifts := by
  intro o len j r v hw hm
  have hpush : ∀ k < len, ringHist (o.ofNat 0) len (ringPush o len r v) k =
      if len - 1 - k + 1 = len then v
      else memRead (o.ofNat 0) r.buf ((r.rw + (len - 1 - k + 1)) % len) := fun k hk => by
    rw [ringHist_eq_memRead hk]
    exact memRead_push v hm hw (by omega)
  refine ⟨?_, fun hj => ?_⟩
  · rw [hpush 0 (by omega), if_pos (by omega)]
  · rw [hpush (j + 1) hj, if_neg (by omega), ringHist_eq_memRead (by omega)]
    congr 3
    omega

/-! ## What an op does to a buffer -/

/-- What an op can do to a buffer `m` of `len` elements with index `w`: nothing, or one push
(20_memory.md R62 to R64). -/
inductive BufferMove (z : NumVal) (len : Nat) (m : Memory) (w : Nat) : Memory → Nat → Prop where
  | kept : BufferMove z len m w m w
  | pushed (v : NumVal) : BufferMove z len m w (memWrite z m w v) (nextIndex w len)

theorem BufferMove.wf {z : NumVal} {len w w' : Nat} {m m' : Memory} (h : BufferMove z len m w m' w')
    (hm : Memory.wf z m) : Memory.wf z m' := by
  cases h with
  | kept => exact hm
  | pushed v => exact memWf_memWrite hm w v

/-- An index in range and listed elements in range stay so: a push writes at the index and wraps it. -/
theorem BufferMove.inRange {z : NumVal} {len w w' : Nat} {m m' : Memory} (h : BufferMove z len m w m' w')
    (hr : w < len ∧ ∀ p ∈ m, p.1 < len) : w' < len ∧ ∀ p ∈ m', p.1 < len := by
  obtain ⟨hw, hm⟩ := hr
  cases h with
  | kept => exact ⟨hw, hm⟩
  | pushed v =>
    refine ⟨Nat.mod_lt _ (by omega), fun p hp => ?_⟩
    rcases mem_memWrite hp with hp | rfl
    · exact hm p hp
    · exact hw

section
variable (i : Instr) (s : State)

@[simp] theorem effect_cfg : (effect i s).cfg = s.cfg :=
  (congrArg State.cfg (effect_eq_footprint i s)).trans (footprint_cfg i s _)

@[simp] theorem effect_zero : (effect i s).zero = s.zero := by simp [State.zero, State.num]

/-- Only DLY moves the delay line (20_memory.md R62). -/
theorem effect_dly_move :
    BufferMove s.zero s.cfg.dlLen s.dly.buf s.dly.dw (effect i s).dly.buf (effect i s).dly.dw := by
  by_cases hne : (effect i s).dly = s.dly
  · rw [hne]
    exact .kept
  · obtain ⟨rd, rs, rfl⟩ := dly_change (effect_eq_footprint i s) hne
    exact .pushed _

/-- Only RPUSH moves the stereo ring (20_memory.md R64). -/
theorem effect_ring_move :
    BufferMove s.zero s.cfg.ringLen s.ring.buf s.ring.rw (effect i s).ring.buf (effect i s).ring.rw := by
  by_cases hne : (effect i s).ring = s.ring
  · rw [hne]
    exact .kept
  · obtain ⟨rs, rfl⟩ := ring_change (effect_eq_footprint i s) hne
    exact .pushed _

/-- What SEQ does to the hi-hat and the drum: it may arm the one and trigger the other
(46_sequencer.md R244). -/
theorem effect_seq_units : (∃ v, (effect .seq s).hat = { s.hat with vol := v }) ∧
    ((effect .seq s).drum = s.drum ∨ (effect .seq s).drum = drumTriggered s.num s.cfg.drum) := by
  simp only [effect]
  split
  · obtain ⟨d, b, m, v, e, hd, -⟩ := patternActions_cases s.tick (tickClock s)
    rw [e]
    exact ⟨⟨v, rfl⟩, hd.imp_right fun h => h.1⟩
  · exact ⟨⟨s.hat.vol, rfl⟩, .inl rfl⟩

/-- Only HAT moves the comb: arming, by ARM or SEQ, writes the volume alone (20_memory.md R63). -/
theorem effect_comb_move :
    BufferMove s.zero 128 s.hat.comb s.hat.cw (effect i s).hat.comb (effect i s).hat.cw := by
  by_cases hne : (effect i s).hat = s.hat
  · rw [hne]
    exact .kept
  · rcases hat_change (effect_eq_footprint i s) hne with rfl | rfl | ⟨rd, rfl⟩
    · exact .kept
    · obtain ⟨⟨v, e⟩, -⟩ := effect_seq_units s
      rw [e]
      exact .kept
    · exact .pushed _

/-- What an op can do to the drum: nothing, a trigger, or one Active sample (10_state.md R31). -/
theorem effect_drum_cases :
    (effect i s).drum = s.drum ∨ (effect i s).drum = drumTriggered s.num s.cfg.drum ∨
      s.drum.on = true ∧ (effect i s).drum = drumNext s.num s.cfg.drum s.drum := by
  by_cases hne : (effect i s).drum = s.drum
  · exact .inl hne
  rcases drum_change (effect_eq_footprint i s) hne with rfl | rfl | ⟨rd, rs, rfl⟩
  · exact .inr (.inl rfl)
  · exact (effect_seq_units s).2.imp_right .inl
  · simp only [effect]
    split
    · next hon => exact .inr (.inr ⟨hon, rfl⟩)
    · exact .inl rfl

end

/-! ## Invariants of the buffers and the counters -/

/-- An invariant that does not read the run state, the fault registers or the command port is kept by every step
when RESET and the effect of every op keep it: all else that a step does is to write those. -/
theorem step_keeps_of_effect (P : State → Prop)
    (hctl : ∀ s r f k l, P s → P { s with run := r, fault := f, finfo := k, cmd := l })
    (heffect : ∀ i s, P s → P (effect i s)) (hreset : ∀ s, P s → P (hostReset s)) :
    ∀ s t, P s → step s = .next t → P t := by
  have hraise : ∀ s f k, P s → P (s.raise f k) := fun s f k => hctl s .fault f.code _ s.cmd
  refine step_keeps P (fun s l => hctl s s.run s.fault s.finfo l) ?exec (fun s h _ _ => hraise s _ _ h)
    (fun s w _ h _ _ _ => hraise s _ _ h) hreset ?start
  case exec =>
    intro i s t h _ _ he
    rcases exec_next_cases he with rfl | ⟨f, k, -, rfl⟩
    · exact heffect i s h
    · exact hraise s f k h
  case start =>
    intro s h
    obtain ⟨r, f, k, e⟩ := hostStart_frame s
    rw [e]
    exact hctl s r f k s.cmd h

theorem hostReset_buffersWf (s : State) : (hostReset s).buffersWf := ⟨memWf_nil, memWf_nil, memWf_nil⟩

theorem effect_buffersWf (i : Instr) (s : State) (h : s.buffersWf) : (effect i s).buffersWf := by
  obtain ⟨hcomb, hdly, hring⟩ := h
  rw [State.buffersWf, effect_zero]
  exact ⟨(effect_comb_move i s).wf hcomb, (effect_dly_move i s).wf hdly, (effect_ring_move i s).wf hring⟩

/-- Settles O55: RESET empties the buffers, and an op keeps or pushes each of them. -/
theorem buffersStayCanonical : Obligations.BuffersStayCanonical :=
  step_keeps_of_effect State.buffersWf (fun _ _ _ _ _ h => h) effect_buffersWf
    fun s _ => hostReset_buffersWf s

/-- The drum's counter against its duration (10_state.md R31): at most `len`, and below it while Active. -/
def Drum.counts (len : Nat) (d : Drum) : Prop := d.i ≤ len ∧ (d.on = true → d.i < len)

/-- A trigger starts the count at 0 (42_drum_voice.md R171). -/
theorem drumTriggered_counts (o : NumOps) {c : DrumCfg} (hlen : 0 < c.len) :
    (drumTriggered o c).counts c.len := ⟨Nat.zero_le _, fun _ => hlen⟩

/-- An Active sample counts up, and the drum goes Idle when the count reaches its duration
(42_drum_voice.md R177). -/
theorem drumNext_counts (o : NumOps) {c : DrumCfg} {d : Drum} (h : d.counts c.len) (hon : d.on = true) :
    (drumNext o c d).counts c.len := by
  have hlt : d.i < c.len := h.2 hon
  refine ⟨hlt, fun hon' => Nat.lt_of_le_of_ne hlt fun hend => ?_⟩
  have hoff : (drumNext o c d).on = false := if_pos hend
  rw [hoff] at hon'
  cases hon'

theorem effect_drum_counts {s : State} (i : Instr) (hlen : 0 < s.cfg.drum.len)
    (h : s.drum.counts s.cfg.drum.len) : (effect i s).drum.counts s.cfg.drum.len := by
  rcases effect_drum_cases i s with e | e | ⟨hon, e⟩ <;> rw [e]
  · exact h
  · exact drumTriggered_counts s.num hlen
  · exact drumNext_counts s.num h hon

theorem effect_indicesInRange (i : Instr) (s : State) (h : s.indicesInRange) :
    (effect i s).indicesInRange := by
  obtain ⟨hcw, hcomb, hdly, hring, hdrum⟩ := h
  obtain ⟨hcw', hcomb'⟩ := (effect_comb_move i s).inRange ⟨hcw, hcomb⟩
  rw [State.indicesInRange, effect_cfg]
  exact ⟨hcw', hcomb', fun hlen => (effect_dly_move i s).inRange (hdly hlen),
    fun hlen => (effect_ring_move i s).inRange (hring hlen),
    fun hlen => effect_drum_counts i hlen (hdrum hlen)⟩

/-- After RESET every index and the counter are 0 and no element is listed (70_reset_and_hazards.md R321). -/
theorem hostReset_indicesInRange (s : State) : (hostReset s).indicesInRange := by
  simp [State.indicesInRange, hostReset, resetUnder, Hat.reset, Drum.reset]

/-- Settles O56: an op keeps or pushes each buffer, its index wrapping, and counts the drum up only while it is
Active. -/
theorem indicesStayInRange : Obligations.IndicesStayInRange :=
  step_keeps_of_effect State.indicesInRange (fun _ _ _ _ _ h => h) effect_indicesInRange
    fun s _ => hostReset_indicesInRange s

/-! ## The output stream (20_memory.md R66) -/

/-- `l'` is `l` with nothing or one encoded sample appended. -/
def appendsSample (l l' : List Byte) : Prop := l' = l ∨ ∃ u, l' = l ++ encBytes u

theorem appendsSample_prefix {l l' : List Byte} (h : appendsSample l l') :
    l <+: l' ∧ l'.length ≤ l.length + 3 := by
  rcases h with rfl | ⟨u, rfl⟩
  · exact ⟨List.prefix_refl _, Nat.le_add_right _ _⟩
  · exact ⟨List.prefix_append _ _, by simp [encBytes]⟩

/-- An op that completes appends nothing, or, being an ENC, one sample. -/
theorem effect_out (i : Instr) (s : State) : appendsSample s.out (effect i s).out := by
  by_cases hne : (effect i s).out = s.out
  · exact .inl hne
  · obtain ⟨rs, rfl⟩ := out_change (effect_eq_footprint i s) (.inl hne)
    refine .inr ⟨encQuantum s.num (s.reg rs), ?_⟩
    simp only [effect, emit_encBytes, advance_out]

theorem opStep_out {s t : State} (h : opStep s = .next t) : appendsSample s.out t.out := by
  rcases opStep_cases s with ⟨-, he⟩ | ⟨w, r, -, -, he⟩ | ⟨w, i, -, -, he⟩ <;> rw [h] at he
  · cases he
    exact .inl rfl
  · cases he
    exact .inl rfl
  · rcases exec_next_cases he.symm with rfl | ⟨f, k, -, rfl⟩
    · exact effect_out i s
    · exact .inl rfl

/-- Every step but RESET appends nothing or one sample. -/
theorem step_out {s t : State} (h : step s = .next t) (hreset : ∀ rest, s.cmd ≠ .reset :: rest) :
    appendsSample s.out t.out := by
  rcases step_cases h with ⟨rest, -, -, ho⟩ | ⟨rest, -, -, rfl⟩ | ⟨rest, hc, -⟩ | ⟨rest, -, rfl⟩
  · exact opStep_out (s := { s with cmd := rest }) ho
  · exact .inl rfl
  · exact absurd hc (hreset rest)
  · obtain ⟨r, f, k, e⟩ := hostStart_frame { s with cmd := rest }
    rw [e]
    exact .inl rfl

/-- Settles O58: only ENC appends, and a sample is three bytes. -/
theorem outputOnlyGrows : Obligations.OutputOnlyGrows :=
  fun _ _ h hreset => appendsSample_prefix (step_out h hreset)

end Sys2Proof.Machine

/-! The encoding: the word and its four fields, the operand fields of an op, one characterisation of decoding, and
the opcode map's rows as the words of their opcodes and shapes (30_encoding.md R90 to R96). -/

namespace Sys2Proof

/-! ## A word and its fields -/

/-- A word is made of its four fields: the converse of `fieldsOf_wordOf` (30_encoding.md R90). -/
theorem wordOf_fieldsOf (w : Word) : wordOf (fieldsOf w) = w := by
  have hinst : w.extractLsb' 8 8 ++ w.extractLsb' 6 2 = w.extractLsb' 6 10 :=
    BitVec.extractLsb'_append_extractLsb'_eq_extractLsb' rfl
  have hrd : w.extractLsb' 6 10 ++ w.extractLsb' 3 3 = w.extractLsb' 3 13 :=
    BitVec.extractLsb'_append_extractLsb'_eq_extractLsb' rfl
  have hrs : w.extractLsb' 3 13 ++ w.extractLsb' 0 3 = w.extractLsb' 0 16 :=
    BitVec.extractLsb'_append_extractLsb'_eq_extractLsb' rfl
  calc w.extractLsb' 8 8 ++ w.extractLsb' 6 2 ++ w.extractLsb' 3 3 ++ w.extractLsb' 0 3
      = w.extractLsb' 0 16 := by rw [hinst, hrd, hrs]
    _ = w := BitVec.extractLsb'_eq_self

theorem wordOf_eq_iff {f : Fields} {w : Word} : wordOf f = w ↔ f = fieldsOf w :=
  ⟨fun h => h ▸ (fieldsOf_wordOf f).symm, fun h => h ▸ wordOf_fieldsOf w⟩

theorem wordOf_inj {f g : Fields} : wordOf f = wordOf g ↔ f = g := by
  rw [wordOf_eq_iff, fieldsOf_wordOf]

/-- `w = opc*256 + inst*64 + rd*8 + rs` as numbers (30_encoding.md R93). -/
theorem toNat_wordOf (f : Fields) :
    (wordOf f).toNat = f.opc.toNat * 256 + f.inst.toNat * 64 + f.rd.toNat * 8 + f.rs.toNat := by
  simp only [wordOf, BitVec.toNat_append]
  rw [← Nat.shiftLeft_add_eq_or_of_lt f.inst.isLt, ← Nat.shiftLeft_add_eq_or_of_lt f.rd.isLt,
    ← Nat.shiftLeft_add_eq_or_of_lt f.rs.isLt]
  simp only [Nat.shiftLeft_eq]
  omega

/-! ## Opcodes and operand fields -/

theorem opcodeOf_opcOf (o : Opcode) : opcodeOf (opcOf o) = some o := by
  cases o <;> rfl

/-- No two ops share an `opc` value, so an `opc` value names the op it belongs to (30_encoding.md R93). -/
theorem opcodeOf_eq_some_iff {b : BitVec 8} {o : Opcode} : opcodeOf b = some o ↔ b = opcOf o := by
  constructor
  · intro h
    have hb := List.find?_some h
    exact (eq_of_beq hb).symm
  · rintro rfl
    exact opcodeOf_opcOf o

theorem regBits_toNat (r : Reg) : (regBits r).toNat = r.val := by
  simp [regBits]

@[simp] theorem regOf_regBits (r : Reg) : regOf (regBits r) = r := Fin.ext (regBits_toNat r)

@[simp] theorem regBits_regOf (b : BitVec 3) : regBits (regOf b) = b :=
  BitVec.eq_of_toNat_eq (regBits_toNat _)

@[simp] theorem voiceOf_voiceBits (v : Voice) : voiceOf (voiceBits v) = v := by
  cases v <;> rfl

@[simp] theorem channelOf_channelBits (c : Channel) : channelOf (channelBits c) = c := by
  cases c <;> rfl

/-- A used instance field that is not reserved (30_encoding.md R91, R95). -/
theorem inst_zero_or_one {b : BitVec 2} (h : b.toNat ≤ 1) : b = 0 ∨ b = 1 := by
  bv_omega

theorem voiceBits_voiceOf {b : BitVec 2} (h : b.toNat ≤ 1) : voiceBits (voiceOf b) = b := by
  rcases inst_zero_or_one h with rfl | rfl <;> rfl

theorem channelBits_channelOf {b : BitVec 2} (h : b.toNat ≤ 1) : channelBits (channelOf b) = b := by
  rcases inst_zero_or_one h with rfl | rfl <;> rfl

/-- A check passes when its condition fails and the checks after it pass. -/
theorem reject_eq_none_iff {p : Prop} [Decidable p] {r : Reject} {rest : Option Reject} :
    (if p then some r else rest) = none ↔ ¬ p ∧ rest = none := by
  split <;> simp [*]

/-- The checks on the operand fields as one condition a field (30_encoding.md R91). -/
theorem wellFormed_iff (sh : Shape) (f : Fields) : f.wellFormed sh ↔
    (sh.inst = false → f.inst = 0) ∧ (sh.inst = true → f.inst.toNat ≤ 1) ∧
    (sh.rd = false → f.rd = 0) ∧ (sh.rs = false → f.rs = 0) := by
  simp only [Fields.wellFormed, Fields.check, reject_eq_none_iff, and_true, not_and, not_not, not_le,
    Nat.lt_succ_iff]

/-! ## The instruction of an op and its fields -/

@[simp] theorem fields_opc (i : Instr) : i.fields.opc = opcOf i.opcode := by
  cases i <;> rfl

/-- An instruction whose fields hold the `opc` value of an op is that op. -/
theorem opcode_eq_of_fields_opc {i : Instr} {o : Opcode} (h : i.fields.opc = opcOf o) : i.opcode = o := by
  rw [← opcodeOf_eq_some_iff, fields_opc, opcodeOf_opcOf] at h
  exact Option.some.inj h

/-- Every instruction's fields pass the checks of its opcode: `FieldsChecked` for all 18 (30_encoding.md R91). -/
theorem fields_wellFormed (i : Instr) : i.fields.wellFormed i.opcode.shape :=
  match i with
  | .nop => Laws.FieldsChecked.nop
  | .mov rd rs => Laws.FieldsChecked.mov rd rs
  | .acc rd rs => Laws.FieldsChecked.acc rd rs
  | .clamp rd rs => Laws.FieldsChecked.clamp rd rs
  | .xov c rd rs => Laws.FieldsChecked.xov c rd rs
  | .trig => Laws.FieldsChecked.trig
  | .drum rd rs => Laws.FieldsChecked.drum rd rs
  | .tgt v rd rs => Laws.FieldsChecked.tgt v rd rs
  | .saw v rd => Laws.FieldsChecked.saw v rd
  | .arm => Laws.FieldsChecked.arm
  | .hat rd => Laws.FieldsChecked.hat rd
  | .dly rd rs => Laws.FieldsChecked.dly rd rs
  | .seq => Laws.FieldsChecked.seq
  | .ends => Laws.FieldsChecked.ends
  | .noise rd => Laws.FieldsChecked.noise rd
  | .rpush rs => Laws.FieldsChecked.rpush rs
  | .img c rd => Laws.FieldsChecked.img c rd
  | .enc rs => Laws.FieldsChecked.enc rs

@[simp] theorem build_opcode (o : Opcode) (f : Fields) : (build o f).opcode = o := by
  cases o <;> rfl

/-- An instruction is rebuilt from its opcode and its fields. -/
theorem build_fields (i : Instr) : build i.opcode i.fields = i := by
  cases i <;> simp [build, Instr.opcode, Instr.fields]

/-- An op built from fields that suit it has those fields: the unused ones are zero on both sides, and a used
instance field is one of the two values that name an instance. -/
theorem fields_build {o : Opcode} {f : Fields} (hopc : f.opc = opcOf o) (hwf : f.wellFormed o.shape) :
    (build o f).fields = f := by
  obtain ⟨opc, inst, rd, rs⟩ := f
  obtain ⟨hinst, hinst', hrd, hrs⟩ := (wellFormed_iff _ _).mp hwf
  obtain rfl : opc = opcOf o := hopc
  cases o with
  | nop | trig | arm | seq | ends =>
    obtain rfl := hinst rfl
    obtain rfl := hrd rfl
    obtain rfl := hrs rfl
    rfl
  | mov | acc | clamp | drum | dly =>
    obtain rfl := hinst rfl
    simp [build, Instr.fields, Instr.opcode]
  | xov => simp [build, Instr.fields, Instr.opcode, channelBits_channelOf (hinst' rfl)]
  | tgt => simp [build, Instr.fields, Instr.opcode, voiceBits_voiceOf (hinst' rfl)]
  | saw =>
    obtain rfl := hrs rfl
    simp [build, Instr.fields, Instr.opcode, voiceBits_voiceOf (hinst' rfl)]
  | img =>
    obtain rfl := hrs rfl
    simp [build, Instr.fields, Instr.opcode, channelBits_channelOf (hinst' rfl)]
  | hat | noise =>
    obtain rfl := hinst rfl
    obtain rfl := hrs rfl
    simp [build, Instr.fields, Instr.opcode]
  | rpush | enc =>
    obtain rfl := hinst rfl
    obtain rfl := hrd rfl
    simp [build, Instr.fields, Instr.opcode]

/-! ## Decoding -/

/-- When fields decode: their `opc` is an op's and they suit it (30_encoding.md R96). -/
theorem decodeFields_eq_ok_iff {f : Fields} {i : Instr} : decodeFields f = .ok i ↔
    ∃ o, f.opc = opcOf o ∧ f.wellFormed o.shape ∧ build o f = i := by
  simp only [← opcodeOf_eq_some_iff, decodeFields]
  cases opcodeOf f.opc with
  | none => simp
  | some o => cases h : f.check o.shape <;> simp [Fields.wellFormed, h]

/-- Fields decode to an instruction exactly when they are its fields. -/
theorem decodeFields_eq_ok_iff_fields {f : Fields} {i : Instr} : decodeFields f = .ok i ↔ i.fields = f := by
  rw [decodeFields_eq_ok_iff]
  constructor
  · rintro ⟨o, hopc, hwf, rfl⟩
    exact fields_build hopc hwf
  · rintro rfl
    exact ⟨i.opcode, fields_opc i, fields_wellFormed i, build_fields i⟩

/-- A word decodes to an instruction exactly when it is the word of it: both directions of the encoding. -/
theorem decode_eq_ok_iff {w : Word} {i : Instr} : decode w = .ok i ↔ encode i = w :=
  decodeFields_eq_ok_iff_fields.trans wordOf_eq_iff.symm

theorem legal_iff {w : Word} : legal w = true ↔ ∃ i, decode w = .ok i := by
  unfold legal
  cases decode w <;> simp [Except.isOk, Except.toBool]

/-- Which words decode to a given op (30_encoding.md R91, R96). -/
theorem decode_opcode_iff {w : Word} {o : Opcode} : (∃ i, decode w = .ok i ∧ i.opcode = o) ↔
    (fieldsOf w).opc = opcOf o ∧ (fieldsOf w).wellFormed o.shape := by
  constructor
  · rintro ⟨i, hd, rfl⟩
    have hf : i.fields = fieldsOf w := decodeFields_eq_ok_iff_fields.mp hd
    exact hf ▸ ⟨fields_opc i, fields_wellFormed i⟩
  · rintro ⟨hopc, hwf⟩
    exact ⟨build o (fieldsOf w), decodeFields_eq_ok_iff.mpr ⟨o, hopc, hwf, rfl⟩, build_opcode o _⟩

/-! ## The opcode map -/

/-- The bits of a word that the op of a shape fixes: all of an unused field, the high bit of a used instance
field, none of a used register field (30_encoding.md R91). -/
def Shape.fixedBits (sh : Shape) : Fields where
  opc := 0xFF
  inst := if sh.inst then 2 else 3
  rd := if sh.rd then 0 else 7
  rs := if sh.rs then 0 else 7

/-- The row that the opcode and the shape of an op give: every fixed operand bit is zero. -/
def rowOf (o : Opcode) : OpcodeRow := ⟨o, wordOf ⟨opcOf o, 0, 0, 0⟩, wordOf o.shape.fixedBits⟩

/-- The transcribed map is the row of each op, in the order of 30_encoding.md R93. -/
theorem opcodeMap_eq : opcodeMap = allOpcodes.map rowOf := by decide

theorem mem_allOpcodes (o : Opcode) : o ∈ allOpcodes := by
  cases o <;> decide

theorem mem_opcodeMap_iff {r : OpcodeRow} : r ∈ opcodeMap ↔ ∃ o, r = rowOf o := by
  simp [opcodeMap_eq, mem_allOpcodes, eq_comm]

/-- The AND of two words is taken field by field. -/
theorem wordOf_and (f g : Fields) : wordOf f &&& wordOf g =
    wordOf ⟨f.opc &&& g.opc, f.inst &&& g.inst, f.rd &&& g.rd, f.rs &&& g.rs⟩ := by
  simp only [wordOf, ← BitVec.and_append]

theorem reg_and_fixed (used : Bool) (b : BitVec 3) :
    b &&& (if used then 0 else 7) = 0 ↔ (used = false → b = 0) := by
  revert used b; decide

theorem inst_and_fixed (used : Bool) (b : BitVec 2) : b &&& (if used then 2 else 3) = 0 ↔
    (used = false → b = 0) ∧ (used = true → b.toNat ≤ 1) := by
  revert used b; decide

/-- The mask and the match of a row ask for the op's `opc` and for fields that suit its shape. -/
theorem and_mask_eq_pattern_iff (w : Word) (o : Opcode) : w &&& (rowOf o).mask = (rowOf o).pattern ↔
    (fieldsOf w).opc = opcOf o ∧ (fieldsOf w).wellFormed o.shape := by
  have hopc : (fieldsOf w).opc &&& 0xFF = (fieldsOf w).opc := BitVec.and_allOnes
  conv_lhs => rw [← wordOf_fieldsOf w]
  simp only [rowOf, wordOf_and, wordOf_inj, Fields.mk.injEq, Shape.fixedBits, hopc, reg_and_fixed,
    inst_and_fixed, wellFormed_iff, and_assoc]

/-- A row of the map matches exactly the words that decode to its op (30_encoding.md R93). -/
theorem row_matches_iff {r : OpcodeRow} (hr : r ∈ opcodeMap) (w : Word) :
    w &&& r.mask = r.pattern ↔ ∃ i, decode w = .ok i ∧ i.opcode = r.opcode := by
  obtain ⟨o, rfl⟩ := mem_opcodeMap_iff.mp hr
  rw [and_mask_eq_pattern_iff, ← decode_opcode_iff, rowOf]

/-- A row is known by its op. -/
theorem row_eq_of_opcode {r q : OpcodeRow} (hr : r ∈ opcodeMap) (hq : q ∈ opcodeMap)
    (h : r.opcode = q.opcode) : r = q := by
  obtain ⟨o, rfl⟩ := mem_opcodeMap_iff.mp hr
  obtain ⟨p, rfl⟩ := mem_opcodeMap_iff.mp hq
  exact congrArg rowOf h

/-! ## The obligations -/

/-- Settles O1: `decode_eq_ok_iff` at the instruction's own word. -/
theorem decodeOfEncode : Obligations.DecodeOfEncode :=
  fun _ => decode_eq_ok_iff.mpr rfl

/-- Settles O2: the other direction of `decode_eq_ok_iff`. -/
theorem encodeOfDecode : Obligations.EncodeOfDecode :=
  fun _ _ h => decode_eq_ok_iff.mp h

/-- Settles O3: a row matches the words of its op, a word decodes to one instruction, and a row is known by its
op. -/
theorem opcodeMapDecides : Obligations.OpcodeMapDecides := by
  refine ⟨fun w r hr => row_matches_iff hr w, fun w => ?_, fun w r hr q hq hw hw' => ?_, fun i => ?_⟩
  · rw [legal_iff]
    constructor
    · rintro ⟨i, hd⟩
      have hrow : rowOf i.opcode ∈ opcodeMap := mem_opcodeMap_iff.mpr ⟨_, rfl⟩
      exact ⟨_, hrow, (row_matches_iff hrow w).mpr ⟨i, hd, rfl⟩⟩
    · rintro ⟨r, hr, hw⟩
      obtain ⟨i, hd, -⟩ := (row_matches_iff hr w).mp hw
      exact ⟨i, hd⟩
  · obtain ⟨i, hd, hi⟩ := (row_matches_iff hr w).mp hw
    obtain ⟨j, hd', hj⟩ := (row_matches_iff hq w).mp hw'
    obtain rfl : i = j := by simpa [hd] using hd'
    exact row_eq_of_opcode hr hq (hi.symm.trans hj)
  · rw [encode, toNat_wordOf, fields_opc]

/-- Settles O4: a word decodes exactly to the instruction with its fields, and the checks are one condition a
field. -/
theorem unusedFieldsMustBeZero : Obligations.UnusedFieldsMustBeZero := by
  intro op f hopc
  have hfields : ∀ i, decode (wordOf f) = .ok i → i.fields = f := fun i hd =>
    wordOf_inj.mp (decode_eq_ok_iff.mp hd)
  have hopcode : ∀ i, decode (wordOf f) = .ok i → i.opcode = op := fun i hd =>
    opcode_eq_of_fields_opc ((hfields i hd).symm ▸ hopc)
  refine ⟨?_, fun i hd => ⟨hopcode i hd, hfields i hd, regBits_toNat⟩⟩
  rw [← wellFormed_iff, legal_iff]
  constructor
  · rintro ⟨i, hd⟩
    exact hfields i hd ▸ hopcode i hd ▸ fields_wellFormed i
  · intro hwf
    exact ⟨build op f, decode_eq_ok_iff.mpr (congrArg wordOf (fields_build hopc hwf))⟩

/-- Settles O5: each word is evaluated. -/
theorem sampleWordsDecode : Obligations.SampleWordsDecode := by
  unfold Obligations.SampleWordsDecode
  decide

end Sys2Proof

/-! Every op has a next state: none is refused and none ends the machine. -/

namespace Sys2Proof.Machine

/-- Settles O51: in each of the three cases of `exec_cases` the answer is a next state. -/
theorem everyOpHasNextState : Obligations.EveryOpHasNextState := by
  intro i s
  rcases exec_cases i s with ⟨-, he⟩ | ⟨-, he⟩ | ⟨rs, -, -, he⟩
  · exact ⟨effect i s, he⟩
  · exact ⟨s.raise .numInvalid (encode i).toNat, he⟩
  · exact ⟨s.raise .encRange rs.val, he⟩

end Sys2Proof.Machine

/-! The primitive blocks: the four data-move ops, the smoother over the real numbers, and the phases of an
oscillator bank (40_primitives.md). -/

namespace Sys2Proof.Machine

/-! ## An op whose values are finite completes -/

/-- An op other than ENC that writes only finite numbers has its whole effect (60_exceptions.md R301); ENC has
a fault of its own. -/
theorem exec_of_finite {i : Instr} {s : State} (hi : ∀ rs, i ≠ .enc rs)
    (h : ∀ v ∈ written i s, v.isFinite = true) : exec i s = .next (effect i s) := by
  rcases exec_cases i s with ⟨-, he⟩ | ⟨⟨v, hv, hn⟩, -⟩ | ⟨rs, rfl, -⟩
  · exact he
  · exact absurd (h v hv) (by simp [hn])
  · exact absurd rfl (hi rs)

/-- The high byte of an op's word is its opcode (30_encoding.md R90). -/
theorem encode_high_byte (i : Instr) : (encode i).extractLsb' 8 8 = opcOf i.opcode :=
  (congrArg Fields.opc (fieldsOf_wordOf i.fields)).trans (fields_opc i)

/-! ## The data-move ops -/

/-- Settles O14: NOP writes no number, so it has its effect. -/
theorem nopOnlyAdvances : Obligations.NopOnlyAdvances :=
  ⟨by decide, fun _ => exec_of_finite (by simp) (by simp [written])⟩

/-- Settles O15: the one value MOV writes is finite; with `rd = rs` it writes back what the register holds. -/
theorem movCopiesRegister : Obligations.MovCopiesRegister := by
  intro s rd rs
  refine ⟨encode_high_byte _, fun hfin => ?_⟩
  have hmov : exec (.mov rd rs) s = .next (s.setReg rd (s.reg rs)).advance :=
    exec_of_finite (by simp) (by simpa [written] using hfin)
  refine ⟨hmov, ?_⟩
  rintro rfl
  rw [hmov, setReg_reg]
  rfl

/-- Settles O16: the sum is the one value ACC writes, so it alone decides between the effect and the fault. -/
theorem accAddsOrFaults : Obligations.AccAddsOrFaults := by
  intro s rd rs
  refine ⟨encode_high_byte _, fun hfin => ?_, fun hnon => ?_⟩
  · exact exec_of_finite (by simp) (by simpa [written] using hfin)
  · rw [exec_of_nonFinite (v := s.num.add (s.reg rd) (s.reg rs)) (by simp [written]) hnon, raise_word]
    rfl

section
variable {o : NumOps} {x lo hi : NumVal}

theorem clamp_of_below (h : o.lt x lo = true) : clamp o x lo hi = lo := if_pos h

theorem clamp_of_above (hlo : o.lt x lo = false) (hhi : o.lt hi x = true) : clamp o x lo hi = hi := by
  simp [clamp, gt, hlo, hhi]

theorem clamp_of_between (hlo : o.lt x lo = false) (hhi : o.lt hi x = false) : clamp o x lo hi = x := by
  simp [clamp, gt, hlo, hhi]

end

/-- CLAMP writes what `clamp` answers, once that is a finite number (40_primitives.md R133). -/
theorem exec_clamp_of_eq {s : State} {rd rs : Reg} {v : NumVal}
    (hv : clamp s.num (s.reg rs) (natMinusOne s.num) (s.num.ofNat 1) = v) (hfin : v.isFinite = true) :
    exec (.clamp rd rs) s = .next (s.setReg rd v).advance := by
  subst hv
  exact exec_of_finite (by simp) (by simpa [written] using hfin)

/-- Settles O17: one clause for each of the three answers of `clamp`. -/
theorem clampLimitsRegister : Obligations.ClampLimitsRegister := by
  intro s rd rs one minusOne x wrote
  exact ⟨fun hlo => exec_clamp_of_eq (clamp_of_below hlo),
    fun hlo hhi => exec_clamp_of_eq (clamp_of_above hlo hhi),
    fun hlo hhi => exec_clamp_of_eq (clamp_of_between hlo hhi)⟩

/-! ## The smoother over the real numbers -/

/-- One step of the smoother leaves 31/32 of the gap to its target (40_primitives.md R122). -/
theorem ema_gap (c t : NumVal) :
    toReal (ema exactOps c t) - toReal t = 31/32 * (toReal c - toReal t) := by
  rw [toReal_ema]
  ring

theorem ema_iterate_gap (c t : NumVal) (n : Nat) :
    toReal ((fun x => ema exactOps x t)^[n] c) - toReal t = (31/32) ^ n * (toReal c - toReal t) := by
  induction n with
  | zero => simp
  | succ n ih => rw [Function.iterate_succ_apply', ema_gap, ih, pow_succ', mul_assoc]

/-- Settles O30: by `ema_iterate_gap` the gap is a nonzero multiple of the one at the start. -/
theorem smootherConvergesGeometrically : Obligations.SmootherConvergesGeometrically := by
  intro c t n q
  have hgap : q - toReal t = (31/32) ^ n * (toReal c - toReal t) := ema_iterate_gap c t n
  refine ⟨hgap, fun hne => sub_ne_zero.mp ?_⟩
  rw [hgap]
  exact mul_ne_zero (by positivity) (sub_ne_zero.mpr hne)

/-! ## One sample of a voice, lane by lane -/

section
variable (o : NumOps) (k : NumVal) (w : Saw)

theorem sawNext_inc (j : Fin 5) : (sawNext o k w).inc[j] = ema o w.inc[j] w.tinc[j] := by
  simp [sawNext]

/-- Each lane steps by its new increment (43_chorus_saw_voice.md R193). -/
theorem sawNext_phase (j : Fin 5) :
    (sawNext o k w).phase[j] = (oscStep o w.phase[j] (sawNext o k w).inc[j]).phase := by
  simp [sawNext, oscBankPhases]

end

theorem effect_saw_saw (v : Voice) (rd : Reg) (s : State) : (effect (.saw v rd) s).saw v =
    sawNext s.num (sawCutoff s.num s.cfg v s.n) (s.saw v) := by
  simp [effect]

/-! ## SAW completes in the exact domain -/

theorem ema_exact_finite (c t : NumVal) : (ema exactOps c t).isFinite = true := exactOps_div_finite _ _

theorem lpf_exact_finite (y x k : NumVal) : (lpf exactOps y x k).isFinite = true := exactOps_add_finite _ _

theorem oscStep_phase_exact_finite (p i : NumVal) : (oscStep exactOps p i).phase.isFinite = true := by
  unfold oscStep
  dsimp only
  split
  · exact exactOps_sub_finite _ _
  · exact exactOps_add_finite _ _

theorem forall_mem_toList_of_lanes {k : Nat} {P : NumVal → Prop} {l : Vector NumVal k}
    (h : ∀ j : Fin k, P l[j]) : ∀ x ∈ l.toList, P x := fun _ hx =>
  Vector.forall_mem_iff_forall_getElem.mpr (fun j hj => h ⟨j, hj⟩) _ (Vector.mem_toList_iff.mp hx)

theorem sawWrites_exact_finite (k : NumVal) (w : Saw) :
    ∀ x ∈ sawWrites (sawNext exactOps k w), x.isFinite = true := by
  have hinc : ∀ x ∈ (sawNext exactOps k w).inc.toList, x.isFinite = true :=
    forall_mem_toList_of_lanes fun j => by
      rw [sawNext_inc]
      exact ema_exact_finite _ _
  have hphase : ∀ x ∈ (sawNext exactOps k w).phase.toList, x.isFinite = true :=
    forall_mem_toList_of_lanes fun j => by
      rw [sawNext_phase]
      exact oscStep_phase_exact_finite _ _
  simp only [sawWrites, List.forall_mem_append, List.forall_mem_cons]
  exact ⟨⟨hinc, hphase⟩, ema_exact_finite _ _, lpf_exact_finite _ _ _, lpf_exact_finite _ _ _, by simp⟩

theorem exec_saw_exact {s : State} (hs : s.cfg.num = .exact) (v : Voice) (rd : Reg) :
    exec (.saw v rd) s = .next (effect (.saw v rd) s) := by
  have hnum : s.num = exactOps := congrArg numOps hs
  refine exec_of_finite (by simp) ?_
  simp only [written, hnum, List.forall_mem_cons]
  exact ⟨lpf_exact_finite _ _ _, sawWrites_exact_finite _ _⟩

/-! ## The half turn -/

/-- The smoother stays between two increments of the half turn (10_state.md R39). -/
theorem inHalfTurn_ema {c t : NumVal} (hc : inHalfTurn c) (ht : inHalfTurn t) :
    inHalfTurn (ema exactOps c t) := by
  obtain ⟨hc0, hc1⟩ := hc
  obtain ⟨ht0, ht1⟩ := ht
  rw [inHalfTurn, toReal_ema]
  constructor <;> linarith

/-- A phase and an increment of the half turn add up to at most a turn, which one wrap brings back
(40_primitives.md R126). -/
theorem inHalfTurn_oscStep {p i : NumVal} (hp : inHalfTurn p) (hi : inHalfTurn i) :
    inHalfTurn (oscStep exactOps p i).phase := by
  obtain ⟨hp0, hp1⟩ := hp
  obtain ⟨hi0, hi1⟩ := hi
  obtain ⟨-, -, hphase⟩ := oscStep_toReal p i
  rw [inHalfTurn, hphase]
  split <;> constructor <;> linarith

/-- A bank of `k` lanes sums `k` cosines, each in `[-1, 1]` (40_primitives.md R127). -/
theorem oscBankSum_range {k : Nat} (p i : Vector NumVal k) :
    -(k : ℝ) ≤ toReal (oscBankSum exactOps p i) ∧ toReal (oscBankSum exactOps p i) ≤ k := by
  rw [toReal_oscBankSum]
  constructor
  · simpa using List.card_nsmul_le_sum ((List.finRange k).map fun j => Real.cos (toReal p[j])) (-1)
      (by simp [Real.neg_one_le_cos])
  · simpa using List.sum_le_card_nsmul ((List.finRange k).map fun j => Real.cos (toReal p[j])) 1
      (by simp [Real.cos_le_one])

/-- Settles O29: SAW completes, so each lane is one smoother step and one oscillator step. -/
theorem sawPhasesStayInHalfTurn : Obligations.SawPhasesStayInHalfTurn := by
  refine ⟨fun s t v rd hs hw he j => ?_, fun k p i => ⟨toReal_oscBankSum p i, oscBankSum_range p i⟩⟩
  have hnum : s.num = exactOps := congrArg numOps hs
  rw [exec_saw_exact hs] at he
  cases he
  obtain ⟨hphase, hinc, htinc⟩ := hw j
  rw [effect_saw_saw, hnum, sawNext_phase]
  have hinc' : inHalfTurn (sawNext exactOps (sawCutoff exactOps s.cfg v s.n) (s.saw v)).inc[j] := by
    rw [sawNext_inc]
    exact inHalfTurn_ema hinc htinc
  exact ⟨inHalfTurn_oscStep hphase hinc', hinc', (oscStep_toReal _ _).2.2⟩

end Sys2Proof.Machine

/-! The bandpass and the crossover: the bandpass formulas, what XOV writes, the range of its result, and the
bounds of the peak trackers and gains over the real numbers (41_bandpass_crossover.md). -/

namespace Sys2Proof.Machine

/-! ## The bandpass step -/

/-- Settles O18: `lpf`, `hpf`, `peakStep` and `ema` are the formulas of R155, in its order. -/
theorem bandpassStepFormulas : Obligations.BandpassStepFormulas := fun _ _ _ _ _ _ => rfl

section
variable (o : NumOps) (decay cl ch : NumVal) (b : Bandpass) (x : NumVal)

/-- The peak follows the magnitude of the band's filtered signal (41_bandpass_crossover.md R155). -/
theorem bpStep_max : (bpStep o decay cl ch b x).1.max =
    peakStep o decay (o.abs (hpf o b.hi (lpf o b.lo x cl) ch).2) b.max := rfl

/-- The gain moves toward 0.7 over the new peak (41_bandpass_crossover.md R155). -/
theorem bpStep_mul : (bpStep o decay cl ch b x).1.mul =
    ema o b.mul (o.div (o.ofDec (7/10)) (bpStep o decay cl ch b x).1.max) := rfl

end

/-! ## What XOV writes -/

theorem effect_xov_xov (c : Channel) (rd rs : Reg) (s : State) :
    (effect (.xov c rd rs) s).xov c = (xoverStep s.num s.cfg (s.xov c) (s.reg rs)).1 := by
  simp [effect]

theorem effect_xov_reg (c : Channel) (rd rs : Reg) (s : State) :
    (effect (.xov c rd rs) s).reg rd = (xoverStep s.num s.cfg (s.xov c) (s.reg rs)).2 := by
  simp [effect]

/-- Settles O19: the clamped sum and the twelve elements of the channel are all that XOV writes, so they decide
between the effect and the fault. -/
theorem xovStepsItsChannel : Obligations.XovStepsItsChannel := by
  intro s c rd rs o x b p0 p1 p2 y after
  refine ⟨fun hfin => ?_, fun ⟨v, hv, hnon⟩ => ?_⟩
  · have hxov : exec (.xov c rd rs) s = .next (effect (.xov c rd rs) s) := exec_of_finite (by simp) hfin
    constructor
    all_goals
      rintro rfl
      exact hxov
  · have hw : v ∈ written (.xov c rd rs) s := hv
    rw [exec_of_nonFinite hw hnon, raise_word]
    rfl

/-! ## The range of the result -/

/-- Both spellings of 1 and of -1 are the rationals they name, and rationals compare as rationals: in the exact
domain and in binary64 (log entries 3, 4, 18). -/
theorem unit_literals {o : NumOps} (h : o = exactOps ∨ o = binary64Ops) :
    (o.ofDec 1 = .fin 1 ∧ minusOne o = .fin (-1)) ∧ (o.ofNat 1 = .fin 1 ∧ natMinusOne o = .fin (-1)) ∧
      ∀ p q : Rat, o.lt (.fin p) (.fin q) = decide (p < q) := by
  rcases h with rfl | rfl
  · exact ⟨⟨rfl, rfl⟩, ⟨rfl, rfl⟩, exactOps_lt_fin⟩
  · have hone : round64 1 = .fin 1 := by decide +kernel
    have hneg : neg64 (round64 1) = .fin (-1) := congrArg neg64 hone
    exact ⟨⟨hone, hneg⟩, ⟨hone, hneg⟩, fun _ _ => rfl⟩

/-- The clamp that XOV ends with answers a number of `[-1, 1]`, and the clamp of CLAMP changes nothing more
(40_primitives.md R128, R133). -/
theorem clamp_unit_range {o : NumOps} (h : o = exactOps ∨ o = binary64Ops) (x : NumVal) :
    let y := clamp o x (minusOne o) (o.ofDec 1)
    o.lt y (minusOne o) = false ∧ o.lt (o.ofDec 1) y = false ∧
      clamp o y (natMinusOne o) (o.ofNat 1) = y := by
  obtain ⟨⟨hdec, hminus⟩, ⟨hnat, hnatMinus⟩, hlt⟩ := unit_literals h
  rw [hdec, hminus, hnat, hnatMinus]
  refine clamp_range x ?_ ?_ ?_ <;> simp [hlt]

/-- An op that completes had its effect, every value it wrote being finite: a fault would leave `RUN = FAULT`
(60_exceptions.md R291, R301). -/
theorem effect_of_run {i : Instr} {s t : State} (h : exec i s = .next t) (hrun : t.run = .run) :
    t = effect i s ∧ ∀ v ∈ written i s, v.isFinite = true := by
  rcases exec_cases i s with ⟨hfin, he⟩ | ⟨-, he⟩ | ⟨rs, -, -, he⟩ <;> rw [h] at he <;> cases he
  · exact ⟨rfl, hfin⟩
  · cases hrun
  · cases hrun

/-- The result of a crossover step is clamped (41_bandpass_crossover.md R156). -/
theorem xoverStep_clamped (o : NumOps) (c : Cfg) (b : Bands Bandpass) (x : NumVal) :
    ∃ sum, (xoverStep o c b x).2 = clamp o sum (minusOne o) (o.ofDec 1) := ⟨_, rfl⟩

/-- Settles O20: XOV leaves the clamp of its sum, which CLAMP, writing the same literals, keeps. -/
theorem xovResultInRange : Obligations.XovResultInRange := by
  intro s t c rd rs hd _ he hrun
  obtain ⟨ht, hfin⟩ := effect_of_run he hrun
  have hnum : t.num = s.num := by rw [ht, State.num, effect_cfg, State.num]
  have hreg : t.reg rd = (xoverStep s.num s.cfg (s.xov c) (s.reg rs)).2 := by rw [ht, effect_xov_reg]
  have hregfin : (t.reg rd).isFinite = true := by
    rw [hreg]
    exact hfin _ (by simp [written])
  obtain ⟨sum, hsum⟩ := xoverStep_clamped s.num s.cfg (s.xov c) (s.reg rs)
  obtain ⟨hlo, hhi, hkeep⟩ :=
    clamp_unit_range (o := s.num) (hd.imp (congrArg numOps) (congrArg numOps)) sum
  rw [← hsum, ← hreg] at hlo hhi hkeep
  refine ⟨hlo, hhi, fun hexact => ?_, ?_⟩
  · have hexactOps : s.num = exactOps := congrArg numOps hexact
    rw [hexactOps, exactOps_lt_false] at hlo hhi
    simpa [minusOne] using And.intro hlo hhi
  · rw [← hnum] at hkeep
    rw [exec_clamp_of_eq hkeep hregfin, setReg_reg]
    rfl

/-! ## The bounds of the peak trackers and gains -/

/-- One step of the peak tracker in the exact domain (41_bandpass_crossover.md R152). -/
theorem toReal_peakStep (decay a m : NumVal) : toReal (peakStep exactOps decay a m) =
    if toReal m < toReal a then toReal a
    else if 3/10 < toReal m then toReal m * toReal decay else toReal m := by
  have hfloor : toReal (exactOps.ofDec (3/10)) = 3/10 := by norm_num
  simp only [peakStep, gt, exactOps_lt_iff, hfloor]
  split
  · rfl
  · split
    · exact toReal_mul _ _
    · rfl

/-- A peak falls only from above 0.3, by one factor (41_bandpass_crossover.md R154). -/
theorem peakStep_bound {decay m : NumVal} (hd : 0 < toReal decay) (a : NumVal)
    (hm : 3/10 * toReal decay ≤ toReal m) :
    3/10 * toReal decay ≤ toReal (peakStep exactOps decay a m) := by
  rw [toReal_peakStep]
  split
  · next hjump => exact hm.trans hjump.le
  · split
    · next habove => exact mul_le_mul_of_nonneg_right habove.le hd.le
    · exact hm

/-- A gain moves part of the way toward 0.7 over a peak, which the peak's bound limits
(41_bandpass_crossover.md R154). -/
theorem gainStep_bound {r : ℝ} (hr : 0 < r) {mul max : NumVal} (hmax : r ≤ toReal max)
    (hmul0 : 0 ≤ toReal mul) (hmul1 : toReal mul ≤ 7/10 / r) :
    let mul' := ema exactOps mul (exactOps.div (exactOps.ofDec (7/10)) max)
    0 ≤ toReal mul' ∧ toReal mul' ≤ 7/10 / r := by
  intro mul'
  have hpos : 0 < toReal max := hr.trans_le hmax
  have htarget : toReal (exactOps.div (exactOps.ofDec (7/10)) max) = 7/10 / toReal max := by
    rw [toReal_div _ _ hpos.ne', toReal_ofDec]
    norm_num
  have hupper : 7/10 / toReal max ≤ 7/10 / r := by gcongr
  have hlower : 0 ≤ 7/10 / toReal max := by positivity
  rw [toReal_ema, htarget]
  constructor <;> linarith

/-- One sample keeps the bounds of a band, whatever the input and the coefficients (41_bandpass_crossover.md R154). -/
theorem bpStep_tracked {decay : NumVal} (hd : 0 < toReal decay) (cl ch x : NumVal) {b : Bandpass}
    (h : b.tracked (toReal decay)) : (bpStep exactOps decay cl ch b x).1.tracked (toReal decay) := by
  obtain ⟨hmax, hmul0, hmul1⟩ := h
  have hmax' : 3/10 * toReal decay ≤ toReal (bpStep exactOps decay cl ch b x).1.max := by
    rw [bpStep_max]
    exact peakStep_bound hd _ hmax
  refine ⟨hmax', ?_⟩
  rw [bpStep_mul]
  exact gainStep_bound (by positivity) hmax' hmul0 hmul1

/-- The reset values meet the bounds (10_state.md R36). -/
theorem reset_tracked {r : ℝ} (h0 : 0 < r) (h1 : r < 1) :
    (Bandpass.reset (exactOps.ofNat 0) (exactOps.ofDec (3/10))).tracked r := by
  have hzero : toReal (exactOps.ofNat 0) = 0 := by simp
  have hfloor : toReal (exactOps.ofDec (3/10)) = 3/10 := by norm_num
  simp only [Bandpass.tracked, Bandpass.reset, hzero, hfloor]
  exact ⟨by linarith, le_rfl, by positivity⟩

theorem hostReset_xov (s : State) (c : Channel) :
    (hostReset s).xov c = crossoverReset (s.num.ofNat 0) (s.num.ofDec (3/10)) := by
  cases c <;> rfl

theorem hostReset_peaksOk (s : State) (h : s.peaksOk) : (hostReset s).peaksOk := by
  obtain ⟨hexact, hd0, hd1, -⟩ := h
  have hnum : s.num = exactOps := congrArg numOps hexact
  have hband := reset_tracked hd0 hd1
  refine ⟨hexact, hd0, hd1, fun c => ?_⟩
  rw [hostReset_xov, hnum]
  exact ⟨hband, hband, hband⟩

/-- Only XOV changes a bandpass, by one `bpStep` in each band of its channel (41_bandpass_crossover.md R157). -/
theorem effect_peaksOk (i : Instr) (s : State) (h : s.peaksOk) : (effect i s).peaksOk := by
  obtain ⟨hexact, hd0, hd1, htracked⟩ := h
  have hnum : s.num = exactOps := congrArg numOps hexact
  rw [State.peaksOk, effect_cfg]
  refine ⟨hexact, hd0, hd1, fun c => ?_⟩
  obtain ⟨hsub, hmid, hhigh⟩ := htracked c
  by_cases hne : (effect i s).xov c = s.xov c
  · rw [hne]
    exact htracked c
  · obtain ⟨rd, rs, rfl⟩ := xov_change (effect_eq_footprint i s) hne
    rw [effect_xov_xov, hnum]
    exact ⟨bpStep_tracked hd0 _ _ _ hsub, bpStep_tracked hd0 _ _ _ hmid, bpStep_tracked hd0 _ _ _ hhigh⟩

/-- Settles O21: RESET and the effect of every op keep the bounds, which read only the configuration and the
bandpasses. -/
theorem peakBoundsKept : Obligations.PeakBoundsKept :=
  step_keeps_of_effect State.peaksOk (fun _ _ _ _ _ h => h) effect_peaksOk hostReset_peaksOk

end Sys2Proof.Machine

/-! The drum voice: TRIG, DRUM while Idle, one Active sample formula by formula, and the length of a triggered drum
over the real numbers (42_drum_voice.md). -/

namespace Sys2Proof.Machine

/-! ## An op one of whose values is not finite -/

/-- `exec_of_nonFinite` with the fault registers written out (60_exceptions.md R291, R301). -/
theorem exec_of_written_nonFinite {i : Instr} {s : State} (h : ∃ v ∈ written i s, v.isFinite = false) :
    exec i s = .next { s with fault := 5, finfo := encode i, run := .fault } := by
  obtain ⟨v, hv, hnon⟩ := h
  rw [exec_of_nonFinite hv hnon, raise_word]
  rfl

/-! ## TRIG -/

/-- Settles O22: the elements of the triggered drum are all that TRIG writes, so they decide between the effect
and the fault. -/
theorem trigStartsDrum : Obligations.TrigStartsDrum := by
  intro s o c d
  have hword : encode .trig = 0x2000 := by decide
  refine ⟨fun hfin => exec_of_finite (by simp) hfin, fun hnon => ?_⟩
  rw [exec_of_written_nonFinite (i := .trig) hnon, hword]

/-! ## DRUM while Idle and while Active -/

section
variable {s : State} {rs : Reg}

theorem written_drum_idle (rd : Reg) (hoff : s.drum.on = false) : written (.drum rd rs) s = [s.reg rs] := by
  simp [written, hoff]

theorem effect_drum_idle (rd : Reg) (hoff : s.drum.on = false) :
    effect (.drum rd rs) s = (s.setReg rd (s.reg rs)).advance := by
  simp [effect, hoff]

theorem written_drum_active (rd : Reg) (hon : s.drum.on = true) : written (.drum rd rs) s =
    drumBlend s.num s.drum (s.reg rs) :: drumWrites s.num s.cfg.drum s.drum := by
  simp [written, hon]

theorem effect_drum_active (rd : Reg) (hon : s.drum.on = true) : effect (.drum rd rs) s =
    ({ s with drum := drumNext s.num s.cfg.drum s.drum }.setReg rd
      (drumBlend s.num s.drum (s.reg rs))).advance := by
  simp [effect, hon]

end

/-- Settles O23: the one value an Idle DRUM writes is the finite source register. -/
theorem drumIdlePassesThrough : Obligations.DrumIdlePassesThrough := by
  intro s rd rs hoff hfin
  have hwritten : ∀ v ∈ written (.drum rd rs) s, v.isFinite = true := by
    simpa [written_drum_idle rd hoff] using hfin
  rw [exec_of_finite (by simp) hwritten, effect_drum_idle rd hoff]
  rfl

/-! ## One Active sample -/

section
variable (o : NumOps) (c : DrumCfg) {d : Drum}

/-- The volume falls in the second half of the duration only (42_drum_voice.md R178). -/
theorem drumVol_eq : drumVol o c d =
    if c.len ≤ 2 * d.i then floorZero o (o.sub d.vol (o.mul (o.ofDec 2) d.vdec)) else d.vol := by
  simp [drumVol, drumReleasing]

/-- An Active sample leaves the drum on unless it was the last one (42_drum_voice.md R177). -/
theorem drumNext_on (hon : d.on = true) : (drumNext o c d).on = decide (d.i + 1 ≠ c.len) := by
  simp [drumNext, drumOnAfter, hon]

theorem drumNext_i : (drumNext o c d).i = d.i + 1 := rfl

/-- An Active sample with a wrap takes a turn off the phase, weakens the FM and resets the slope of the sweep
(42_drum_voice.md R176). -/
theorem drumNext_of_wrap (hon : d.on = true) (hw : drumWraps o c d = true) : drumNext o c d =
    ⟨decide (d.i + 1 ≠ c.len), d.i + 1, o.sub (drumPhase o c d) (twoPi o), drumFreq o c d, drumVol o c d, d.vdec,
      o.mul (drumFreq o c d) c.fdecK, floorZero o (o.sub d.fm (o.ofDec 1))⟩ := by
  rw [← drumNext_on o c hon]
  simp [drumNext, hw]

theorem drumNext_of_noWrap (hon : d.on = true) (hw : drumWraps o c d = false) : drumNext o c d =
    ⟨decide (d.i + 1 ≠ c.len), d.i + 1, drumPhase o c d, drumFreq o c d, drumVol o c d, d.vdec, d.fdec, d.fm⟩ := by
  rw [← drumNext_on o c hon]
  simp [drumNext, hw]

/-- The writes of one Active sample, its two conditions as propositions (42_drum_voice.md R173). -/
theorem drumWrites_eq : drumWrites o c d =
    (if c.len ≤ 2 * d.i then [(drumNext o c d).vol] else []) ++ [drumPhase o c d, (drumNext o c d).freq] ++
      (if o.lt (twoPi o) (drumPhase o c d) = true then
        [(drumNext o c d).phase, (drumNext o c d).fm, (drumNext o c d).fdec] else []) := by
  simp only [drumWrites, drumReleasing, decide_eq_true_eq]
  rfl

end

/-- Settles O24: the drum after the op is `drumNext`, with or without a wrap, and its writes and the blend are all
that the op writes. -/
theorem drumActiveSample : Obligations.DrumActiveSample := by
  intro s rd rs hon o c d x out v vol g p freq tau m d' writes
  have hvol : drumVol o c d = vol := drumVol_eq o c
  have hnext : drumNext o c d = d' := by
    by_cases hw : o.lt tau p = true
    · have hd' : d' = _ := if_pos hw
      rw [hd', drumNext_of_wrap o c hon hw, hvol]
      rfl
    · have hd' : d' = _ := if_neg hw
      rw [hd', drumNext_of_noWrap o c hon (Bool.eq_false_iff.mpr hw), hvol]
      rfl
  have hwrites : writes = drumWrites o c d ++ [out] := by
    rw [drumWrites_eq, hnext]
    rfl
  have hmem : ∀ v, v ∈ written (.drum rd rs) s ↔ v ∈ writes := by
    intro v
    rw [hwrites, written_drum_active rd hon, List.mem_append, List.mem_singleton, List.mem_cons, or_comm]
    rfl
  refine ⟨fun hfin => ?_, fun ⟨v, hv, hnon⟩ => ?_⟩
  · rw [exec_of_finite (by simp) fun v hv => hfin v ((hmem v).mp hv), effect_drum_active rd hon, ← hnext]
    rfl
  · exact exec_of_written_nonFinite ⟨v, (hmem v).mpr hv, hnon⟩

/-! ## The length of a triggered drum over the real numbers -/

theorem floorZero_exact_finite {v : NumVal} (hv : v.isFinite = true) : (floorZero exactOps v).isFinite = true := by
  unfold floorZero
  split
  · rfl
  · exact hv

theorem drumFreq_exact_finite (c : DrumCfg) (d : Drum) : (drumFreq exactOps c d).isFinite = true := by
  unfold drumFreq
  split
  · exact exactOps_sub_finite _ _
  · exact exactOps_mul_finite _ _

/-- Whatever the elements of an Active drum are, what its sample writes is finite: each value is the result of an
operation, the volume being written in the second half only. -/
theorem drumWrites_exact_finite (c : DrumCfg) {d : Drum} (hon : d.on = true) :
    ∀ v ∈ drumWrites exactOps c d, v.isFinite = true := by
  have hvol : c.len ≤ 2 * d.i → (drumNext exactOps c d).vol.isFinite = true := fun hrel => by
    show (drumVol exactOps c d).isFinite = true
    rw [drumVol_eq, if_pos hrel]
    exact floorZero_exact_finite (exactOps_sub_finite _ _)
  have hphase : (drumPhase exactOps c d).isFinite = true := exactOps_add_finite _ _
  have hwrap : drumWraps exactOps c d = true → ∀ v ∈ [(drumNext exactOps c d).phase,
      (drumNext exactOps c d).fm, (drumNext exactOps c d).fdec], v.isFinite = true := fun hw => by
    rw [drumNext_of_wrap exactOps c hon hw]
    simp [floorZero_exact_finite]
  rw [drumWrites_eq]
  simp only [List.forall_mem_append, List.forall_mem_cons]
  refine ⟨⟨?_, hphase, drumFreq_exact_finite c d, by simp⟩, ?_⟩
  · split
    · next hrel => simpa using hvol hrel
    · simp
  · split
    · next hw => exact hwrap hw
    · simp

/-- A DRUM op of the exact domain completes when its source register is finite. -/
theorem exec_drum_exact {s : State} {rs : Reg} (rd : Reg) (hs : s.cfg.num = .exact)
    (hfin : (s.reg rs).isFinite = true) : exec (.drum rd rs) s = .next (effect (.drum rd rs) s) := by
  have hnum : s.num = exactOps := congrArg numOps hs
  refine exec_of_finite (by simp) ?_
  cases hon : s.drum.on
  · simpa [written_drum_idle rd hon] using hfin
  · rw [written_drum_active rd hon, hnum, List.forall_mem_cons]
    exact ⟨exactOps_add_finite _ _, drumWrites_exact_finite _ hon⟩

/-- A state of the exact domain `k` DRUM ops from register `rs` after a trigger of a drum of length `len`
(42_drum_voice.md R177). -/
def State.drumAge (rs : Reg) (len k : Nat) (s : State) : Prop :=
  s.cfg.num = .exact ∧ s.cfg.drum.len = len ∧ (s.reg rs).isFinite = true ∧
    (s.drum.on = true ↔ k < len) ∧ s.drum.i = min k len

/-- A register that receives a finite number leaves every finite register finite. -/
theorem reg_setReg_finite {s : State} {r q : Reg} {v : NumVal} (hv : v.isFinite = true)
    (hq : (s.reg q).isFinite = true) : ((s.setReg r v).reg q).isFinite = true := by
  by_cases h : q = r
  · rw [h, reg_setReg_self]
    exact hv
  · rw [reg_setReg_other s r q v h]
    exact hq

/-- One DRUM op: an Active drum counts up and goes Idle at its length, an Idle one stays as it is. -/
theorem effect_drum_drumAge {s : State} {rs : Reg} {len k : Nat} (rd : Reg) (h : s.drumAge rs len k) :
    (effect (.drum rd rs) s).drumAge rs len (k + 1) := by
  obtain ⟨hexact, hlen, hfin, hon, hi⟩ := h
  have hnum : s.num = exactOps := congrArg numOps hexact
  rw [State.drumAge, effect_cfg]
  refine ⟨hexact, hlen, ?_⟩
  by_cases hk : k < len
  · have hactive : s.drum.on = true := hon.mpr hk
    have hik : s.drum.i = k := by omega
    rw [effect_drum_active rd hactive]
    simp only [reg_advance, advance_drum, setReg_drum, drumNext_on _ _ hactive, drumNext_i, decide_eq_true_iff,
      hik, hlen]
    refine ⟨reg_setReg_finite ?_ hfin, by omega, by omega⟩
    rw [hnum]
    exact exactOps_add_finite _ _
  · have hidle : s.drum.on = false := Bool.eq_false_iff.mpr (mt hon.mp hk)
    rw [effect_drum_idle rd hidle]
    simp only [reg_advance, advance_drum, setReg_drum, hidle, hi]
    exact ⟨reg_setReg_finite hfin hfin, iff_of_false (by simp) (by omega), by omega⟩

/-- `k` DRUM ops make the drum `k` ops older. -/
theorem execList_drum_drumAge {rs : Reg} {len : Nat} (rd : Reg) (k : Nat) {j : Nat} {s : State}
    (h : s.drumAge rs len j) :
    ∃ t, execList (List.replicate k (.drum rd rs)) s = .next t ∧ t.drumAge rs len (j + k) := by
  induction k generalizing j s with
  | zero => exact ⟨s, rfl, h⟩
  | succ k ih =>
    have ⟨hexact, _, hfin, _⟩ := h
    obtain ⟨t, ht, hage⟩ := ih (effect_drum_drumAge rd h)
    refine ⟨t, ?_, by rwa [Nat.add_right_comm] at hage⟩
    rw [List.replicate_succ, execList, exec_drum_exact rd hexact hfin]
    exact ht

/-- Settles O25: a drum just triggered has age 0, and `k` ops bring it to age `k`. -/
theorem drumLastsItsLength : Obligations.DrumLastsItsLength := by
  intro s rd rs k hexact hon hi hlen hfin
  have hage : s.drumAge rs s.cfg.drum.len 0 := ⟨hexact, rfl, hfin, by simp [hon, hlen], by simp [hi]⟩
  obtain ⟨t, ht, -, hcfg, -, hon', hi'⟩ := execList_drum_drumAge rd k hage
  rw [Nat.zero_add] at hon' hi'
  exact ⟨t, ht, hon', hi'⟩

end Sys2Proof.Machine

/-! The chorus-saw voice: the targets of TGT, one SAW sample formula by formula, and the silence of an untargeted
voice over the real numbers (43_chorus_saw_voice.md). -/

namespace Sys2Proof.Machine

/-! ## TGT -/

section
variable (v : Voice) (rd rs : Reg) (s : State)

theorem written_tgt : written (.tgt v rd rs) s =
    s.reg rs :: (partialTargets s.num (s.num.mul (sawCfg s.cfg v).fund (s.reg rd))).toList := rfl

theorem effect_tgt : effect (.tgt v rd rs) s = (s.setSaw v { s.saw v with
    tinc := partialTargets s.num (s.num.mul (sawCfg s.cfg v).fund (s.reg rd))
    tvol := s.reg rs }).advance := rfl

end

/-- Settles O26: the target volume and the five partial targets are all that TGT writes, so they decide between
the effect and the fault. -/
theorem tgtSetsTargets : Obligations.TgtSetsTargets := by
  intro s v rd rs o f m0 m1 m2 m3 m4 tinc
  have htinc : partialTargets s.num (s.num.mul (sawCfg s.cfg v).fund (s.reg rd)) = tinc := by
    rw [partialTargets_eq]
    cases v <;> rfl
  have hwritten : written (.tgt v rd rs) s = s.reg rs :: tinc.toList := by rw [written_tgt, htinc]
  rw [← hwritten]
  refine ⟨fun hfin => ?_, exec_of_written_nonFinite⟩
  rw [exec_of_finite (by simp) hfin, effect_tgt, htinc]
  constructor
  all_goals
    rintro rfl
    rfl

/-! ## What SAW writes -/

section
variable (v : Voice) (rd : Reg) (s : State)

theorem effect_saw : effect (.saw v rd) s =
    ((s.setSaw v (sawNext s.num (sawCutoff s.num s.cfg v s.n) (s.saw v))).setReg rd
      (sawNext s.num (sawCutoff s.num s.cfg v s.n) (s.saw v)).xlo).advance := rfl

/-- The value SAW writes to its register is the second filter's, an element of the voice
(43_chorus_saw_voice.md R193). -/
theorem mem_written_saw_iff {x : NumVal} : x ∈ written (.saw v rd) s ↔
    x ∈ sawWrites (sawNext s.num (sawCutoff s.num s.cfg v s.n) (s.saw v)) := by
  rw [written, List.mem_cons, or_iff_right_of_imp]
  rintro rfl
  simp [sawWrites]

end

/-- Settles O27: the formulas give the voice `sawNext` at the cutoff of `n`, and its elements other than the
targets are all that SAW writes. -/
theorem sawSample : Obligations.SawSample := by
  intro s v rd o w k inc vol sum phase shaped c lo xlo w' writes
  have hcfg : sawCfg s.cfg v = k := by cases v <;> rfl
  have hcutoff : sawCutoff s.num s.cfg v s.n = c := by
    rw [sawCutoff, hcfg]
    rfl
  have hsum : oscBankSum o w.phase inc = sum := oscBankSum_five o w.phase inc
  have hnext : sawNext s.num (sawCutoff s.num s.cfg v s.n) (s.saw v) = w' := by
    rw [hcutoff]
    show (⟨phase, inc, w.tinc, vol, w.tvol, _, _⟩ : Saw) = w'
    rw [hsum]
    rfl
  have hmem : ∀ x, x ∈ written (.saw v rd) s ↔ x ∈ writes := fun x => by
    rw [mem_written_saw_iff, hnext]
    rfl
  refine ⟨fun hfin => ?_, fun ⟨x, hx, hnon⟩ => exec_of_written_nonFinite ⟨x, (hmem x).mpr hx, hnon⟩⟩
  rw [exec_of_finite (by simp) fun x hx => hfin x ((hmem x).mp hx), effect_saw, hnext]
  constructor
  all_goals
    rintro rfl
    rfl

/-! ## The silence of an untargeted voice -/

section
variable (o : NumOps) (k : NumVal) (w : Saw)

theorem sawNext_vol : (sawNext o k w).vol = ema o w.vol w.tvol := rfl

theorem sawNext_tvol : (sawNext o k w).tvol = w.tvol := rfl

/-- The first filter takes the shaped sum of the old phases at the new volume (43_chorus_saw_voice.md R193). -/
theorem sawNext_lo : (sawNext o k w).lo =
    lpf o w.lo (sawShape o (oscBankSum o w.phase (sawNext o k w).inc) (sawNext o k w).vol) k := rfl

theorem sawNext_xlo : (sawNext o k w).xlo = lpf o w.xlo (sawNext o k w).lo k := rfl

end

/-- The waveshaper scales by the volume (43_chorus_saw_voice.md R195). -/
theorem toReal_sawShape (sum vol : NumVal) :
    toReal (sawShape exactOps sum vol) = toReal sum * |toReal sum| * toReal vol := by
  simp [sawShape]

/-- Volume, target volume and both filters stand for zero (43_chorus_saw_voice.md R198). -/
def Saw.silent (w : Saw) : Prop :=
  toReal w.vol = 0 ∧ toReal w.tvol = 0 ∧ toReal w.lo = 0 ∧ toReal w.xlo = 0

/-- The smoother holds the volume at zero, so the shaped sum is zero whatever the phases are, and both filters stay
at zero whatever the cutoff is. -/
theorem sawNext_silent (k : NumVal) {w : Saw} (h : w.silent) : (sawNext exactOps k w).silent := by
  obtain ⟨hvol, htvol, hlo, hxlo⟩ := h
  have hvol' : toReal (sawNext exactOps k w).vol = 0 := by simp [sawNext_vol, toReal_ema, hvol, htvol]
  have hlo' : toReal (sawNext exactOps k w).lo = 0 := by
    simp [sawNext_lo, toReal_lpf, toReal_sawShape, hvol', hlo]
  have hxlo' : toReal (sawNext exactOps k w).xlo = 0 := by simp [sawNext_xlo, toReal_lpf, hlo', hxlo]
  exact ⟨hvol', htvol, hlo', hxlo'⟩

/-- Settles O28: SAW completes, its voice after it is the silent `sawNext`, and its register holds the second
filter's zero. -/
theorem sawSilentUntilTargeted : Obligations.SawSilentUntilTargeted := by
  intro s v rd hs hvol htvol hlo hxlo
  have hnum : s.num = exactOps := congrArg numOps hs
  obtain ⟨hvol', -, hlo', hxlo'⟩ :=
    sawNext_silent (sawCutoff exactOps s.cfg v s.n) ⟨hvol, htvol, hlo, hxlo⟩
  refine ⟨effect (.saw v rd) s, exec_saw_exact hs v rd, ?_⟩
  rw [effect_saw_saw, hnum, effect_saw, hnum]
  refine ⟨by simpa using hxlo', hvol', sawNext_tvol _ _ _, hlo', hxlo', fun r hr => ?_, fun u hu => ?_⟩
  · simp [hr]
  · simpa using saw_setSaw_other s v u _ hu

end Sys2Proof.Machine

/-! The hi-hat: the volume ARM writes, the draws of one lane, one HAT sample formula by formula, and the silence of
a hi-hat of volume 0 over the real numbers (44_hihat_voice.md). -/

namespace Sys2Proof.Machine

/-! ## ARM -/

/-- Settles O31: the volume of the configuration is the one value ARM writes. -/
theorem armSetsVolume : Obligations.ArmSetsVolume := by
  intro s hfin
  have hwritten : ∀ v ∈ written .arm s, v.isFinite = true := by simpa [written, hatArmWrites] using hfin
  exact exec_of_finite (by simp) hwritten

/-! ## One lane -/

section
variable {o : NumOps} {c : HatCfg} {rng : RngStream} {p i : NumVal} {k : Nat}

/-- A lane asks for a draw when it wrapped or its decayed increment is below the floor, both strictly
(44_hihat_voice.md R214). -/
theorem hatAsks_iff : hatAsks o c p i = true ↔
    o.lt o.pi (o.add p i) = true ∨ o.lt (o.mul i c.incDecay) c.incFloor = true :=
  Bool.or_eq_true_iff

theorem hatLane_of_not_asks (h : hatAsks o c p i = false) : hatLane o c rng p i k =
    ⟨(oscStep o p i).y, (oscStep o p i).phase, hatDecayed o c i, k⟩ := by
  simp [hatLane, h]

theorem hatLane_of_miss (h : hatAsks o c p i = true) (hr : rngAt rng k % 10 ≠ 0) : hatLane o c rng p i k =
    ⟨(oscStep o p i).y, (oscStep o p i).phase, hatDecayed o c i, k + 1⟩ := by
  simp [hatLane, h, hr]

theorem hatLane_of_hit (h : hatAsks o c p i = true) (hr : rngAt rng k % 10 = 0) : hatLane o c rng p i k =
    ⟨(oscStep o p i).y, (oscStep o p i).phase, hatPitch o c (rngAt rng (k + 1)), k + 2⟩ := by
  simp [hatLane, h, hr]

/-- Whatever it draws, a lane's oscillator makes one step, and its increment is the decayed one or a pitch that a
hit chose (44_hihat_voice.md R214, R215). -/
theorem hatLane_cases (o : NumOps) (c : HatCfg) (rng : RngStream) (p i : NumVal) (k : Nat) :
    (hatLane o c rng p i k).y = (oscStep o p i).y ∧
    (hatLane o c rng p i k).phase = (oscStep o p i).phase ∧
    ((hatLane o c rng p i k).inc = hatDecayed o c i ∨ ∃ r, (hatLane o c rng p i k).inc = hatPitch o c r) := by
  cases h : hatAsks o c p i
  · rw [hatLane_of_not_asks h]
    exact ⟨rfl, rfl, .inl rfl⟩
  · by_cases hr : rngAt rng k % 10 = 0
    · rw [hatLane_of_hit h hr]
      exact ⟨rfl, rfl, .inr ⟨_, rfl⟩⟩
    · rw [hatLane_of_miss h hr]
      exact ⟨rfl, rfl, .inl rfl⟩

end

/-- Settles O32: the lane that does not ask, the one that asks and misses, and the one that hits. -/
theorem hatLaneDraws : Obligations.HatLaneDraws := by
  intro o c rng phase inc idx p wrapped dec l
  obtain ⟨hy, hphase, -⟩ := hatLane_cases o c rng phase inc idx
  refine ⟨hy, hphase, fun ⟨hwrap, hfloor⟩ => ?_, fun hasks => ⟨fun hmiss => ?_, fun hhit => ?_⟩⟩
  · have hquiet : hatAsks o c phase inc = false := Bool.or_eq_false_iff.mpr ⟨hwrap, hfloor⟩
    have hl : l = _ := hatLane_of_not_asks hquiet
    rw [hl]
    exact ⟨rfl, rfl⟩
  · have hl : l = _ := hatLane_of_miss (hatAsks_iff.mpr hasks) hmiss
    rw [hl]
    exact ⟨rfl, rfl⟩
  · have hl : l = _ := hatLane_of_hit (hatAsks_iff.mpr hasks) hhit
    rw [hl]
    exact ⟨divTimes_eq_iterate _ _ _ _, rfl⟩

/-! ## What HAT writes -/

section
variable (rd : Reg) (s : State)

theorem effect_hat : effect (.hat rd) s =
    let r := hatCompute s.num s.cfg.hat s.rng s.hat s.rngIdx
    ({ s with hat := hatNext s.num s.hat r, rngIdx := r.lanes[3].idx }.setReg rd
      (s.num.mul r.z s.hat.vol)).advance := rfl

theorem written_hat : written (.hat rd) s =
    let r := hatCompute s.num s.cfg.hat s.rng s.hat s.rngIdx
    s.num.mul r.z s.hat.vol :: hatWrites s.num s.cfg.hat s.hat (hatNext s.num s.hat r) r.y := rfl

end

/-- The hi-hat after one op, its four lanes written out (44_hihat_voice.md R213). -/
theorem hatNext_eq (o : NumOps) (h : Hat) (r : HatOut) : hatNext o h r =
    ⟨#v[r.lanes[0].phase, r.lanes[1].phase, r.lanes[2].phase, r.lanes[3].phase],
      #v[r.lanes[0].inc, r.lanes[1].inc, r.lanes[2].inc, r.lanes[3].inc],
      memWrite (o.ofNat 0) h.comb h.cw r.y, nextIndex h.cw 128, r.hp, o.mul h.vol (o.ofDec (9995/10000))⟩ := rfl

theorem hatNext_phase (o : NumOps) (h : Hat) (r : HatOut) (j : Fin 4) :
    (hatNext o h r).phase[j] = r.lanes[j].phase := by
  simp [hatNext]

theorem hatNext_inc (o : NumOps) (h : Hat) (r : HatOut) (j : Fin 4) : (hatNext o h r).inc[j] = r.lanes[j].inc := by
  simp [hatNext]

/-- Settles O33: the formulas give the hi-hat `hatNext`, and its elements, the decayed increments and the output
are all that HAT writes. -/
theorem hatSample : Obligations.HatSample := by
  intro s rd o c h l0 l1 l2 l3 acc y hp out phase decayed inc vol writes
  have hnext : hatNext o h (hatCompute o c s.rng h s.rngIdx) =
      ⟨phase, inc, memWrite s.zero h.comb h.cw y, (h.cw + 1) % 128, hp, vol⟩ := hatNext_eq _ _ _
  have hwritten : written (.hat rd) s = out :: (phase.toList ++ decayed ++ inc.toList ++ [y, hp, vol]) := by
    rw [written_hat]
    dsimp only
    rw [hnext]
    rfl
  have hmem : ∀ x, x ∈ written (.hat rd) s ↔ x ∈ writes := fun x => by
    rw [hwritten]
    simp only [writes, List.mem_append, List.mem_cons]
    tauto
  refine ⟨fun hfin => ?_, fun ⟨x, hx, hnon⟩ => exec_of_written_nonFinite ⟨x, (hmem x).mpr hx, hnon⟩⟩
  rw [exec_of_finite (by simp) fun x hx => hfin x ((hmem x).mp hx), effect_hat]
  dsimp only
  rw [hnext]
  rfl

/-! ## HAT completes in the exact domain -/

/-- Each lane of the op is one lane step of that lane's phase and increment (44_hihat_voice.md R213). -/
theorem hatCompute_lane (o : NumOps) (c : HatCfg) (rng : RngStream) (h : Hat) (k : Nat) (j : Fin 4) :
    ∃ idx, (hatCompute o c rng h k).lanes[j] = hatLane o c rng h.phase[j] h.inc[j] idx := by
  fin_cases j <;> exact ⟨_, rfl⟩

/-- No division answers anything but a finite number; none at all leaves the base increment. -/
theorem divTimes_exact_finite (d : NumVal) (k : Nat) {f : NumVal} (hf : f.isFinite = true) :
    (divTimes exactOps d k f).isFinite = true := by
  induction k generalizing f with
  | zero => exact hf
  | succ k ih => exact ih (exactOps_div_finite _ _)

theorem hatLane_exact_finite {c : HatCfg} (hbase : c.baseInc.isFinite = true) (rng : RngStream) (p i : NumVal)
    (k : Nat) : (hatLane exactOps c rng p i k).phase.isFinite = true ∧
      (hatLane exactOps c rng p i k).inc.isFinite = true := by
  obtain ⟨-, hphase, hinc⟩ := hatLane_cases exactOps c rng p i k
  rw [hphase]
  refine ⟨oscStep_phase_exact_finite _ _, ?_⟩
  rcases hinc with hdecayed | ⟨r, hpitch⟩
  · rw [hdecayed]
    exact exactOps_mul_finite _ _
  · rw [hpitch]
    exact divTimes_exact_finite _ _ hbase

theorem hatNext_lane_exact_finite {c : HatCfg} (hbase : c.baseInc.isFinite = true) (rng : RngStream) (h : Hat)
    (k : Nat) (j : Fin 4) : (hatNext exactOps h (hatCompute exactOps c rng h k)).phase[j].isFinite = true ∧
      (hatNext exactOps h (hatCompute exactOps c rng h k)).inc[j].isFinite = true := by
  obtain ⟨idx, hl⟩ := hatCompute_lane exactOps c rng h k j
  rw [hatNext_phase, hatNext_inc, hl]
  exact hatLane_exact_finite hbase _ _ _ _

/-- A HAT op of the exact domain completes when the base increment, which a hit may write as it is, is finite. -/
theorem exec_hat_exact {s : State} (rd : Reg) (hs : s.cfg.num = .exact)
    (hbase : s.cfg.hat.baseInc.isFinite = true) : exec (.hat rd) s = .next (effect (.hat rd) s) := by
  have hnum : s.num = exactOps := congrArg numOps hs
  have hlane := hatNext_lane_exact_finite hbase s.rng s.hat s.rngIdx
  refine exec_of_finite (by simp) ?_
  rw [written_hat, hnum]
  simp only [hatWrites, List.forall_mem_cons, List.forall_mem_append, List.forall_mem_map]
  refine ⟨exactOps_mul_finite _ _, ⟨⟨?_, fun _ _ => exactOps_mul_finite _ _⟩, ?_⟩,
    exactOps_add_finite _ _, lpf_exact_finite _ _ _, exactOps_mul_finite _ _, by simp⟩
  · exact forall_mem_toList_of_lanes fun j => (hlane j).1
  · exact forall_mem_toList_of_lanes fun j => (hlane j).2

/-! ## The silence of a hi-hat of volume 0 -/

/-- Settles O34: HAT completes, and both the output and the next volume are products with the volume. -/
theorem hatSilentUnarmed : Obligations.HatSilentUnarmed := by
  intro s rd hs hbase hvol
  have hnum : s.num = exactOps := congrArg numOps hs
  refine ⟨effect (.hat rd) s, exec_hat_exact rd hs hbase, ?_⟩
  rw [effect_hat, hnum]
  constructor
  · simp [hvol]
  · simp [hatNext, hvol]

end Sys2Proof.Machine

/-! The delay line: the echo of DLY, and the impulse response of the line over the real numbers
(45_delay_line.md). -/

namespace Sys2Proof.Machine

/-! ## DLY -/

section
variable (rd rs : Reg) (s : State)

theorem written_dly : written (.dly rd rs) s = [dlyOut s.num s.dly (s.reg rs)] := rfl

theorem effect_dly : effect (.dly rd rs) s =
    ({ s with dly := dlyPush s.num s.cfg.dlLen s.dly (dlyOut s.num s.dly (s.reg rs)) }.setReg rd
      (dlyOut s.num s.dly (s.reg rs))).advance := rfl

end

/-- Settles O36: the element pushed is the one value DLY writes, so it decides between the effect and the fault;
the buffer after the op is one write at the index. -/
theorem dlyEchoes : Obligations.DlyEchoes := by
  intro s rd rs o v
  refine ⟨encode_high_byte _, fun hfin => ?_, fun hnon => ?_⟩
  · have hwritten : ∀ x ∈ written (.dly rd rs) s, x.isFinite = true := by
      rw [written_dly, List.forall_mem_singleton]
      exact hfin
    refine ⟨memWrite s.zero s.dly.buf s.dly.dw v, ?_, fun hwf => ⟨memWf_memWrite hwf _ _, fun a => ?_⟩⟩
    · rw [exec_of_finite (by simp) hwritten, effect_dly]
      rfl
    · exact memRead_memWrite hwf _ _ _
  · exact exec_of_written_nonFinite ⟨v, List.mem_singleton_self v, hnon⟩

/-! ## The impulse response over the real numbers -/

/-- What `out_new` stands for (45_delay_line.md R231). -/
theorem toReal_dlyOut (d : Dly) (x : NumVal) : toReal (dlyOut exactOps d x) =
    toReal x * (4/10) + toReal (memRead (exactOps.ofNat 0) d.buf d.dw) * (7/10) := by
  rw [dlyOut, toReal_add, toReal_mul, toReal_mul, toReal_ofDec, toReal_ofDec]
  norm_num

/-- A canonical delay line of `len` elements that, fed with zeros, gives `f j` at the `j`-th op from now, for one
round of the buffer (45_delay_line.md R231, R232). -/
def Dly.yields (len : Nat) (f : Nat → ℝ) (d : Dly) : Prop :=
  Memory.wf (exactOps.ofNat 0) d.buf ∧ d.dw < len ∧
    ∀ j < len, toReal (memRead (exactOps.ofNat 0) d.buf ((d.dw + j) % len)) * (7/10) = f j

/-- The next op adds what the line yields to its input. -/
theorem Dly.yields.next_out {len : Nat} {f : Nat → ℝ} {d : Dly} (h : d.yields len f) (x : NumVal) :
    toReal (dlyOut exactOps d x) = toReal x * (4/10) + f 0 := by
  obtain ⟨-, hdw, hf⟩ := h
  have holdest := hf 0 (Nat.zero_lt_of_lt hdw)
  rw [Nat.add_zero, Nat.mod_eq_of_lt hdw] at holdest
  rw [toReal_dlyOut, holdest]

/-- A push brings every element one op nearer, and the new one comes back attenuated after `len` ops
(45_delay_line.md R231). -/
theorem Dly.yields.push {len : Nat} {f g : Nat → ℝ} {d : Dly} (h : d.yields len f) (v : NumVal)
    (hstored : ∀ j, j + 1 < len → g j = f (j + 1)) (hnew : ∀ j, j + 1 = len → g j = toReal v * (7/10)) :
    (dlyPush exactOps len d v).yields len g := by
  obtain ⟨hwf, hdw, hf⟩ := h
  refine ⟨memWf_memWrite hwf _ _, Nat.mod_lt _ (Nat.zero_lt_of_lt hdw), fun j hj => ?_⟩
  rw [dlyPush, memRead_push v hwf hdw hj]
  by_cases hend : j + 1 = len
  · rw [if_pos hend, hnew j hend]
  · rw [if_neg hend, hf (j + 1) (by omega), hstored j (by omega)]

theorem yields_zero_of_empty {len : Nat} (hlen : 0 < len) : (⟨[], 0⟩ : Dly).yields len fun _ => 0 :=
  ⟨memWf_nil, hlen, fun _ _ => by simp⟩

/-- The response at op `t` to an impulse at op 0 (45_delay_line.md R232). -/
noncomputable def impulseResponse (len t : Nat) : ℝ := if len ∣ t then 4/10 * (7/10) ^ (t / len) else 0

@[simp] theorem impulseResponse_zero (len : Nat) : impulseResponse len 0 = 4/10 := by
  simp [impulseResponse]

/-- The response is zero until the impulse has gone round the buffer. -/
theorem impulseResponse_of_lt {len t : Nat} (h0 : 0 < t) (ht : t < len) : impulseResponse len t = 0 :=
  if_neg (Nat.not_dvd_of_pos_of_lt h0 ht)

/-- One round of the buffer attenuates the response by 0.7. -/
theorem impulseResponse_add_len {len : Nat} (hlen : 0 < len) (t : Nat) :
    impulseResponse len (t + len) = impulseResponse len t * (7/10) := by
  simp only [impulseResponse, Nat.dvd_add_self_right, Nat.add_div_right t hlen, ite_mul, zero_mul, pow_succ,
    mul_assoc]

/-- The line after the impulse: nothing comes back before the impulse itself does. -/
theorem yields_after_impulse {len : Nat} (hlen : 0 < len) {v : NumVal} (hv : toReal v = 4/10) :
    (dlyPush exactOps len ⟨[], 0⟩ v).yields len fun j => impulseResponse len (j + 1) := by
  refine (yields_zero_of_empty hlen).push v (fun j hj => impulseResponse_of_lt j.succ_pos hj) fun j hj => ?_
  have hround := impulseResponse_add_len hlen 0
  rw [Nat.zero_add, impulseResponse_zero] at hround
  rw [hj, hround, hv]

/-- One op of input 0 brings the response one op further. -/
theorem Dly.yields.push_zero {len t : Nat} {d : Dly} (hlen : 0 < len)
    (h : d.yields len fun j => impulseResponse len (j + t)) :
    (dlyPush exactOps len d (dlyOut exactOps d (.fin 0))).yields len
      fun j => impulseResponse len (j + (t + 1)) := by
  have hout : toReal (dlyOut exactOps d (.fin 0)) = impulseResponse len t := by
    simpa using h.next_out (.fin 0)
  refine h.push _ (fun j _ => by rw [Nat.add_right_comm, Nat.add_assoc]) fun j hj => ?_
  have hround : j + (t + 1) = t + len := by omega
  rw [hout, hround, impulseResponse_add_len hlen]

theorem Dly.yields.iterate_push_zero {len t : Nat} {d : Dly} (hlen : 0 < len)
    (h : d.yields len fun j => impulseResponse len (j + t)) (k : Nat) :
    ((fun d => dlyPush exactOps len d (dlyOut exactOps d (.fin 0)))^[k] d).yields len
      fun j => impulseResponse len (j + (t + k)) := by
  induction k with
  | zero => exact h
  | succ k ih =>
    rw [Function.iterate_succ_apply']
    exact ih.push_zero hlen

/-- Settles O38: the impulse leaves the line yielding its response from op 1 on, and each of the `k` ops of input 0
brings that one op further. -/
theorem echoImpulseResponse : Obligations.EchoImpulseResponse := by
  intro len k hlen push d1
  have hfirst : toReal (dlyOut exactOps ⟨[], 0⟩ (.fin 1)) = 4/10 := by
    simpa using (yields_zero_of_empty hlen).next_out (.fin 1)
  have hyields : ((fun d => push d 0)^[k] d1).yields len fun j => impulseResponse len (j + (1 + k)) :=
    (yields_after_impulse hlen hfirst).iterate_push_zero hlen k
  refine ⟨hfirst, ?_⟩
  calc toReal (dlyOut exactOps ((fun d => push d 0)^[k] d1) (.fin 0))
      = impulseResponse len (k + 1) := by simpa [Nat.add_comm 1 k] using hyields.next_out (.fin 0)
    _ = if len ∣ (k + 1) then 4/10 * (7/10) ^ ((k + 1) / len) else 0 := rfl

end Sys2Proof.Machine

/-! The sequencer: the fetch-execute cycle, SEQ with its tick clock and pattern actions, and ENDS
(46_sequencer.md). -/

namespace Sys2Proof.Machine

/-! ## Fetch and execute -/

section
variable {s : State} {w : Word}

theorem opStep_of_pastEnd (h : s.cfg.program.length ≤ s.pc) : opStep s = .next (s.raise .fetchEnd s.pc) := by
  simp [opStep, fetchWord, h]

theorem opStep_of_decode_error {r : Reject} (hw : s.cfg.program[s.pc]? = some w) (hd : decode w = .error r) :
    opStep s = .next (s.raise .illegalOp w.toNat) := by
  simp [opStep, fetchWord, hw, hd]

theorem opStep_of_decode_ok {i : Instr} (hw : s.cfg.program[s.pc]? = some w) (hd : decode w = .ok i) :
    opStep s = exec i s := by
  simp [opStep, fetchWord, hw, hd]

end

theorem legal_eq_false_iff {w : Word} : legal w = false ↔ ∃ r, decode w = .error r := by
  unfold legal
  cases decode w <;> simp [Except.isOk, Except.toBool]

/-- Settles O7: with a `NONE` on the port the op runs in the state that has taken it, whose word at `pc` is the
same. -/
theorem stepRunsDecodedOp : Obligations.StepRunsDecodedOp := by
  intro s w i hrun hw hd
  refine ⟨fun hcmd => ?_, fun rest hcmd => ?_⟩
  · rw [step_op hcmd hrun, opStep_of_decode_ok hw hd]
  · rw [step_none_op hcmd hrun]
    exact opStep_of_decode_ok hw hd

/-- Settles O8: both faults are raised by the fetch-execute cycle on the state as it was. -/
theorem fetchFaults : Obligations.FetchFaults := by
  intro s hrun hcmd
  rw [step_op hcmd hrun]
  refine ⟨fun hend => opStep_of_pastEnd hend, fun w hw hillegal => ?_⟩
  obtain ⟨r, hd⟩ := legal_eq_false_iff.mp hillegal
  rw [opStep_of_decode_error hw hd, raise_word]
  rfl

/-! ## The pattern actions -/

theorem patternFires_iff {p : Pattern Bool} {k : Nat} :
    patternFires p k = true ↔ p.table[k % p.period]? = some true := by
  unfold patternFires patternAt
  cases p.table[k % p.period]? <;> simp

theorem patternTarget_eq_some_iff {p : Pattern (Option Target)} {k : Nat} {t : Target} :
    patternTarget p k = some t ↔ p.table[k % p.period]? = some (some t) := by
  unfold patternTarget patternAt
  cases p.table[k % p.period]? <;> simp

@[simp] theorem patternActions_pc (k : Nat) (s : State) : (patternActions k s).pc = s.pc := by
  rw [patternActions_eq]

/-- Settles O40: `patternActions_eq` gives the actions unit by unit; a missing entry and the entry `none` both
leave a voice as it is. -/
theorem patternActionsByTable : Obligations.PatternActionsByTable := by
  intro s k hit aim
  have haim : ∀ v p w, aim v p w = match patternTarget p k with
      | some t => { w with
          tinc := partialTargets s.num (s.num.mul (sawCfg s.cfg v).fund t.tune), tvol := t.vol }
      | none => w := by
    intro v p w
    simp only [aim, patternTarget, patternAt]
    rcases p.table[k % p.period]? with _ | _ | t <;> rfl
  rw [patternActions_eq, haim, haim]
  simp only [hit, patternFires_iff]
  rfl

/-! ## SEQ -/

section
variable {s : State}

theorem tickDue_iff : tickDue s = true ↔ s.nextTick ≤ s.n := decide_eq_true_iff

theorem written_seq_due (h : s.nextTick ≤ s.n) :
    written .seq s = (tickClock s).tpos :: patternWrites s.tick s := if_pos (tickDue_iff.mpr h)

theorem effect_seq_due (h : s.nextTick ≤ s.n) :
    effect .seq s = (patternActions s.tick (tickClock s)).advance := if_pos (tickDue_iff.mpr h)

theorem written_seq_waiting (h : s.n < s.nextTick) : written .seq s = [] :=
  if_neg (mt tickDue_iff.mp (Nat.not_le.mpr h))

theorem effect_seq_waiting (h : s.n < s.nextTick) : effect .seq s = { s with tk := false }.advance :=
  if_neg (mt tickDue_iff.mp (Nat.not_le.mpr h))

end

/-- Settles O39: a waiting SEQ writes no number, a due one the new `tpos` and what the pattern actions write. -/
theorem seqFiresDueTick : Obligations.SeqFiresDueTick := by
  intro s
  constructor
  · intro hwait
    rw [exec_of_finite (by simp) (by simp [written_seq_waiting hwait]), effect_seq_waiting hwait]
    rfl
  · intro hdue tpos clocked hfin
    have hclock : tickClock s = clocked := rfl
    have hwritten : ∀ x ∈ written .seq s, x.isFinite = true := by
      rw [written_seq_due hdue]
      exact hfin
    rw [exec_of_finite (by simp) hwritten, effect_seq_due hdue, hclock, State.advance, patternActions_pc]

/-! ## The tick clock over the real numbers -/

section
variable {s : State}

@[simp] theorem tickClock_cfg : (tickClock s).cfg = s.cfg := rfl
@[simp] theorem tickClock_tick : (tickClock s).tick = s.tick + 1 := rfl
@[simp] theorem tickClock_tpos : (tickClock s).tpos = s.num.add s.tpos s.cfg.tickInterval := rfl
@[simp] theorem tickClock_nextTick : (tickClock s).nextTick = roundHalfUp s.num (tickClock s).tpos := rfl

end

/-- `round_half_up` of a real number that is not negative (46_sequencer.md R241). -/
theorem roundHalfUp_exact {x : NumVal} (h : 0 ≤ toReal x) :
    (roundHalfUp exactOps x : Int) = ⌊toReal x + 1/2⌋ := by
  have hsum : toReal (exactOps.add x (exactOps.ofDec (1/2))) = toReal x + 1/2 := by simp
  have hnonneg : 0 ≤ toReal x + 1/2 := by linarith
  rw [roundHalfUp, exactOps_floorNat _ (hsum ▸ hnonneg), hsum, Int.natCast_floor_eq_floor hnonneg]

/-- The clock after `N` ticks of a real interval `I` (46_sequencer.md R245), the configuration being `c`. -/
def State.clockAt (c : Cfg) (N : Nat) (s : State) : Prop :=
  s.cfg = c ∧ s.tick = N ∧ toReal s.tpos = N * toReal c.tickInterval ∧
    (s.nextTick : Int) = ⌊(N : ℝ) * toReal c.tickInterval + 1/2⌋

/-- One tick (46_sequencer.md R242): the position moves by the interval, and the boundary is its rounding. -/
theorem State.clockAt.next {c : Cfg} {N : Nat} {s : State} (h : s.clockAt c N) (hnum : c.num = .exact)
    (hI : 0 ≤ toReal c.tickInterval) : (tickClock s).clockAt c (N + 1) := by
  obtain ⟨rfl, htick, htpos, -⟩ := h
  have hexact : s.num = exactOps := by rw [State.num, hnum, numOps_exact]
  have hnew : toReal (tickClock s).tpos = (N + 1 : Nat) * toReal s.cfg.tickInterval := by
    rw [tickClock_tpos, hexact, toReal_add, htpos]
    push_cast
    ring
  have hnonneg : 0 ≤ toReal (tickClock s).tpos := hnew ▸ mul_nonneg (Nat.cast_nonneg _) hI
  refine ⟨tickClock_cfg, by rw [tickClock_tick, htick], hnew, ?_⟩
  rw [tickClock_nextTick, hexact, roundHalfUp_exact hnonneg, hnew]

theorem State.clockAt.iterate {s : State} (h : s.clockAt s.cfg 0) (hnum : s.cfg.num = .exact)
    (hI : 0 ≤ toReal s.cfg.tickInterval) (N : Nat) : (tickClock^[N] s).clockAt s.cfg N := by
  induction N with
  | zero => exact h
  | succ N ih =>
    rw [Function.iterate_succ_apply']
    exact ih.next hnum hI

/-- Rounded multiples of an interval of at least 1 are strictly increasing. -/
theorem floor_mul_add_half_lt {r : ℝ} (hr : 1 ≤ r) (N : Nat) :
    ⌊(N : ℝ) * r + 1/2⌋ < ⌊((N + 1 : Nat) : ℝ) * r + 1/2⌋ := by
  rw [← Int.add_one_le_iff, ← Int.floor_add_one]
  refine Int.floor_le_floor ?_
  push_cast
  linarith

/-- Settles O41: the clock is at tick `N` after `N` ticks, and at tick `N + 1` after one more. -/
theorem tickBoundariesRoundMultiples : Obligations.TickBoundariesRoundMultiples := by
  intro s N hnum hI htick htpos hnext t I
  have hnonneg : 0 ≤ I := zero_le_one.trans hI
  have hstart : s.clockAt s.cfg 0 := ⟨rfl, htick, by simpa using htpos, by rw [hnext]; norm_num⟩
  have hnow : t.clockAt s.cfg N := hstart.iterate hnum hnonneg N
  obtain ⟨-, -, -, hlater⟩ := hnow.next hnum hnonneg
  obtain ⟨-, hticks, hpos, hboundary⟩ := hnow
  refine ⟨hticks, hpos, hboundary, ?_⟩
  rw [← Int.ofNat_lt, hboundary, hlater]
  exact floor_mul_add_half_lt hI N

/-! ## ENDS -/

section
variable {s : State}

/-- ENDS writes no number, so it always has its effect. -/
theorem exec_ends : exec .ends s = .next (effect .ends s) := exec_of_finite (by simp) (by simp [written])

theorem effect_ends_last (h : s.n + 1 = s.cfg.nSamples) :
    effect .ends s = { s with n := s.n + 1, run := .done } := if_pos h

theorem effect_ends_more (h : s.n + 1 ≠ s.cfg.nSamples) :
    effect .ends s = { s with n := s.n + 1, pc := 0 } := if_neg h

end

/-- Settles O42: the sample just counted is the last one or is not. -/
theorem endsCountsSample : Obligations.EndsCountsSample :=
  ⟨by decide, fun _ => ⟨fun h => by rw [exec_ends, effect_ends_last h],
    fun h => by rw [exec_ends, effect_ends_more h]⟩⟩

end Sys2Proof.Machine

/-! The mixer and the output: the words of the render schedule, NOISE, RPUSH, IMG with the mean of its window, and
ENC with the consumer's recovery of a sample (47_mixer_output.md). -/

namespace Sys2Proof.Machine

/-! ## The render schedule -/

/-- A program assembled from ops decodes to these ops (30_encoding.md R93, R96). -/
theorem map_decode_of_map_encode {words : List Word} {ops : List Instr} (h : ops.map encode = words) :
    words.map decode = ops.map Except.ok := by
  rw [← h, List.map_map]
  exact List.map_congr_left fun i _ => decodeOfEncode i

/-- Settles O6: the schedule's words are the words of the ops of R275's table. -/
theorem renderScheduleDecodes : Obligations.RenderScheduleDecodes :=
  map_decode_of_map_encode (by decide)

/-! ## An op that writes one number -/

theorem exec_of_written_eq_singleton {i : Instr} {s : State} {v : NumVal} (hi : ∀ rs, i ≠ .enc rs)
    (hw : written i s = [v]) (hv : v.isFinite = true) : exec i s = .next (effect i s) :=
  exec_of_finite hi (by rw [hw, List.forall_mem_singleton]; exact hv)

/-! ## NOISE and RPUSH -/

section
variable (rd rs : Reg) (s : State)

theorem written_noise : written (.noise rd) s =
    [noiseSample s.num s.cfg.noise (rngAt s.rng s.rngIdx) (rngAt s.rng (s.rngIdx + 1))] := rfl

theorem effect_noise : effect (.noise rd) s = ({ s with rngIdx := s.rngIdx + 2 }.setReg rd
    (noiseSample s.num s.cfg.noise (rngAt s.rng s.rngIdx) (rngAt s.rng (s.rngIdx + 1)))).advance := rfl

theorem written_rpush : written (.rpush rs) s = [s.reg rs] := rfl

theorem effect_rpush : effect (.rpush rs) s =
    { s with ring := ringPush s.num s.cfg.ringLen s.ring (s.reg rs) }.advance := rfl

end

/-- Settles O43: the one value NOISE writes is `noiseSample` of the two draws. -/
theorem noiseDrawsGateThenValue : Obligations.NoiseDrawsGateThenValue := by
  intro s rd o c g r u v hfin
  rw [exec_of_written_eq_singleton (by simp) (written_noise rd s) hfin, effect_noise]
  rfl

/-- Settles O44: the ring after the op is one write at the index. -/
theorem rpushWritesRing : Obligations.RpushWritesRing := by
  intro s rs hfin
  refine ⟨memWrite s.zero s.ring.buf s.ring.rw (s.reg rs), ?_, fun hwf => ⟨memWf_memWrite hwf _ _, fun a => ?_⟩⟩
  · rw [exec_of_written_eq_singleton (by simp) (written_rpush rs s) hfin, effect_rpush]
    rfl
  · exact memRead_memWrite hwf _ _ _

/-! ## IMG -/

section
variable {c : Channel} {rd : Reg} {s : State}

theorem written_img : written (.img c rd) s =
    [imageSample s.num s.cfg.ringLen s.ring (windowCfg s.cfg c)] := rfl

theorem effect_img : effect (.img c rd) s =
    (s.setReg rd (imageSample s.num s.cfg.ringLen s.ring (windowCfg s.cfg c))).advance := rfl

/-- IMG with a finite image has its whole effect (47_mixer_output.md R266). -/
theorem exec_img_of_finite
    (h : (imageSample s.num s.cfg.ringLen s.ring (windowCfg s.cfg c)).isFinite = true) :
    exec (.img c rd) s =
      .next (s.setReg rd (imageSample s.num s.cfg.ringLen s.ring (windowCfg s.cfg c))).advance := by
  rw [exec_of_written_eq_singleton (by simp) written_img h, effect_img]

end

/-- The window's sum as a fold over the places `0 .. len - 1` of the window. -/
theorem windowSum_eq_foldl (o : NumOps) (len : Nat) (r : StereoRing) (w : Window) : windowSum o len r w =
    ((List.range w.len).map fun j => ringHist (o.ofNat 0) len r (w.off + j)).foldl o.add (o.ofNat 0) := by
  rw [windowSum, List.range'_eq_map_range, List.foldl_map, List.foldl_map]

/-- Settles O46: the value of the statement is `imageSample` of the channel's window, the sum taken place by
place. -/
theorem imgSubtractsWindowMean : Obligations.ImgSubtractsWindowMean := by
  intro s c rd o w h a v hfin
  have himage : imageSample s.num s.cfg.ringLen s.ring (windowCfg s.cfg c) = v := by
    rw [imageSample, windowSum_eq_foldl]
    cases c <;> rfl
  rw [exec_img_of_finite (by rw [himage]; exact hfin), himage]
  rfl

/-! ## The image of a constant history over the real numbers -/

theorem toReal_foldl_add {α : Type} (f : α → NumVal) (l : List α) (a : NumVal) :
    toReal (l.foldl (fun a j => exactOps.add a (f j)) a) = toReal a + (l.map fun j => toReal (f j)).sum := by
  induction l generalizing a with
  | nil => simp
  | cons j l ih => rw [List.foldl_cons, ih, toReal_add, List.map_cons, List.sum_cons, add_assoc]

/-- The sum of a window in which every value is `x`. -/
theorem toReal_windowSum_of_const {len : Nat} {r : StereoRing} {w : Window} {x : ℝ}
    (h : ∀ j, w.off ≤ j → j < w.off + w.len → toReal (ringHist (exactOps.ofNat 0) len r j) = x) :
    toReal (windowSum exactOps len r w) = w.len * x := by
  have hconst : ∀ y ∈ (List.range' w.off w.len).map fun j => toReal (ringHist (exactOps.ofNat 0) len r j),
      y = x := by
    rw [List.forall_mem_map]
    intro j hj
    obtain ⟨hlo, hhi⟩ := List.mem_range'_1.mp hj
    exact h j hlo hhi
  rw [windowSum, toReal_foldl_add, List.sum_eq_card_nsmul _ x hconst]
  simp

/-- The image over the real numbers: the current sample minus the mean (47_mixer_output.md R266). -/
theorem toReal_imageSample {w : Window} (hlen : 0 < w.len) (len : Nat) (r : StereoRing) :
    toReal (imageSample exactOps len r w) =
      toReal (ringHist (exactOps.ofNat 0) len r 0) - toReal (windowSum exactOps len r w) / w.len := by
  have hne : toReal (exactOps.ofNat w.len) ≠ 0 := by
    rw [toReal_ofNat]
    exact Nat.cast_ne_zero.mpr hlen.ne'
  rw [imageSample, toReal_sub, toReal_div _ _ hne, toReal_ofNat]

/-- Settles O47: the mean of a constant window is that constant, which is the current sample too. -/
theorem constantSignalHasNoImage : Obligations.ConstantSignalHasNoImage := by
  intro s c rd x hexact w hlen hnow hwindow
  have hnum : s.num = exactOps := by rw [State.num, hexact, numOps_exact]
  have hlen' : (w.len : ℝ) ≠ 0 := Nat.cast_ne_zero.mpr hlen.ne'
  rw [State.zero, hnum] at hnow hwindow
  refine ⟨imageSample s.num s.cfg.ringLen s.ring w, ?_, ?_⟩
  · rw [exec_img_of_finite (by rw [hnum]; exact exactOps_sub_finite _ _)]
    rfl
  · rw [hnum, toReal_imageSample hlen, hnow, toReal_windowSum_of_const hwindow, mul_div_cancel_left₀ x hlen',
      sub_self]

/-! ## The three bytes of a sample -/

/-- The bytes of a 24-bit value by its quotients (47_mixer_output.md R272). -/
theorem encBytes_eq (u : BitVec 24) : encBytes u =
    [BitVec.ofNat 8 u.toNat, BitVec.ofNat 8 (u.toNat / 256), BitVec.ofNat 8 (u.toNat / 65536)] := by
  simp [encBytes, BitVec.extractLsb', Nat.shiftRight_eq_div_pow]

/-- A 24-bit value is made of its three bytes, the least significant first. -/
theorem toNat_eq_bytes (u : BitVec 24) : u.toNat = (BitVec.ofNat 8 u.toNat).toNat +
    256 * (BitVec.ofNat 8 (u.toNat / 256)).toNat + 65536 * (BitVec.ofNat 8 (u.toNat / 65536)).toNat := by
  have hu := u.isLt
  simp only [BitVec.toNat_ofNat]
  omega

theorem toNat_encQuantum (o : NumOps) (x : NumVal) :
    (encQuantum o x).toNat = (o.truncInt (o.mul x (o.ofDec 5000000)) % (2 ^ 24 : Int)).toNat := by
  rw [encQuantum, BitVec.toNat_ofInt]
  rfl

/-! ## ENC -/

theorem encOutside_eq_false_iff {o : NumOps} {x : NumVal} : encOutside o x = false ↔
    o.lt x (o.neg (o.ofDec 1)) = false ∧ o.lt (o.ofDec 1) x = false :=
  Bool.or_eq_false_iff

/-- ENC of a value inside its range has its whole effect (47_mixer_output.md R272, 60_exceptions.md R300). -/
theorem exec_enc_of_inside {rs : Reg} {s : State} (h : encOutside s.num (s.reg rs) = false) :
    exec (.enc rs) s = .next (effect (.enc rs) s) := by
  rcases exec_cases (.enc rs) s with ⟨-, he⟩ | ⟨⟨v, hv, -⟩, -⟩ | ⟨q, hq, hout, -⟩
  · exact he
  · cases hv
  · cases hq
    rw [h] at hout
    cases hout

theorem effect_enc (rs : Reg) (s : State) : effect (.enc rs) s =
    { s with
      out := s.out ++ encBytes (encQuantum s.num (s.reg rs)), outCnt := s.outCnt + 3 }.advance := by
  rw [effect, emit_encBytes]

/-- Settles O48: inside the range ENC emits `encBytes`, whose bytes are the quotients of the stored value. -/
theorem encEmitsThreeBytes : Obligations.EncEmitsThreeBytes := by
  intro s rs o x u hlo hhi
  rw [exec_enc_of_inside (encOutside_eq_false_iff.mpr ⟨hlo, hhi⟩), effect_enc, encBytes_eq, toNat_encQuantum]
  rfl

/-! ## The consumer's recovery over the real numbers -/

/-- Rounding toward zero moves a number by less than 1. -/
theorem abs_sub_truncInt_lt_one (a : NumVal) : |toReal a - exactOps.truncInt a| < 1 := by
  rw [exactOps_truncInt, abs_lt]
  split
  · constructor
    · linarith [Int.ceil_lt_add_one (toReal a)]
    · linarith [Int.le_ceil (toReal a)]
  · constructor
    · linarith [Int.floor_le (toReal a)]
    · linarith [Int.lt_floor_add_one (toReal a)]

/-- Rounding toward zero does not leave a symmetric range with integer ends. -/
theorem abs_truncInt_le {a : NumVal} {n : ℤ} (h : |toReal a| ≤ n) : |exactOps.truncInt a| ≤ n := by
  obtain ⟨hlo, hhi⟩ := abs_le.mp h
  rw [exactOps_truncInt, abs_le]
  split
  · next hneg =>
    have hle : ⌈toReal a⌉ ≤ n := Int.ceil_le.mpr hhi
    have hge : ((-n : ℤ) : ℝ) ≤ ⌈toReal a⌉ := by
      push_cast
      exact hlo.trans (Int.le_ceil _)
    exact ⟨by exact_mod_cast hge, hle⟩
  · next hnonneg =>
    have hle : (⌊toReal a⌋ : ℝ) ≤ n := (Int.floor_le _).trans hhi
    have hge : -n ≤ ⌊toReal a⌋ := Int.le_floor.mpr (by push_cast; exact hlo)
    exact ⟨hge, by exact_mod_cast hle⟩

/-- The 24-bit value read as signed is the integer it was made of, if that fits. -/
theorem toInt_encQuantum {o : NumOps} {x : NumVal}
    (h : |o.truncInt (o.mul x (o.ofDec 5000000))| < 2 ^ 23) :
    (encQuantum o x).toInt = o.truncInt (o.mul x (o.ofDec 5000000)) := by
  obtain ⟨hlo, hhi⟩ := abs_lt.mp h
  exact BitVec.toInt_ofInt_eq_self (by decide) (by simpa using hlo.le) (by simpa using hhi)

/-- Settles O50: the scaled value keeps inside 5000000, which 24 bits hold as signed, and is less than 1 away from
`5000000 x`. -/
theorem encodedSampleRecovers : Obligations.EncodedSampleRecovers := by
  intro x hlo hhi q u
  have hscaled : toReal (exactOps.mul x (exactOps.ofDec 5000000)) = toReal x * 5000000 := by
    rw [toReal_mul, toReal_ofDec]
    norm_num
  have hbound : |q| ≤ 5000000 := by
    refine abs_truncInt_le ?_
    rw [hscaled, abs_le]
    constructor <;> push_cast <;> linarith
  have herror : |toReal x * 5000000 - q| < 1 := hscaled ▸ abs_sub_truncInt_lt_one _
  obtain ⟨hqlo, hqhi⟩ := abs_le.mp hbound
  refine ⟨hqhi, hqlo, toInt_encQuantum (hbound.trans_lt (by norm_num)),
    ⟨_, _, _, encBytes_eq u, toNat_eq_bytes u⟩, ?_⟩
  have hquantum : toReal x - (q : ℝ) / 5000000 = (toReal x * 5000000 - q) / 5000000 := by ring
  calc |toReal x - (q : ℝ) / 5000000|
      = |toReal x * 5000000 - q| / 5000000 := by
        rw [hquantum, abs_div, abs_of_pos (by norm_num : (0 : ℝ) < 5000000)]
    _ < 1 / 5000000 := by gcongr

end Sys2Proof.Machine

/-! Every number stays finite: the numbers of a state unit by unit, what an op puts into each of them, the values
RESET leaves, and the invariant (60_exceptions.md R301). -/

namespace Sys2Proof.Machine

/-! ## The numbers of a state, unit by unit -/

/-- Where a number of the state stands (10_state.md R20 to R36). -/
theorem mem_nums_iff {s : State} {x : NumVal} : x ∈ s.nums ↔
    (∃ r, s.reg r = x) ∨ x = s.tpos ∨ x ∈ s.drum.nums ∨ (∃ v, x ∈ (s.saw v).nums) ∨ x ∈ s.hat.nums ∨
      x ∈ memNums s.dly.buf ∨ x ∈ memNums s.ring.buf ∨ ∃ c, x ∈ bandNums (s.xov c) := by
  have hregs : x ∈ s.regs.toList ↔ ∃ r, s.reg r = x := by
    rw [Vector.mem_toList_iff, Vector.mem_iff_getElem]
    exact ⟨fun ⟨k, hk, e⟩ => ⟨⟨k, hk⟩, e⟩, fun ⟨r, e⟩ => ⟨r, r.isLt, e⟩⟩
  have hsaw : (∃ v, x ∈ (s.saw v).nums) ↔ x ∈ s.sawBass.nums ∨ x ∈ s.sawMel.nums :=
    ⟨fun ⟨v, h⟩ => by cases v <;> tauto, fun h => h.elim (⟨.bass, ·⟩) (⟨.melody, ·⟩)⟩
  have hxov : (∃ c, x ∈ bandNums (s.xov c)) ↔ x ∈ bandNums s.xovL ∨ x ∈ bandNums s.xovR :=
    ⟨fun ⟨c, h⟩ => by cases c <;> tauto, fun h => h.elim (⟨.left, ·⟩) (⟨.right, ·⟩)⟩
  rw [hsaw, hxov, ← hregs]
  simp only [State.nums, List.mem_append, List.mem_singleton, or_assoc]

theorem mem_memNums_memWrite {z v x : NumVal} {m : Memory} {a : Nat}
    (h : x ∈ memNums (memWrite z m a v)) : x ∈ memNums m ∨ x = v := by
  obtain ⟨p, hp, rfl⟩ := List.mem_map.mp h
  rcases mem_memWrite hp with hp | rfl
  · exact .inl (List.mem_map_of_mem hp)
  · exact .inr rfl

theorem mem_nums_retarget {w : Saw} {tinc : Vector NumVal 5} {tvol x : NumVal}
    (h : x ∈ ({ w with tinc := tinc, tvol := tvol } : Saw).nums) : x ∈ w.nums ∨ x ∈ tvol :: tinc.toList := by
  simp only [Saw.nums, List.mem_append, List.mem_cons] at h ⊢
  tauto

/-- A voice that a pattern may have retargeted holds what it held and what the pattern wrote. -/
theorem mem_nums_retarget_cases {w w' : Saw} {tinc : Vector NumVal 5} {tvol x : NumVal} {l : List NumVal}
    (hw : w' = { w with tinc := tinc, tvol := tvol }) (hl : w' = w ∨ ∀ y ∈ tvol :: tinc.toList, y ∈ l)
    (h : x ∈ w'.nums) : x ∈ w.nums ∨ x ∈ l := by
  rcases hl with rfl | hl
  · exact .inl h
  · rw [hw] at h
    exact (mem_nums_retarget h).imp_right (hl x)

/-- A sample writes every element of the voice but the targets, which stay (43_chorus_saw_voice.md R193). -/
theorem mem_nums_sawNext {o : NumOps} {k x : NumVal} {w : Saw} (h : x ∈ (sawNext o k w).nums) :
    x ∈ w.nums ∨ x ∈ sawWrites (sawNext o k w) := by
  have htinc : (sawNext o k w).tinc = w.tinc := rfl
  simp only [Saw.nums, sawWrites, htinc, sawNext_tvol, List.mem_append, List.mem_cons] at h ⊢
  tauto

theorem mem_nums_arm {h : Hat} {vol x : NumVal} (hx : x ∈ ({ h with vol := vol } : Hat).nums) :
    x ∈ h.nums ∨ x = vol := by
  simp only [Hat.nums, List.mem_append, List.mem_cons, List.not_mem_nil] at hx ⊢
  tauto

/-- A HAT op writes every element of the voice; the comb keeps its other elements (44_hihat_voice.md R213). -/
theorem mem_nums_hatNext {o : NumOps} {c : HatCfg} {h : Hat} {r : HatOut} {x : NumVal}
    (hx : x ∈ (hatNext o h r).nums) : x ∈ h.nums ∨ x ∈ hatWrites o c h (hatNext o h r) r.y := by
  have hcomb : x ∈ memNums (hatNext o h r).comb → x ∈ memNums h.comb ∨ x = r.y := mem_memNums_memWrite
  simp only [Hat.nums, hatWrites, List.mem_append, List.mem_cons] at hx ⊢
  tauto

/-- An Active sample writes every element it changes (42_drum_voice.md R173). -/
theorem mem_nums_drumNext {o : NumOps} {c : DrumCfg} {d : Drum} {x : NumVal} (hx : x ∈ (drumNext o c d).nums) :
    x ∈ d.nums ∨ x ∈ drumWrites o c d := by
  have hphase : (drumNext o c d).phase ∈ drumWrites o c d := by
    cases hw : drumWraps o c d <;> simp [drumNext, drumWrites, hw]
  have hfreq : (drumNext o c d).freq ∈ drumWrites o c d := by simp [drumWrites]
  have hvol : (drumNext o c d).vol = d.vol ∨ (drumNext o c d).vol ∈ drumWrites o c d := by
    cases hr : drumReleasing c d <;> simp [drumNext, drumVol, drumWrites, hr]
  have hfdec : (drumNext o c d).fdec = d.fdec ∨ (drumNext o c d).fdec ∈ drumWrites o c d := by
    cases hw : drumWraps o c d <;> simp [drumNext, drumWrites, hw]
  have hfm : (drumNext o c d).fm = d.fm ∨ (drumNext o c d).fm ∈ drumWrites o c d := by
    cases hw : drumWraps o c d <;> simp [drumNext, drumWrites, hw]
  have hvdec : (drumNext o c d).vdec = d.vdec := rfl
  simp only [Drum.nums, List.mem_cons, List.not_mem_nil, or_false] at hx ⊢
  rcases hx with rfl | rfl | rfl | rfl | rfl | rfl <;> tauto

/-! ## What an op puts into each unit is what it writes -/

section
variable (i : Instr) (s : State)

/-- A destination register takes a value that the op writes (10_state.md R21). -/
theorem effect_reg_written (r : Reg) : (effect i s).reg r = s.reg r ∨ (effect i s).reg r ∈ written i s := by
  by_cases hd : destReg i = some r
  · right
    cases i with
    | nop | trig | tgt | arm | seq | ends | rpush | enc => cases hd
    | drum rd rs =>
      cases hd
      cases hon : s.drum.on
      · simp [effect_drum_idle _ hon, written_drum_idle _ hon]
      · simp [effect_drum_active _ hon, written_drum_active _ hon]
    | _ =>
      cases hd
      simp [effect, written]
  · exact .inl ((congrArg (State.reg · r) (effect_eq_footprint i s)).trans (reg_footprint hd))

/-- The clock moves before the pattern actions, which do not read it (46_sequencer.md R242, R244). -/
theorem patternWrites_tickClock (k : Nat) : patternWrites k (tickClock s) = patternWrites k s := rfl

/-- SEQ puts a number it writes, or the one that was there, into each element of the clock and of the voices. -/
theorem effect_seq_written :
    ((effect .seq s).tpos = s.tpos ∨ (effect .seq s).tpos ∈ written .seq s) ∧
    (∀ x ∈ (effect .seq s).drum.nums, x ∈ s.drum.nums ∨ x ∈ written .seq s) ∧
    (∀ v, ∀ x ∈ ((effect .seq s).saw v).nums, x ∈ (s.saw v).nums ∨ x ∈ written .seq s) ∧
    ∀ x ∈ (effect .seq s).hat.nums, x ∈ s.hat.nums ∨ x ∈ written .seq s := by
  by_cases hdue : s.nextTick ≤ s.n
  · rw [effect_seq_due hdue, written_seq_due hdue]
    obtain ⟨d, b, m, vol, e, hd, hvol, ⟨tb, vb, hbeq, hb⟩, tm, vm, hmeq, hm⟩ :=
      patternActions_cases s.tick (tickClock s)
    rw [patternWrites_tickClock] at hd hvol hb hm
    rw [e]
    refine ⟨.inr (List.mem_cons_self ..), fun x hx => ?_, fun v x hx => ?_, fun x hx => ?_⟩
    · have hseq : x ∈ s.drum.nums ∨ x ∈ patternWrites s.tick s := by
        rcases hd with rfl | ⟨-, hd⟩
        · exact .inl hx
        · exact .inr (hd x hx)
      exact hseq.imp_right (List.mem_cons_of_mem _)
    · have hseq : x ∈ (s.saw v).nums ∨ x ∈ patternWrites s.tick s := by
        cases v with
        | bass => exact mem_nums_retarget_cases hbeq hb hx
        | melody => exact mem_nums_retarget_cases hmeq hm hx
      exact hseq.imp_right (List.mem_cons_of_mem _)
    · have hseq : x ∈ s.hat.nums ∨ x ∈ patternWrites s.tick s := by
        rcases mem_nums_arm hx with hx | rfl
        · exact .inl hx
        · rcases hvol with rfl | hvol
          · exact .inl (by simp [Hat.nums, tickClock])
          · exact .inr hvol
      exact hseq.imp_right (List.mem_cons_of_mem _)
  · rw [effect_seq_waiting (Nat.not_le.mp hdue)]
    exact ⟨.inl rfl, fun _ => .inl, fun v _ => by cases v <;> exact .inl, fun _ => .inl⟩

variable {s} {x : NumVal}

theorem effect_tpos_written : (effect i s).tpos = s.tpos ∨ (effect i s).tpos ∈ written i s := by
  by_cases hne : (effect i s).tpos = s.tpos
  · exact .inl hne
  · have hi : i = .seq := clock_change (effect_eq_footprint i s) (.inr (.inl hne))
    subst hi
    exact (effect_seq_written s).1

theorem effect_drum_written (hx : x ∈ (effect i s).drum.nums) : x ∈ s.drum.nums ∨ x ∈ written i s := by
  by_cases hne : (effect i s).drum = s.drum
  · exact .inl (hne ▸ hx)
  rcases drum_change (effect_eq_footprint i s) hne with rfl | rfl | ⟨rd, rs, rfl⟩
  · exact .inr hx
  · obtain ⟨-, hdrum, -⟩ := effect_seq_written s
    exact hdrum x hx
  · cases hon : s.drum.on
    · rw [effect_drum_idle rd hon] at hx
      exact .inl hx
    · rw [effect_drum_active rd hon] at hx
      rw [written_drum_active rd hon]
      exact (mem_nums_drumNext hx).imp_right (List.mem_cons_of_mem _)

theorem effect_saw_written {v : Voice} (hx : x ∈ ((effect i s).saw v).nums) :
    x ∈ (s.saw v).nums ∨ x ∈ written i s := by
  by_cases hne : (effect i s).saw v = s.saw v
  · exact .inl (hne ▸ hx)
  rcases saw_change (effect_eq_footprint i s) hne with rfl | ⟨rd, rs, rfl⟩ | ⟨rd, rfl⟩
  · obtain ⟨-, -, hsaw, -⟩ := effect_seq_written s
    exact hsaw v x hx
  · rw [effect_tgt, saw_advance, saw_setSaw_self] at hx
    exact mem_nums_retarget hx
  · rw [effect_saw_saw] at hx
    rw [mem_written_saw_iff]
    exact mem_nums_sawNext hx

theorem effect_hat_written (hx : x ∈ (effect i s).hat.nums) : x ∈ s.hat.nums ∨ x ∈ written i s := by
  by_cases hne : (effect i s).hat = s.hat
  · exact .inl (hne ▸ hx)
  rcases hat_change (effect_eq_footprint i s) hne with rfl | rfl | ⟨rd, rfl⟩
  · exact (mem_nums_arm hx).imp_right List.mem_singleton.mpr
  · obtain ⟨-, -, -, hhat⟩ := effect_seq_written s
    exact hhat x hx
  · rw [written_hat]
    exact (mem_nums_hatNext hx).imp_right (List.mem_cons_of_mem _)

theorem effect_dly_written (hx : x ∈ memNums (effect i s).dly.buf) :
    x ∈ memNums s.dly.buf ∨ x ∈ written i s := by
  by_cases hne : (effect i s).dly = s.dly
  · exact .inl (hne ▸ hx)
  · obtain ⟨rd, rs, rfl⟩ := dly_change (effect_eq_footprint i s) hne
    exact (mem_memNums_memWrite hx).imp_right List.mem_singleton.mpr

theorem effect_ring_written (hx : x ∈ memNums (effect i s).ring.buf) :
    x ∈ memNums s.ring.buf ∨ x ∈ written i s := by
  by_cases hne : (effect i s).ring = s.ring
  · exact .inl (hne ▸ hx)
  · obtain ⟨rs, rfl⟩ := ring_change (effect_eq_footprint i s) hne
    exact (mem_memNums_memWrite hx).imp_right List.mem_singleton.mpr

theorem effect_xov_written {c : Channel} (hx : x ∈ bandNums ((effect i s).xov c)) :
    x ∈ bandNums (s.xov c) ∨ x ∈ written i s := by
  by_cases hne : (effect i s).xov c = s.xov c
  · exact .inl (hne ▸ hx)
  · obtain ⟨rd, rs, rfl⟩ := xov_change (effect_eq_footprint i s) hne
    rw [effect_xov_xov] at hx
    exact .inr (List.mem_cons_of_mem _ hx)

/-- Every number of the state after an op was there before or is one that the op writes, which R301 judges. -/
theorem effect_nums_written (hx : x ∈ (effect i s).nums) : x ∈ s.nums ∨ x ∈ written i s := by
  rw [mem_nums_iff] at hx ⊢
  rcases hx with ⟨r, rfl⟩ | rfl | hx | ⟨v, hx⟩ | hx | hx | hx | ⟨c, hx⟩
  · exact (effect_reg_written i s r).imp_left fun e => .inl ⟨r, e.symm⟩
  · exact (effect_tpos_written i).imp_left fun e => .inr (.inl e)
  · exact (effect_drum_written i hx).imp_left fun h => .inr (.inr (.inl h))
  · exact (effect_saw_written i hx).imp_left fun h => by tauto
  · exact (effect_hat_written i hx).imp_left fun h => by tauto
  · exact (effect_dly_written i hx).imp_left fun h => by tauto
  · exact (effect_ring_written i hx).imp_left fun h => by tauto
  · exact (effect_xov_written i hx).imp_left fun h => by tauto

end

/-! ## The reset values of each unit -/

section
variable {z : NumVal}

theorem Drum.reset_nums : ∀ x ∈ (Drum.reset z).nums, x = z := by simp [Drum.reset, Drum.nums]

theorem Saw.reset_nums : ∀ x ∈ (Saw.reset z).nums, x = z := by simp [Saw.reset, Saw.nums]

theorem Hat.reset_nums : ∀ x ∈ (Hat.reset z).nums, x = z := by simp [Hat.reset, Hat.nums, memNums]

theorem crossoverReset_nums {floor : NumVal} : ∀ x ∈ bandNums (crossoverReset z floor), x = z ∨ x = floor := by
  simp [crossoverReset, Bandpass.reset, bandNums, Bandpass.nums]

end

section
variable (s : State)

theorem hostReset_reg (r : Reg) : (hostReset s).reg r = s.zero := Vector.getElem_replicate _

theorem hostReset_saw (v : Voice) : (hostReset s).saw v = Saw.reset s.zero := by cases v <;> rfl

end

/-- RESET leaves two numbers of the domain in the elements (70_reset_and_hazards.md R321). -/
theorem hostReset_nums {s : State} {x : NumVal} (hx : x ∈ (hostReset s).nums) :
    x = s.zero ∨ x = s.num.ofDec (3/10) := by
  rw [mem_nums_iff] at hx
  rcases hx with ⟨r, rfl⟩ | rfl | hx | ⟨v, hx⟩ | hx | hx | hx | ⟨c, hx⟩
  · exact .inl (hostReset_reg s r)
  · exact .inl rfl
  · exact .inl (Drum.reset_nums x hx)
  · rw [hostReset_saw] at hx
    exact .inl (Saw.reset_nums x hx)
  · exact .inl (Hat.reset_nums x hx)
  · cases hx
  · cases hx
  · rw [hostReset_xov] at hx
    exact crossoverReset_nums x hx

/-! ## Every step keeps the numbers finite -/

/-- An op that completes wrote finite numbers only, and a fault writes none (60_exceptions.md R291, R301). -/
theorem exec_allFinite {i : Instr} {s t : State} (h : s.allFinite) (he : exec i s = .next t) : t.allFinite := by
  obtain ⟨hnums, hzero, hfloor⟩ := h
  rcases exec_cases i s with ⟨hw, e⟩ | ⟨-, e⟩ | ⟨rs, -, -, e⟩ <;> rw [he] at e <;> cases e
  · refine ⟨fun v hv => ?_, by rwa [effect_zero], by rwa [State.num, effect_cfg]⟩
    rcases effect_nums_written i hv with hv | hv
    · exact hnums v hv
    · exact hw v hv
  · exact ⟨hnums, hzero, hfloor⟩
  · exact ⟨hnums, hzero, hfloor⟩

theorem hostReset_allFinite {s : State} (hzero : s.zero.isFinite = true)
    (hfloor : (s.num.ofDec (3/10)).isFinite = true) : (hostReset s).allFinite := by
  refine ⟨fun v hv => ?_, hzero, hfloor⟩
  rcases hostReset_nums hv with rfl | rfl
  · exact hzero
  · exact hfloor

/-- Settles O54: an op that completes leaves numbers that were there and numbers that it wrote, all finite; RESET
leaves the two reset numbers, and every other step leaves the numbers as they are. -/
theorem numbersStayFinite : Obligations.NumbersStayFinite := by
  refine step_keeps State.allFinite (fun _ _ h => h) ?exec (fun _ h _ _ => h) (fun _ _ _ h _ _ _ => h) ?reset ?start
  case exec => exact fun _ _ _ h _ _ he => exec_allFinite h he
  case reset =>
    rintro s ⟨-, hzero, hfloor⟩
    exact hostReset_allFinite hzero hfloor
  case start =>
    intro s h
    obtain ⟨r, f, k, e⟩ := hostStart_frame s
    rw [e]
    exact h

end Sys2Proof.Machine

/-! Exceptions: the faults an op can end in, the range fault of ENC, START with its checks in their order, and what
each check tests (60_exceptions.md). -/

namespace Sys2Proof.Machine

/-! ## Faults of an op -/

/-- An op that completes in RUN does not end in FAULT: it keeps `RUN`, or ends the run (10_state.md R27). -/
theorem effect_run_ne_fault {s : State} (i : Instr) (hr : s.run = .run) : (effect i s).run ≠ .fault := by
  by_cases hi : i = .ends
  · subst hi
    rcases effect_ends_run s with e | e <;> simp [e, hr]
  · simp [(effect_run_pc s hi).1, hr]

/-- Settles O52: of the three cases of `exec_cases` the two that end in FAULT raise on the state before the op. -/
theorem faultsArePrecise : Obligations.FaultsArePrecise := by
  intro i s t hr he hfault
  rcases exec_cases i s with ⟨-, e⟩ | ⟨-, e⟩ | ⟨rs, hi, -, e⟩ <;> rw [he] at e <;> cases e
  · exact absurd hfault (effect_run_ne_fault i hr)
  · exact .inl (raise_word s .numInvalid (encode i))
  · exact .inr ⟨rs, hi, rfl⟩

/-- ENC of a value outside its range raises `EncRange` before it emits (60_exceptions.md R300). -/
theorem exec_enc_of_outside {rs : Reg} {s : State} (h : encOutside s.num (s.reg rs) = true) :
    exec (.enc rs) s = .next (s.raise .encRange rs.val) := if_pos h

/-- Settles O49: below -1 or above 1 is what `encOutside` decides. -/
theorem encRangeFaults : Obligations.EncRangeFaults := fun _ _ h => exec_enc_of_outside (Bool.or_eq_true_iff.mpr h)

/-! ## START -/

/-- The check that START reports is the lowest that fails (60_exceptions.md R293, R295). -/
theorem firstFailing_some {c : Cfg} {k : Nat} : firstFailing c = some k ↔
    cfgCheck c k = false ∧ (1 ≤ k ∧ k ≤ 14) ∧ ∀ j, 1 ≤ j → j < k → cfgCheck c j = true := by
  have hnumbers : checkNumbers = List.range' 1 14 := rfl
  rw [firstFailing, hnumbers, List.find?_range'_eq_some]
  simp only [Bool.not_eq_true', Bool.not_eq_false', List.mem_range'_1, Nat.reduceAdd, Nat.lt_succ_iff]

section
variable {s : State}

theorem hostStart_of_not_idle (hr : s.run ≠ .idle) : hostStart s = s := if_neg hr

theorem hostStart_of_failing {k : Nat} (hr : s.run = .idle) (hk : firstFailing s.cfg = some k) :
    hostStart s = s.raise .cfgInvalid k := by
  simp [hostStart, hr, hk]

theorem hostStart_of_no_sink (hr : s.run = .idle) (hc : firstFailing s.cfg = none) (hs : s.sinkReady = false) :
    hostStart s = s.raise .resource 0 := by
  simp [hostStart, hr, hc, hs]

theorem hostStart_of_ready (hr : s.run = .idle) (hc : firstFailing s.cfg = none) (hs : s.sinkReady = true) :
    hostStart s = { s with run := .run } := by
  simp [hostStart, hr, hc, hs]

end

/-- Settles O10: START reads the lowest failing check, then the sink. -/
theorem startChecksThenRuns : Obligations.StartChecksThenRuns := by
  intro s rest hc
  have hstep : step s = .next (hostStart { s with cmd := rest }) := step_start hc
  have hnone : (∀ j, 1 ≤ j → j ≤ 14 → cfgCheck s.cfg j = true) → firstFailing s.cfg = none := firstFailing_none.mpr
  refine ⟨fun hr => ?_, fun k hr h1 h14 hbelow hk => ?_, fun hr hall hsink => ?_, fun hr hall hsink => ?_⟩
  · exact hstep.trans (congrArg _ (hostStart_of_not_idle hr))
  · exact hstep.trans (congrArg _ (hostStart_of_failing hr (firstFailing_some.mpr ⟨hk, ⟨h1, h14⟩, hbelow⟩)))
  · exact hstep.trans (congrArg _ (hostStart_of_no_sink hr (hnone hall) hsink))
  · exact hstep.trans (congrArg _ (hostStart_of_ready hr (hnone hall) hsink))

/-! ## Comparisons of parameters as propositions -/

/-- `a < b`, counting only for finite numbers (60_exceptions.md R296). -/
def FiniteLt (o : NumOps) (a b : NumVal) : Prop := a.isFinite = true ∧ b.isFinite = true ∧ o.lt a b = true

/-- `a <= b`, counting only for finite numbers (60_exceptions.md R296). -/
def FiniteLe (o : NumOps) (a b : NumVal) : Prop := a.isFinite = true ∧ b.isFinite = true ∧ o.le a b = true

section
variable {o : NumOps} {a b v : NumVal}

theorem FiniteLt.right : FiniteLt o a b → b.isFinite = true := fun ⟨_, hb, _⟩ => hb
theorem FiniteLe.right : FiniteLe o a b → b.isFinite = true := fun ⟨_, hb, _⟩ => hb

theorem parLt_iff_finiteLt : parLt o a b = true ↔ FiniteLt o a b := parLt_iff o a b
theorem parLe_iff_finiteLe : parLe o a b = true ↔ FiniteLe o a b := parLe_iff o a b
theorem parPos_iff : parPos o v = true ↔ FiniteLt o (o.ofDec 0) v := parLt_iff_finiteLt
theorem parNonneg_iff : parNonneg o v = true ↔ FiniteLe o (o.ofDec 0) v := parLe_iff_finiteLe

theorem parUnit_iff : parUnit o v = true ↔ FiniteLt o (o.ofDec 0) v ∧ FiniteLt o v (o.ofDec 1) := by
  rw [parUnit, Bool.and_eq_true, parPos_iff, parLt_iff_finiteLt]

end

/-! ## What each group of parameters is checked for (60_exceptions.md R296) -/

section
variable {o : NumOps}

theorem windowOk_iff {ringLen : Nat} {w : Window} :
    windowOk ringLen w = true ↔ 1 ≤ w.len ∧ w.off + w.len ≤ ringLen := by
  rw [windowOk, Bool.and_eq_true, decide_eq_true_iff, decide_eq_true_iff]

theorem allBands_iff {p : NumVal → Bool} {b : Bands NumVal} :
    allBands p b = true ↔ ∀ v ∈ [b.sub, b.mid, b.high], p v = true := by
  simp [allBands, and_assoc]

theorem sawCfgOk_iff {c : SawCfg} : sawCfgOk o c = true ↔
    FiniteLe o (o.ofDec 0) c.fund ∧ FiniteLt o (o.ofDec 0) c.lfoTicks ∧ FiniteLe o (o.ofDec 0) c.cutDepth ∧
      c.cutMid.isFinite = true ∧ FiniteLt o (o.ofDec 0) (o.sub c.cutMid c.cutDepth) ∧
      FiniteLt o (o.add c.cutMid c.cutDepth) (o.ofDec 1) := by
  simp only [sawCfgOk, Bool.and_eq_true, parNonneg_iff, parPos_iff, parLt_iff_finiteLt, and_assoc]

theorem hatCfgOk_iff {c : HatCfg} : hatCfgOk o c = true ↔
    FiniteLt o (o.ofDec 0) c.baseInc ∧ FiniteLt o (o.ofDec 0) c.semi ∧
      (FiniteLt o (o.ofDec 0) c.incDecay ∧ FiniteLe o c.incDecay (o.ofDec 1)) ∧
      FiniteLe o (o.ofDec 0) c.incFloor ∧
      (FiniteLt o (o.neg (o.ofDec 1)) c.combFb ∧ FiniteLt o c.combFb (o.ofDec 1)) ∧
      (FiniteLt o (o.ofDec 0) c.hpC ∧ FiniteLt o c.hpC (o.ofDec 1)) ∧ FiniteLe o (o.ofDec 0) c.vol0 := by
  simp only [hatCfgOk, minusOne, Bool.and_eq_true, parNonneg_iff, parPos_iff, parUnit_iff, parLt_iff_finiteLt,
    parLe_iff_finiteLe, and_assoc]

theorem drumCfgOk_iff {c : DrumCfg} : drumCfgOk o c = true ↔
    FiniteLt o (o.ofDec 0) c.f0 ∧ FiniteLt o (o.ofDec 0) c.floor ∧ 1 ≤ c.len ∧
      (FiniteLt o (o.ofDec 0) c.fmul ∧ FiniteLe o c.fmul (o.ofDec 1)) ∧ FiniteLe o (o.ofDec 0) c.fm0 ∧
      FiniteLt o (o.ofDec 0) c.fmNorm ∧ FiniteLe o (o.ofDec 0) c.fdecK := by
  simp only [drumCfgOk, Bool.and_eq_true, decide_eq_true_iff, parNonneg_iff, parPos_iff, parLe_iff_finiteLe,
    and_assoc]

theorem noiseCfgOk_iff {c : NoiseCfg} : noiseCfgOk o c = true ↔
    1 ≤ c.modulus ∧ 1 ≤ c.gateMod ∧ FiniteLe o (o.ofDec 0) c.amp ∧ FiniteLe o (o.ofDec 0) c.burstAmp := by
  simp only [noiseCfgOk, Bool.and_eq_true, decide_eq_true_iff, parNonneg_iff, and_assoc]

theorem patternShapeOk_iff {α : Type} {p : Pattern α} : patternShapeOk p = true ↔
    (p.period = 8 ∨ p.period = 32 ∨ p.period = 256) ∧ p.table.length = p.period := by
  simp [patternShapeOk, or_assoc]

theorem all_targetOk_iff {l : List (Option Target)} : l.all (targetOk o) = true ↔
    ∀ t : Target, some t ∈ l → FiniteLe o (o.ofDec 0) t.tune ∧ FiniteLe o (o.ofDec 0) t.vol := by
  have hsome : ∀ t : Target, targetOk o (some t) = true ↔
      FiniteLe o (o.ofDec 0) t.tune ∧ FiniteLe o (o.ofDec 0) t.vol := fun t => by
    rw [targetOk, Bool.and_eq_true, parNonneg_iff, parNonneg_iff]
  rw [List.all_eq_true]
  refine ⟨fun h t ht => (hsome t).mp (h _ ht), fun h x hx => ?_⟩
  cases x with
  | none => rfl
  | some t => exact (hsome t).mpr (h t hx)

end

/-! ## The checks by number -/

section
variable (c : Cfg)

theorem cfgCheck_windows_iff : cfgCheck c 5 = true ↔
    ∀ w ∈ [c.stL, c.stR], 1 ≤ w.len ∧ w.off + w.len ≤ c.ringLen := by
  simp [cfgCheck, windowOk_iff]

theorem cfgCheck_crossover_iff : cfgCheck c 7 = true ↔
    ∀ v ∈ [c.xoCl.sub, c.xoCl.mid, c.xoCl.high, c.xoCh.sub, c.xoCh.mid, c.xoCh.high],
      FiniteLt (numOps c.num) ((numOps c.num).ofDec 0) v ∧ FiniteLt (numOps c.num) v ((numOps c.num).ofDec 1) := by
  simp [cfgCheck, allBands_iff, parUnit_iff, and_assoc]

theorem cfgCheck_saws_iff : cfgCheck c 8 = true ↔ ∀ w ∈ [c.sawBass, c.sawMel], sawCfgOk (numOps c.num) w = true := by
  simp [cfgCheck]

theorem cfgCheck_patterns_iff : cfgCheck c 12 = true ↔
    (∀ q ∈ [(c.patDrum.period, c.patDrum.table.length), (c.patHat.period, c.patHat.table.length),
      (c.patBass.period, c.patBass.table.length), (c.patMel.period, c.patMel.table.length)],
      (q.1 = 8 ∨ q.1 = 32 ∨ q.1 = 256) ∧ q.2 = q.1) ∧
    ∀ t : Target, some t ∈ c.patBass.table ++ c.patMel.table →
      FiniteLe (numOps c.num) ((numOps c.num).ofDec 0) t.tune ∧
      FiniteLe (numOps c.num) ((numOps c.num).ofDec 0) t.vol := by
  rw [← all_targetOk_iff, List.all_append, Bool.and_eq_true]
  simp [cfgCheck, patternShapeOk_iff, and_assoc]

theorem cfgCheck_program_iff : cfgCheck c 13 = true ↔ c.program.length ≤ 256 ∧ ∀ w ∈ c.program, legal w = true := by
  simp only [cfgCheck, Bool.and_eq_true, decide_eq_true_iff, List.all_eq_true]

theorem cfgCheck_rates_iff : cfgCheck c 14 = true ↔
    FiniteLt (numOps c.num) ((numOps c.num).ofDec 0) c.srA ∧
      FiniteLt (numOps c.num) ((numOps c.num).ofDec 0) c.srB := by
  simp only [cfgCheck, Bool.and_eq_true, parPos_iff]

end

/-! ## A parameter that is not a finite number fails its check (log entry 21) -/

/-- A check that passes only if a parameter is finite fails when it is not. -/
theorem check_false_of_nonFinite {check : Bool} {v : NumVal} (h : check = true → v.isFinite = true)
    (hbad : v.isFinite = false) : check = false := by
  by_contra hcheck
  rw [h (Bool.eq_true_of_not_eq_false hcheck)] at hbad
  cases hbad

section
variable {o : NumOps}

theorem sawCfgOk_finite {w : SawCfg} (h : sawCfgOk o w = true) :
    ∀ v ∈ [w.fund, w.lfoTicks, w.cutMid, w.cutDepth], v.isFinite = true := by
  obtain ⟨hfund, hlfo, hdepth, hmid, -⟩ := sawCfgOk_iff.mp h
  simp [hfund.right, hlfo.right, hmid, hdepth.right]

theorem hatCfgOk_finite {c : HatCfg} (h : hatCfgOk o c = true) :
    ∀ v ∈ [c.baseInc, c.semi, c.incDecay, c.incFloor, c.combFb, c.hpC, c.vol0], v.isFinite = true := by
  obtain ⟨hbase, hsemi, ⟨hdecay, -⟩, hfloor, ⟨hcomb, -⟩, ⟨hhp, -⟩, hvol⟩ := hatCfgOk_iff.mp h
  simp [hbase.right, hsemi.right, hdecay.right, hfloor.right, hcomb.right, hhp.right, hvol.right]

theorem drumCfgOk_finite {c : DrumCfg} (h : drumCfgOk o c = true) :
    ∀ v ∈ [c.f0, c.floor, c.fmul, c.fm0, c.fmNorm, c.fdecK], v.isFinite = true := by
  obtain ⟨hf0, hfloor, -, ⟨hfmul, -⟩, hfm0, hnorm, hfdec⟩ := drumCfgOk_iff.mp h
  simp [hf0.right, hfloor.right, hfmul.right, hfm0.right, hnorm.right, hfdec.right]

theorem noiseCfgOk_finite {c : NoiseCfg} (h : noiseCfgOk o c = true) :
    ∀ v ∈ [c.amp, c.burstAmp], v.isFinite = true := by
  obtain ⟨-, -, hamp, hburst⟩ := noiseCfgOk_iff.mp h
  simp [hamp.right, hburst.right]

end

/-- Settles O11: each check by the lemma about its group of parameters; a check that passes makes every number it
compares finite. -/
theorem configurationChecks : Obligations.ConfigurationChecks := by
  intro c o lt le zero one bad h d targets
  refine ⟨decide_eq_true_iff, parLe_iff_finiteLe, decide_eq_true_iff, decide_eq_true_iff, cfgCheck_windows_iff c,
    parUnit_iff, cfgCheck_crossover_iff c, ?saws, hatCfgOk_iff, drumCfgOk_iff, noiseCfgOk_iff,
    cfgCheck_patterns_iff c, cfgCheck_program_iff c, cfgCheck_rates_iff c, ?tickBad, ?decayBad, ?crossoverBad,
    ?sawsBad, ?hatBad, ?drumBad, ?noiseBad, ?targetsBad, ?ratesBad⟩
  case saws =>
    simp only [cfgCheck_saws_iff, sawCfgOk_iff]
    rfl
  case tickBad => exact check_false_of_nonFinite fun hc => (parLe_iff_finiteLe.mp hc).right
  case decayBad => exact check_false_of_nonFinite fun hc => (parUnit_iff.mp hc).1.right
  case crossoverBad =>
    exact fun v hv => check_false_of_nonFinite fun hc => ((cfgCheck_crossover_iff c).mp hc v hv).1.right
  case sawsBad =>
    exact fun w hw v hv => check_false_of_nonFinite fun hc =>
      sawCfgOk_finite ((cfgCheck_saws_iff c).mp hc w hw) v hv
  case hatBad => exact fun v hv => check_false_of_nonFinite fun hc => hatCfgOk_finite hc v hv
  case drumBad => exact fun v hv => check_false_of_nonFinite fun hc => drumCfgOk_finite hc v hv
  case noiseBad => exact fun v hv => check_false_of_nonFinite fun hc => noiseCfgOk_finite hc v hv
  case targetsBad =>
    intro t ht v hv
    refine check_false_of_nonFinite fun hc => ?_
    obtain ⟨-, htargets⟩ := (cfgCheck_patterns_iff c).mp hc
    obtain ⟨htune, hvol⟩ := htargets t ht
    rcases List.mem_pair.mp hv with rfl | rfl
    · exact htune.right
    · exact hvol.right
  case ratesBad =>
    intro v hv
    refine check_false_of_nonFinite fun hc => ?_
    obtain ⟨ha, hb⟩ := (cfgCheck_rates_iff c).mp hc
    rcases List.mem_pair.mp hv with rfl | rfl
    · exact ha.right
    · exact hb.right

end Sys2Proof.Machine

/-! RESET: the value of every element after it, and the invariants of the reset state
(70_reset_and_hazards.md). -/

namespace Sys2Proof.Machine

/-- Every bandpass of a channel after RESET has one value (10_state.md R36). -/
theorem hostReset_bandpass {s : State} {c : Channel} {b : Bandpass}
    (hb : b ∈ [((hostReset s).xov c).sub, ((hostReset s).xov c).mid, ((hostReset s).xov c).high]) :
    b = Bandpass.reset s.zero (s.num.ofDec (3/10)) := by
  rw [hostReset_xov] at hb
  simpa [crossoverReset, State.zero] using hb

/-- Settles O12: RESET builds the reset state under the inputs there are, and each unit's reset value holds
`of_nat(0)` in every number but the three peaks of a channel. -/
theorem resetValues : Obligations.ResetValues := by
  intro s rest hc
  refine ⟨hostReset { s with cmd := rest }, step_reset hc, hostReset_reg _, rfl, rfl, rfl, rfl, rfl, rfl, rfl,
    rfl, rfl, rfl, rfl, rfl, rfl, rfl, Drum.reset_nums, fun u => ?saw, Hat.reset_nums, rfl, rfl, rfl,
    fun a => ⟨rfl, rfl, rfl⟩, fun c b hb => ?xov, rfl, rfl⟩
  case saw =>
    rw [hostReset_saw]
    exact Saw.reset_nums
  case xov =>
    rw [hostReset_bandpass hb]
    exact ⟨rfl, rfl, rfl, rfl⟩

/-- RESET of the reset state changes nothing (70_reset_and_hazards.md R320). -/
theorem hostReset_reset : hostReset State.reset = State.reset := rfl

/-- REF is in the exact domain with a decay factor of 0.99, and the reset values meet the bounds for it
(41_bandpass_crossover.md R154). -/
theorem reset_peaksOk : State.reset.peaksOk := by
  have hdecay : toReal State.reset.cfg.bpDecay = 99/100 := by
    change toReal (.fin (99/100)) = 99/100
    norm_num
  have h0 : 0 < toReal State.reset.cfg.bpDecay := by norm_num [hdecay]
  have h1 : toReal State.reset.cfg.bpDecay < 1 := by norm_num [hdecay]
  have hband := reset_tracked h0 h1
  refine ⟨rfl, h0, h1, fun c => ?_⟩
  rw [← hostReset_reset, hostReset_xov]
  exact ⟨hband, hband, hband⟩

/-- Settles O13: the reset state is what RESET makes of it, and RESET establishes each invariant of every domain. -/
theorem resetStateIsGood : Obligations.ResetStateIsGood := by
  obtain ⟨hzero, hfloor⟩ := reset_numbers_finite (d := .exact) (.inl rfl)
  refine ⟨?_, reset_peaksOk⟩
  rw [← hostReset_reset]
  exact ⟨hostReset_allFinite hzero hfloor, hostReset_buffersWf _, hostReset_indicesInRange _,
    hostReset_controlOk _⟩

end Sys2Proof.Machine
